-- ==== Sys2Proof/Word.lean ====
section
/-! DEFINITION. The word types of HUFCORE and nothing else: each is a bit vector of the width that spec/00_scope.md
rule R8 gives it. -/

namespace Sys2Proof

/-- A 32-bit word: a command word (CMD_W, R63), a register of the read port (REG_W), a count or weight (CNT_W). -/
abbrev Word := BitVec 32

/-- An 8-bit byte: a byte operand, a header byte, an element of YOUT. -/
abbrev Byte := BitVec 8

/-- A 9-bit internal symbol id (SYM_W): literals 0..255, EOF 256, 0x1FF for an internal node (R12). -/
abbrev SymId := BitVec 9

/-- A 10-bit node-arena index (IDX_W). -/
abbrev NodeIdx := BitVec 10

/-- A 9-bit code length (LEN_W). -/
abbrev CodeLen := BitVec 9

/-- A 256-bit code pattern (PAT_W). -/
abbrev Pattern := BitVec 256

end Sys2Proof
end

