-- ==== Sys2Proof/Config.lean ====
section
/-! DEFINITION. The fixed values of spec/00_scope.md rule R8, the parameters an implementation sets, and the free values. -/

namespace Sys2Proof.Config

/-- NSYM, the entries of FREQ and of LUT: 256 literals and EOF (R8). -/
abbrev nSym : Nat := 257

/-- EOF_ID, the internal id of EOF_SYMBOL (R8, R12). -/
abbrev eofId : Nat := 256

/-- NAS_ID, the SYM field of every internal node (R8, R12). -/
abbrev nasId : SymId := 0x1FF#9

/-- MAX_LEAVES (R8). -/
abbrev maxLeaves : Nat := 257

/-- MAX_NODES, the entries of the node arena (R8, R24). -/
abbrev maxNodes : Nat := 513

/-- TOTAL_MAX, the largest legal sum of all counts (R8, R84). -/
abbrev totalMax : Nat := 2 ^ 32 - 1

/-- The value of the ID register, ASCII HUF1 (R36). -/
abbrev idValue : Word := 0x48554631#32

/-- The parameter of R8 a result depends on: HDR_EOF_SYM, the header's symbol value for EOF (R128, D15).  FIFO_DEPTH is the
other one; a model with unbounded streams ignores it (spec/93_implementation_defined.md I10; log entry 5). -/
structure Params where
  hdrEofSym : Word
  deriving DecidableEq, Repr

/-- The default of D15: HDR_EOF_SYM = -1. -/
def Params.default : Params := { hdrEofSym := 0xFFFFFFFF#32 }

/-- R128: HDR_EOF_SYM must be negative as a 32-bit two's-complement value. -/
abbrev Params.legal (p : Params) : Prop := p.hdrEofSym.msb = true

/-- FREE VALUE (R172, D36): what the read port returns while BUSY = 1, one value for each draw.  It has no body, so no proof can
know a value of it (log entry 4). -/
opaque busyRead : Nat → Word

end Sys2Proof.Config
end

