-- ==== Sys2Proof/Syntax.lean ====
section
/-! DEFINITION. The command set HUFCORE-CMD revision 1 (spec/30_encoding.md rule R69): one constructor per row of
spec/opcode_table.json, with its operand as spec/30_encoding.md rules R64 to R68 give it. -/

namespace Sys2Proof

/-- The 17 commands. -/
inductive Instr where
  /-- NOP, format N (R139) -/
  | nop
  /-- FM_CLEAR, format N (R82) -/
  | fmClear
  /-- FM_COUNT b, format B (R83) -/
  | fmCount (b : Byte)
  /-- FM_CLOSE, format N (R85) -/
  | fmClose
  /-- FM_QUERY s, format S (R86) -/
  | fmQuery (sym : SymId)
  /-- HDR_BEGIN, format N (R131) -/
  | hdrBegin
  /-- HDR_BYTE b, format B (R132) -/
  | hdrByte (b : Byte)
  /-- HDR_EMIT, format N (R130) -/
  | hdrEmit
  /-- TREE_BUILD, format N (R91) -/
  | treeBuild
  /-- LUT_QUERY s, format S (R106) -/
  | lutQuery (sym : SymId)
  /-- ENC_START, format N (R109) -/
  | encStart
  /-- ENC_SYM b, format B (R110) -/
  | encSym (b : Byte)
  /-- ENC_END, format N (R111) -/
  | encEnd
  /-- DEC_START, format N (R118) -/
  | decStart
  /-- DEC_BIT t, format T (R119) -/
  | decBit (t : Bool)
  /-- DEC_END, format N (R123) -/
  | decEnd
  /-- SOFT_RESET, format N (R140) -/
  | softReset
  deriving DecidableEq, Repr

/-- The four formats of a command word (R64 to R67). -/
inductive Format where
  | n | b | s | t
  deriving DecidableEq, Repr

end Sys2Proof
end

