-- ==== Sys2Proof/WellFormed.lean ====
section
/-! DEFINITION. Which terms of Instr are commands.  The operand types give every width; the one check left is the symbol range
of an S-format operand (spec/30_encoding.md rule R72). -/

namespace Sys2Proof

/-- R72: a symbol operand names a literal (0..255) or EOF (256). -/
abbrev SymId.inRange (sym : SymId) : Bool := decide (sym.toNat ≤ Config.eofId)

/-- A well-formed command. -/
def Instr.wf : Instr → Bool
  | .nop => true
  | .fmClear => true
  | .fmCount _ => true
  | .fmClose => true
  | .fmQuery sym => SymId.inRange sym
  | .hdrBegin => true
  | .hdrByte _ => true
  | .hdrEmit => true
  | .treeBuild => true
  | .lutQuery sym => SymId.inRange sym
  | .encStart => true
  | .encSym _ => true
  | .encEnd => true
  | .decStart => true
  | .decBit _ => true
  | .decEnd => true
  | .softReset => true

end Sys2Proof
end

