-- ==== Sys2Proof/Decode.lean ====
section
/-! DEFINITION. The decoder of command words (spec/30_encoding.md rules R63 to R73), total on every 32-bit word, and the
encoder of well-formed commands written from the same tables. -/

namespace Sys2Proof

/-- Why a word is no command.  All three raise ILLEGAL_CMD at dispatch (R70, R71, R72). -/
inductive DecodeReject where
  /-- R70: OPC is not in the opcode map -/
  | unassignedOpcode
  /-- R71: a reserved bit of the command's format is 1 -/
  | reservedBits
  /-- R72: an S-format SYM field holds 257..511 -/
  | symbolRange
  deriving DecidableEq, Repr

/-! ### Fields of a command word (R63, R68) -/

/-- OPC = cmd[7:0] -/
def opcField (w : Word) : Byte := w.extractLsb' 0 8

/-- BYTE = cmd[15:8] -/
def byteField (w : Word) : Byte := w.extractLsb' 8 8

/-- SYM = cmd[16:8] -/
def symField (w : Word) : SymId := w.extractLsb' 8 9

/-- BIT = cmd[8] -/
def bitField (w : Word) : Bool := w.getLsbD 8

/-- The format of each command (R69). -/
def Instr.format : Instr → Format
  | .nop => .n
  | .fmClear => .n
  | .fmCount _ => .b
  | .fmClose => .n
  | .fmQuery _ => .s
  | .hdrBegin => .n
  | .hdrByte _ => .b
  | .hdrEmit => .n
  | .treeBuild => .n
  | .lutQuery _ => .s
  | .encStart => .n
  | .encSym _ => .b
  | .encEnd => .n
  | .decStart => .n
  | .decBit _ => .t
  | .decEnd => .n
  | .softReset => .n

/-- The reserved bits of each format, as a mask (R64 to R67). -/
def Format.reserved : Format → Word
  | .n => 0xFFFFFF00#32
  | .b => 0xFFFF0000#32
  | .s => 0xFFFE0000#32
  | .t => 0xFFFFFE00#32

/-- The command an assigned opcode names, its operand taken from the word (R68, R69); none where OPC is unassigned (R70). -/
def opcodeInstr (w : Word) : Option Instr :=
  match (opcField w).toNat with
  | 0x00 => some .nop
  | 0x01 => some .fmClear
  | 0x02 => some (.fmCount (byteField w))
  | 0x03 => some .fmClose
  | 0x04 => some (.fmQuery (symField w))
  | 0x08 => some .hdrBegin
  | 0x09 => some (.hdrByte (byteField w))
  | 0x0A => some .hdrEmit
  | 0x10 => some .treeBuild
  | 0x11 => some (.lutQuery (symField w))
  | 0x18 => some .encStart
  | 0x19 => some (.encSym (byteField w))
  | 0x1A => some .encEnd
  | 0x20 => some .decStart
  | 0x21 => some (.decBit (bitField w))
  | 0x22 => some .decEnd
  | 0xFF => some .softReset
  | _ => none

/-- Decode one command word (R73: every word is one of the 17 commands or is rejected). -/
def decode (w : Word) : Except DecodeReject Instr :=
  match opcodeInstr w with
  | none => .error .unassignedOpcode
  | some i =>
    if w &&& i.format.reserved ≠ 0#32 then .error .reservedBits
    else if i.wf then .ok i
    else .error .symbolRange

/-! ### The encoder -/

/-- The opcode of each command (R69). -/
def Instr.opcode : Instr → Byte
  | .nop => 0x00#8
  | .fmClear => 0x01#8
  | .fmCount _ => 0x02#8
  | .fmClose => 0x03#8
  | .fmQuery _ => 0x04#8
  | .hdrBegin => 0x08#8
  | .hdrByte _ => 0x09#8
  | .hdrEmit => 0x0A#8
  | .treeBuild => 0x10#8
  | .lutQuery _ => 0x11#8
  | .encStart => 0x18#8
  | .encSym _ => 0x19#8
  | .encEnd => 0x1A#8
  | .decStart => 0x20#8
  | .decBit _ => 0x21#8
  | .decEnd => 0x22#8
  | .softReset => 0xFF#8

/-- Bits [31:8] of each command: its operand with reserved zeros above it (R64 to R67). -/
def Instr.operand : Instr → BitVec 24
  | .nop => 0#24
  | .fmClear => 0#24
  | .fmCount b => b.setWidth 24
  | .fmClose => 0#24
  | .fmQuery sym => sym.setWidth 24
  | .hdrBegin => 0#24
  | .hdrByte b => b.setWidth 24
  | .hdrEmit => 0#24
  | .treeBuild => 0#24
  | .lutQuery sym => sym.setWidth 24
  | .encStart => 0#24
  | .encSym b => b.setWidth 24
  | .encEnd => 0#24
  | .decStart => 0#24
  | .decBit t => (BitVec.ofBool t).setWidth 24
  | .decEnd => 0#24
  | .softReset => 0#24

/-- The command word: reserved zeros, operand, OPC (R79). -/
def encode (i : Instr) : Word := i.operand ++ i.opcode

/-- The instruction the decoder reads from a row of spec/opcode_table.json: every row is one 32-bit word (R63), so a number
that does not fit 32 bits is no command. -/
def decodeTableWord (nbits w : Nat) : Option Instr :=
  if nbits ≤ 32 ∧ w < 2 ^ 32 then
    match decode (BitVec.ofNat 32 w) with
    | .ok i => some i
    | .error _ => none
  else none

end Sys2Proof
end

