-- ==== Sys2Proof/Machine/State.lean ====
section
/-! DEFINITION. The state of HUFCORE as plain data: every element of spec/10_state.md rule R42, the parameter of R8, and the
host's side of the ports as data the step reads and writes.  Also the reasons a step can stop, and the state after reset. -/

namespace Sys2Proof.Machine

/-- The values of PHASE (R17); their 4-bit codes are Phase.code. -/
inductive Phase where
  | idle | counting | modelReady | hdrLoading | treeReady | encoding | decoding
  deriving DecidableEq, Repr

/-- The values of DSTATE (R18); their 2-bit codes are DState.code. -/
inductive DState where
  | atRoot | descending | done
  deriving DecidableEq, Repr

/-- The values of FAULT_CAUSE (R143); their 8-bit codes are Cause.code. -/
inductive Cause where
  | none | illegalCmd | seqError | emptyModel | tableMismatch | malformedStream | hdrMalformed | countOverflow
  deriving DecidableEq, Repr

/-- KIND of an arena entry (R24): 0 Leaf, 1 Internal. -/
inductive NodeKind where
  | leaf | internal
  deriving DecidableEq, Repr

/-- One entry of the NODE arena (R24). -/
structure NodeEntry where
  kind : NodeKind
  sym : SymId
  w : Word
  l : NodeIdx
  r : NodeIdx
  deriving DecidableEq, Repr

/-- The all-zero arena entry: the reset value, and what an unused entry holds (R24). -/
def NodeEntry.zero : NodeEntry := { kind := .leaf, sym := 0#9, w := 0#32, l := 0#10, r := 0#10 }

/-- One entry of the LUT (R28): LEN and PAT. -/
structure LutEntry where
  len : CodeLen
  pat : Pattern
  deriving DecidableEq, Repr

/-- The all-zero LUT entry: no code (R28). -/
def LutEntry.zero : LutEntry := { len := 0#9, pat := 0#256 }

/-- One entry of the traversal stack (R27). -/
structure StackEntry where
  idx : NodeIdx
  len : CodeLen
  pat : Pattern
  deriving DecidableEq, Repr

/-- The eight registers LUT_BITS_R0 .. LUT_BITS_R7 (R32). -/
structure LutBits where
  r0 : Word
  r1 : Word
  r2 : Word
  r3 : Word
  r4 : Word
  r5 : Word
  r6 : Word
  r7 : Word
  deriving DecidableEq, Repr

/-- All eight at 0 (R42). -/
def LutBits.zero : LutBits :=
  { r0 := 0#32, r1 := 0#32, r2 := 0#32, r3 := 0#32, r4 := 0#32, r5 := 0#32, r6 := 0#32, r7 := 0#32 }

/-- An internal memory (R46) as sparse data: pairs of index and entry, indices strictly rising, no entry equal to the memory's
zero entry, which is what an index that is not listed reads as (R42: every entry resets to zero; log entry 2). -/
abbrev Memory (α : Type) := List (Nat × α)

/-- One thing the host does at the ports (R5, R44, R163).  The step takes them one at a time, oldest first (log entry 3). -/
inductive HostEvent where
  /-- the host presents a word on the command port (R77) -/
  | command (w : Word)
  /-- the host reads a register (R38) -/
  | readReg (addr : Byte)
  /-- the host is ready for one BOUT bit (R44) -/
  | takeBit
  /-- the host is ready for one YOUT byte (R44) -/
  | takeByte
  /-- the rst input is 1 at a clock edge (R163) -/
  | rst
  deriving DecidableEq, Repr

/-- Why the MODEL stops where HUFCORE is in a state no run of it reaches.  The faults of the hardware (R143) are not these: they
are next states. -/
inductive Fault where
  /-- Raised by DEC_BIT when ROOT, DEC_NODE or a child index it must read is above 512: R46 says such an index is never formed, so
  the arena has no such entry.  SAFE: the model stops and claims nothing. -/
  | nodeIndexOutOfRange (index : Nat)
  /-- Raised by TREE_BUILD when no FREQ entry is nonzero although the phase allows it: R91 takes the only element of PQ and there is
  none (R23 rules the state out).  SAFE: the model stops and claims nothing. -/
  | noRootElement
  deriving DecidableEq, Repr

/-- Why an instruction has no meaning. -/
inductive Refusal where
  /-- An arm of exec that has no meaning yet, by its mnemonic.  No arm is left so.  SAFE: the model stops. -/
  | notModelled (mnemonic : String)
  deriving DecidableEq, Repr

/-- The state: R42's table in its order, then the parameter, then the host's side of the ports. -/
structure State where
  /-- PHASE, 4 bits (R17) -/
  phase : Phase
  /-- DSTATE, 2 bits (R18) -/
  dstate : DState
  /-- FREQ[0..256], 257 x 32 bits (R20) -/
  freq : Memory Word
  /-- NUM_SYMS (R21) -/
  numSyms : BitVec 9
  /-- TOTAL (R22) -/
  total : Word
  /-- NODE[0..512] (R24) -/
  node : Memory NodeEntry
  /-- NODE_COUNT (R25) -/
  nodeCount : BitVec 10
  /-- ROOT (R25) -/
  root : NodeIdx
  /-- ROOT_WEIGHT (R25) -/
  rootWeight : Word
  /-- The priority queue PQ, a set of arena indices held as a list without repeats (R26) -/
  pq : List NodeIdx
  /-- The traversal stack, top first (R27) -/
  travStack : List StackEntry
  /-- LUT[0..256] (R28) -/
  lut : Memory LutEntry
  /-- BITCOUNT (R29) -/
  bitCount : BitVec 64
  /-- The encoder shift register (R29, R112) -/
  encShift : Pattern
  /-- DEC_NODE (R30) -/
  decNode : NodeIdx
  /-- DECCOUNT (R30) -/
  decCount : BitVec 64
  /-- HP_BYTES (R31) -/
  hpBytes : BitVec 12
  /-- HP_N (R31) -/
  hpN : BitVec 16
  /-- HP_BUF (R31) -/
  hpBuf : BitVec 64
  /-- QCOUNT (R32) -/
  qCount : Word
  /-- LUT_LEN_R (R32) -/
  lutLenR : CodeLen
  /-- LUT_BITS_R0..7 (R32) -/
  lutBitsR : LutBits
  /-- FAULTED (R33) -/
  faulted : Bool
  /-- FAULT_CAUSE, 8 bits (R33) -/
  faultCause : Cause
  /-- FAULT_CMD (R33) -/
  faultCmd : Word
  /-- BUSY (R34) -/
  busy : Bool
  /-- BOUT: the bits emitted and not yet taken, front first (R35) -/
  bout : List Bool
  /-- YOUT: the bytes emitted and not yet taken, front first (R35) -/
  yout : List Byte
  /-- The parameter HDR_EOF_SYM (R8, R128): set once for the machine, written by nothing -/
  params : Config.Params
  /-- What the host will do at the ports, in order (MODEL's own field, log entry 3) -/
  hostIn : List HostEvent
  /-- The BOUT bits the host has taken since reset, in order (MODEL's own field, log entry 3) -/
  takenBits : List Bool
  /-- The YOUT bytes the host has taken since reset, in order (MODEL's own field, log entry 3) -/
  takenBytes : List Byte
  /-- The register reads the host has made since reset, address and data, in order (MODEL's own field, log entry 3) -/
  regReads : List (Byte × Word)
  /-- How many free values have been drawn (MODEL's own field, log entry 4) -/
  draws : Nat
  deriving DecidableEq, Repr

/-- R164: every element of R42 at the reset value listed there; the parameter at its default (D15); no event pending. -/
def State.reset : State where
  phase := .idle
  dstate := .atRoot
  freq := []
  numSyms := 0#9
  total := 0#32
  node := []
  nodeCount := 0#10
  root := 0#10
  rootWeight := 0#32
  pq := []
  travStack := []
  lut := []
  bitCount := 0#64
  encShift := 0#256
  decNode := 0#10
  decCount := 0#64
  hpBytes := 0#12
  hpN := 0#16
  hpBuf := 0#64
  qCount := 0#32
  lutLenR := 0#9
  lutBitsR := LutBits.zero
  faulted := false
  faultCause := .none
  faultCmd := 0#32
  busy := false
  bout := []
  yout := []
  params := Config.Params.default
  hostIn := []
  takenBits := []
  takenBytes := []
  regReads := []
  draws := 0

end Sys2Proof.Machine
end

