-- ==== Sys2Proof/Machine/Ops.lean ====
section
/-! DEFINITION. The operations the commands share: reads and writes of the internal memories (spec/20_memory.md R47), the two
streams (R35), fault entry (spec/60_exceptions.md R146), reset (spec/70_reset_and_hazards.md R164), ModelReset
(spec/40_frequency_model.md R81), and the dispatch around a command's own rule (spec/30_encoding.md R74 to R76). -/

namespace Sys2Proof.Machine

/-! ### Internal memories (R46, R47) -/

/-- MemRead(m, i); an index that is not listed reads as the zero entry z. -/
def Memory.read {α : Type} (z : α) : Memory α → Nat → α
  | [], _ => z
  | (k, v) :: m, i => if k = i then v else Memory.read z m i

/-- MemWrite(m, i, v), keeping the canonical form: writing the zero entry takes the index off the list. -/
def Memory.write {α : Type} [DecidableEq α] (z : α) : Memory α → Nat → α → Memory α
  | [], i, v => if v = z then [] else [(i, v)]
  | (k, u) :: m, i, v =>
    if i < k then (if v = z then (k, u) :: m else (i, v) :: (k, u) :: m)
    else if i = k then (if v = z then m else (i, v) :: m)
    else (k, u) :: Memory.write z m i v

/-- The indices of m rise strictly from lo, stay below n, and no entry is z. -/
def Memory.wfFrom {α : Type} [DecidableEq α] (z : α) (lo n : Nat) : Memory α → Bool
  | [] => true
  | (k, v) :: m => decide (lo ≤ k) && decide (k < n) && decide (v ≠ z) && Memory.wfFrom z (k + 1) n m

/-- The canonical form of a memory of n entries whose zero entry is z. -/
def Memory.wf {α : Type} [DecidableEq α] (z : α) (n : Nat) (m : Memory α) : Bool := Memory.wfFrom z 0 n m

/-- FREQ[s] -/
def State.freqAt (s : State) (i : Nat) : Word := Memory.read 0#32 s.freq i

/-- NODE[i] -/
def State.nodeAt (s : State) (i : Nat) : NodeEntry := Memory.read NodeEntry.zero s.node i

/-- LUT[s] -/
def State.lutAt (s : State) (i : Nat) : LutEntry := Memory.read LutEntry.zero s.lut i

/-- NODE[i] for an index held in a register or in a child field: R46 says the arena has entries 0..512 only. -/
def State.nodeChecked (s : State) (i : NodeIdx) : Except Fault NodeEntry :=
  if i.toNat < Config.maxNodes then .ok (s.nodeAt i.toNat) else .error (.nodeIndexOutOfRange i.toNat)

/-! ### Streams (R35, R59) -/

/-- emit_bit(b) -/
def State.emitBit (s : State) (b : Bool) : State := { s with bout := s.bout ++ [b] }

/-- emit_byte(v) for each byte of a list, in order -/
def State.emitBytes (s : State) (bs : List Byte) : State := { s with yout := s.yout ++ bs }

/-! ### Fault entry and reset -/

/-- R146: the fault state is written and nothing else is (R145).  There is no return but reset (R150), which is applyReset. -/
def State.enterFault (s : State) (c : Cause) (cmd : Word) : State :=
  { s with faulted := true, faultCause := c, faultCmd := cmd }

/-- R164: every element of R42 to its reset value.  The parameter is no state; the events the host has yet to present and the
count of free values drawn are not the block's (log entry 3). -/
def State.applyReset (s : State) : State :=
  { State.reset with params := s.params, hostIn := s.hostIn, draws := s.draws }

/-- R81 ModelReset: the model, the tree, the LUT and the header parser back to zero. -/
def State.modelReset (s : State) : State :=
  { s with
    freq := [], lut := [], numSyms := 0#9, total := 0#32
    node := [], nodeCount := 0#10, root := 0#10, rootWeight := 0#32
    hpBytes := 0#12, hpN := 0#16, hpBuf := 0#64 }

/-! ### Dispatch (R74 to R76) -/

/-- How a command's own rule ends. -/
inductive Effect where
  /-- all its writes and emissions are made -/
  | done (s : State)
  /-- raise Fault(c): none of them is (R145) -/
  | raise (c : Cause)
  /-- the model stops (Fault) -/
  | stop (f : Fault)
  deriving DecidableEq, Repr

/-- Every phase (R17). -/
def allPhases : List Phase := [.idle, .counting, .modelReady, .hdrLoading, .treeReady, .encoding, .decoding]

/-- The phases a command is legal in: the rows of R75. -/
def legalPhases : Instr → List Phase
  | .nop => allPhases
  | .softReset => allPhases
  | .fmClear => allPhases
  | .fmCount _ => [.counting]
  | .fmClose => [.counting]
  | .fmQuery _ => allPhases
  | .hdrBegin => allPhases
  | .hdrByte _ => [.hdrLoading]
  | .hdrEmit => [.modelReady, .treeReady]
  | .treeBuild => [.modelReady, .treeReady]
  | .lutQuery _ => [.treeReady, .encoding, .decoding]
  | .encStart => [.treeReady]
  | .encSym _ => [.encoding]
  | .encEnd => [.encoding]
  | .decStart => [.treeReady]
  | .decBit _ => [.decoding]
  | .decEnd => [.decoding]

/-- R75 -/
def legal (i : Instr) (p : Phase) : Bool := decide (p ∈ legalPhases i)

/-- The fault of a command that is not legal in the phase (R74, R76). -/
def phaseCause (i : Instr) (s : State) : Cause :=
  if i = .treeBuild ∧ s.numSyms = 0#9 then .emptyModel else .seqError

/-- R74 for a command other than SOFT_RESET, its own rule given: ignored while FAULTED = 1 (R147); then the operand check of R72,
then the phase check, then the rule.  A fault records the command's word, which is encode of the command: each word has one
meaning (R73). -/
def perform (i : Instr) (rule : State → Effect) (s : State) : Host.Outcome State Fault Refusal :=
  if s.faulted then .next s
  else if i.wf = false then .next (s.enterFault .illegalCmd (encode i))
  else if legal i s.phase = false then .next (s.enterFault (phaseCause i s) (encode i))
  else
    match rule s with
    | .done t => .next t
    | .raise c => .next (s.enterFault c (encode i))
    | .stop f => .fault f

end Sys2Proof.Machine
end

