-- ==== Sys2Proof/Machine/Control.lean ====
section
/-! DEFINITION. The control commands (spec/45_control.md). -/

namespace Sys2Proof.Machine

/-- NOP (R139): no state changes. -/
def execNop (s : State) : Host.Outcome State Fault Refusal :=
  perform .nop (fun s => .done s) s

/-- SOFT_RESET (R140): the reset of R164, in every phase and while FAULTED = 1. -/
def execSoftReset (s : State) : Host.Outcome State Fault Refusal :=
  .next s.applyReset

end Sys2Proof.Machine
end

