-- ==== Sys2Proof/Machine/Operands.lean ====
section
/-! DEFINITION. How operands and multi-byte fields become symbol ids, bits and bytes (spec/30_encoding.md R68,
spec/44_header.md R127 and R128, spec/42_encoder.md R116, spec/41_tree_codetable.md R106). -/

namespace Sys2Proof.Machine

/-- R68: a BYTE operand as a symbol id is zero-extended, so it always names a literal. -/
def literalSym (b : Byte) : SymId := b.setWidth 9

/-- R49, R127: a 32-bit field, most significant byte first. -/
def be32 (v : Word) : List Byte :=
  [v.extractLsb' 24 8, v.extractLsb' 16 8, v.extractLsb' 8 8, v.extractLsb' 0 8]

/-- R130: the record-count field, NUM_SYMS zero-extended to 16 bits, most significant byte first. -/
def be16 (v : BitVec 16) : List Byte := [v.extractLsb' 8 8, v.extractLsb' 0 8]

/-- R128: the SYMBOL field of symbol s. -/
def headerSym (p : Config.Params) (s : Nat) : Word := if s = Config.eofId then p.hdrEofSym else BitVec.ofNat 32 s

/-- R133: the symbol a SYMBOL field names; none where it names no symbol. -/
def recordSym (p : Config.Params) (v : Word) : Option Nat :=
  if v = p.hdrEofSym then some Config.eofId else if v.toNat ≤ 255 then some v.toNat else none

/-- R50, R116: the bits of a code, PAT[LEN-1] first and PAT[0] last. -/
def codeBits : Nat → Pattern → List Bool
  | 0, _ => []
  | k + 1, pat => pat.getLsbD k :: codeBits k pat

/-- R32, R106: LUT_BITS_Rk = PAT[32k+31:32k]. -/
def LutBits.ofPattern (pat : Pattern) : LutBits :=
  { r0 := pat.extractLsb' 0 32, r1 := pat.extractLsb' 32 32, r2 := pat.extractLsb' 64 32, r3 := pat.extractLsb' 96 32
    r4 := pat.extractLsb' 128 32, r5 := pat.extractLsb' 160 32, r6 := pat.extractLsb' 192 32, r7 := pat.extractLsb' 224 32 }

end Sys2Proof.Machine
end

