-- ==== Sys2Proof/Machine/Decoder.lean ====
section
/-! DEFINITION. The bit-serial decoder (spec/43_decoder.md). -/

namespace Sys2Proof.Machine

/-- DEC_START (R118) -/
def execDecStart (s : State) : Host.Outcome State Fault Refusal :=
  perform .decStart
    (fun s => .done { s with dstate := .atRoot, decNode := s.root, decCount := 0#64, phase := .decoding }) s

/-- R119, R120: the node one bit leads to: the root itself where the root is a leaf, else a child of DEC_NODE. -/
def decTarget (t : Bool) (s : State) : Except Fault NodeIdx :=
  match s.nodeChecked s.root with
  | .error f => .error f
  | .ok r =>
    match r.kind with
    | .leaf => .ok s.root
    | .internal =>
      match s.nodeChecked s.decNode with
      | .error f => .error f
      | .ok d => .ok (if t then d.r else d.l)

/-- R119: the decoder lands on arena entry n, which holds nd. -/
def decLand (n : NodeIdx) (nd : NodeEntry) (s : State) : State :=
  match nd.kind with
  | .leaf =>
    if nd.sym.toNat = Config.eofId then { s with decNode := n, dstate := .done }
    else
      { s.emitBytes [nd.sym.extractLsb' 0 8] with
        decCount := s.decCount + 1#64, decNode := s.root, dstate := .atRoot }
  | .internal => { s with decNode := n, dstate := .descending }

/-- The rule of DEC_BIT (R119 to R121). -/
def decBitRule (t : Bool) (s : State) : Effect :=
  if s.dstate = .done then .done s
  else
    match decTarget t s with
    | .error f => .stop f
    | .ok n =>
      match s.nodeChecked n with
      | .error f => .stop f
      | .ok nd => .done (decLand n nd s)

/-- DEC_BIT (R119) -/
def execDecBit (t : Bool) (s : State) : Host.Outcome State Fault Refusal :=
  perform (.decBit t) (decBitRule t) s

/-- The rule of DEC_END (R123). -/
def decEndRule (s : State) : Effect :=
  if s.dstate ≠ .done then .raise .malformedStream else .done { s with phase := .treeReady }

/-- DEC_END (R123) -/
def execDecEnd (s : State) : Host.Outcome State Fault Refusal :=
  perform .decEnd decEndRule s

end Sys2Proof.Machine
end

