-- ==== Sys2Proof/Machine/Encoder.lean ====
section
/-! DEFINITION. The bit-serial encoder (spec/42_encoder.md). -/

namespace Sys2Proof.Machine

/-- R112: k bits of the shift register onto BOUT, bit k-1 first and bit 0 last. -/
def shiftOut : Nat → State → State
  | 0, s => s
  | k + 1, s => shiftOut k (s.emitBit (s.encShift.getLsbD k))

/-- R110 to R112: a code is loaded into the shift register, shifted out, and counted.  Between commands the register holds 0
(R42). -/
def emitCode (e : LutEntry) (s : State) : State :=
  { shiftOut e.len.toNat { s with encShift := e.pat } with
    encShift := 0#256, bitCount := s.bitCount + e.len.setWidth 64 }

/-- ENC_START (R109) -/
def execEncStart (s : State) : Host.Outcome State Fault Refusal :=
  perform .encStart (fun s => .done { s with bitCount := 0#64, phase := .encoding }) s

/-- The rule of ENC_SYM (R110). -/
def encSymRule (b : Byte) (s : State) : Effect :=
  let e := s.lutAt (literalSym b).toNat
  if e.len = 0#9 then .raise .tableMismatch else .done (emitCode e s)

/-- ENC_SYM (R110) -/
def execEncSym (b : Byte) (s : State) : Host.Outcome State Fault Refusal :=
  perform (.encSym b) (encSymRule b) s

/-- ENC_END (R111) -/
def execEncEnd (s : State) : Host.Outcome State Fault Refusal :=
  perform .encEnd (fun s => .done { emitCode (s.lutAt Config.eofId) s with phase := .treeReady }) s

end Sys2Proof.Machine
end

