-- ==== Sys2Proof/Machine/Frequency.lean ====
section
/-! DEFINITION. The frequency counter (spec/40_frequency_model.md). -/

namespace Sys2Proof.Machine

/-- FM_CLEAR (R82) -/
def execFmClear (s : State) : Host.Outcome State Fault Refusal :=
  perform .fmClear (fun s => .done { s.modelReset with phase := .counting }) s

/-- The rule of FM_COUNT (R83, R84). -/
def fmCountRule (b : Byte) (s : State) : Effect :=
  let sym := (literalSym b).toNat
  if s.total = 0xFFFFFFFE#32 then .raise .countOverflow
  else
    .done { s with
      numSyms := if s.freqAt sym = 0#32 then s.numSyms + 1#9 else s.numSyms
      freq := Memory.write 0#32 s.freq sym (s.freqAt sym + 1#32)
      total := s.total + 1#32 }

/-- FM_COUNT (R83) -/
def execFmCount (b : Byte) (s : State) : Host.Outcome State Fault Refusal :=
  perform (.fmCount b) (fmCountRule b) s

/-- The rule of FM_CLOSE (R85). -/
def fmCloseRule (s : State) : Effect :=
  .done { s with
    freq := Memory.write 0#32 s.freq Config.eofId 1#32
    numSyms := s.numSyms + 1#9
    total := s.total + 1#32
    phase := .modelReady }

/-- FM_CLOSE (R85) -/
def execFmClose (s : State) : Host.Outcome State Fault Refusal :=
  perform .fmClose fmCloseRule s

/-- FM_QUERY (R86) -/
def execFmQuery (sym : SymId) (s : State) : Host.Outcome State Fault Refusal :=
  perform (.fmQuery sym) (fun s => .done { s with qCount := s.freqAt sym.toNat }) s

end Sys2Proof.Machine
end

