-- ==== Sys2Proof/Machine/Header.lean ====
section
/-! DEFINITION. The frequency-model serializer and deserializer (spec/44_header.md). -/

namespace Sys2Proof.Machine

/-- R130: the eight bytes of the record of symbol s, none where the symbol is absent. -/
def recordBytes (p : Config.Params) (freq : Memory Word) (s : Nat) : List Byte :=
  if Memory.read 0#32 freq s = 0#32 then [] else be32 (headerSym p s) ++ be32 (Memory.read 0#32 freq s)

/-- R130: the whole header, records in ascending symbol id (R129). -/
def headerBytes (p : Config.Params) (numSyms : BitVec 9) (freq : Memory Word) : List Byte :=
  be16 (numSyms.setWidth 16) ++ (List.range Config.nSym).flatMap (recordBytes p freq)

/-- HDR_EMIT (R130) -/
def execHdrEmit (s : State) : Host.Outcome State Fault Refusal :=
  perform .hdrEmit (fun s => .done (s.emitBytes (headerBytes s.params s.numSyms s.freq))) s

/-- HDR_BEGIN (R131) -/
def execHdrBegin (s : State) : Host.Outcome State Fault Refusal :=
  perform .hdrBegin (fun s => .done { s.modelReset with phase := .hdrLoading }) s

/-- ProcessRecord(v, c, j) (R133 to R135), its checks in the order of R136. -/
def processRecord (v c : Word) (j : Nat) (s : State) : Effect :=
  match recordSym s.params v with
  | none => .raise .hdrMalformed
  | some sym =>
    if c = 0#32 then .raise .hdrMalformed
    else if s.freqAt sym ≠ 0#32 then .raise .hdrMalformed
    else if s.total.toNat + c.toNat > Config.totalMax then .raise .countOverflow
    else
      let t : State := { s with
        freq := Memory.write 0#32 s.freq sym c, numSyms := s.numSyms + 1#9, total := s.total + c }
      if j + 1 = s.hpN.toNat then
        if t.freqAt Config.eofId = 0#32 then .raise .hdrMalformed else .done { t with phase := .modelReady }
      else .done t

/-- The rule of HDR_BYTE (R132). -/
def hdrByteRule (b : Byte) (s : State) : Effect :=
  let k := s.hpBytes.toNat
  if k < 2 then
    let nn : BitVec 16 := s.hpN.extractLsb' 0 8 ++ b
    if k = 1 ∧ (nn = 0#16 ∨ nn.toNat > Config.nSym) then .raise .hdrMalformed
    else .done { s with hpN := nn, hpBytes := s.hpBytes + 1#12 }
  else
    let buf : BitVec 64 := s.hpBuf.extractLsb' 0 56 ++ b
    let t : State := { s with hpBuf := buf, hpBytes := s.hpBytes + 1#12 }
    if (k - 2) % 8 = 7 then processRecord (buf.extractLsb' 32 32) (buf.extractLsb' 0 32) ((k - 2) / 8) t
    else .done t

/-- HDR_BYTE (R132) -/
def execHdrByte (b : Byte) (s : State) : Host.Outcome State Fault Refusal :=
  perform (.hdrByte b) (hdrByteRule b) s

end Sys2Proof.Machine
end

