-- ==== Sys2Proof/Machine/Tree.lean ====
section
/-! DEFINITION. The tree builder and the CodeTable LUT (spec/41_tree_codetable.md). -/

namespace Sys2Proof.Machine

/-- What TREE_BUILD works on until the root is known: the arena, the queue PQ, and n, the next free arena index (R91). -/
structure TreeBuild where
  node : Memory NodeEntry
  pq : List NodeIdx
  n : Nat
  deriving DecidableEq, Repr

/-- The weight of an arena entry. -/
def weightOf (node : Memory NodeEntry) (i : NodeIdx) : Word := (Memory.read NodeEntry.zero node i.toNat).w

/-- R93: key (W, index) of i is below that of j. -/
def keyLt (node : Memory NodeEntry) (i j : NodeIdx) : Bool :=
  decide (weightOf node i < weightOf node j) || (decide (weightOf node i = weightOf node j) && decide (i < j))

/-- The element of least key among best and the list. -/
def leastKey (node : Memory NodeEntry) (best : NodeIdx) : List NodeIdx → NodeIdx
  | [] => best
  | i :: rest => leastKey node (if keyLt node i best then i else best) rest

/-- R94 popmin(PQ): the element of least key, and PQ without it; none when PQ is empty. -/
def popMin (node : Memory NodeEntry) : List NodeIdx → Option (NodeIdx × List NodeIdx)
  | [] => none
  | i :: rest => some (leastKey node i rest, (i :: rest).erase (leastKey node i rest))

/-- R92: the leaf of symbol s, where the symbol is present. -/
def insertLeaf (freq : Memory Word) (b : TreeBuild) (s : Nat) : TreeBuild :=
  if Memory.read 0#32 freq s = 0#32 then b
  else
    { node := Memory.write NodeEntry.zero b.node b.n
        { kind := .leaf, sym := BitVec.ofNat 9 s, w := Memory.read 0#32 freq s, l := 0#10, r := 0#10 }
      pq := b.pq ++ [BitVec.ofNat 10 b.n]
      n := b.n + 1 }

/-- R92: one leaf per model entry, in ascending symbol id, into a cleared arena. -/
def insertLeaves (freq : Memory Word) : TreeBuild :=
  (List.range Config.nSym).foldl (insertLeaf freq) { node := [], pq := [], n := 0 }

/-- R96: pop two nodes and push their parent, the first popped its 0-branch. -/
def mergeOnce (b : TreeBuild) : TreeBuild :=
  match popMin b.node b.pq with
  | none => b
  | some (a, pq1) =>
    match popMin b.node pq1 with
    | none => b
    | some (c, pq2) =>
      { node := Memory.write NodeEntry.zero b.node b.n
          { kind := .internal, sym := Config.nasId, w := weightOf b.node a + weightOf b.node c, l := a, r := c }
        pq := pq2 ++ [BitVec.ofNat 10 b.n]
        n := b.n + 1 }

/-- R96: while |PQ| > 1.  Each merge takes one element off PQ, so 256 rounds are enough for 257 leaves. -/
def mergeAll : Nat → TreeBuild → TreeBuild
  | 0, b => b
  | k + 1, b => if b.pq.length > 1 then mergeAll k (mergeOnce b) else b

/-- R91 up to the root: the arena and the queue with the root left in it, a function of FREQ alone (R104). -/
def buildTree (freq : Memory Word) : TreeBuild := mergeAll (Config.maxLeaves - 1) (insertLeaves freq)

/-- The while loop of DeriveLUT (R99), 0-branch first.  Each round visits one arena entry, so 513 rounds are enough. -/
def deriveLoop (node : Memory NodeEntry) : Nat → List StackEntry → Memory LutEntry → List StackEntry × Memory LutEntry
  | 0, stack, lut => (stack, lut)
  | _ + 1, [], lut => ([], lut)
  | k + 1, e :: stack, lut =>
    let nd := Memory.read NodeEntry.zero node e.idx.toNat
    match nd.kind with
    | .leaf => deriveLoop node k stack (Memory.write LutEntry.zero lut nd.sym.toNat { len := e.len, pat := e.pat })
    | .internal =>
      deriveLoop node k
        ({ idx := nd.l, len := e.len + 1#9, pat := e.pat <<< 1 }
          :: { idx := nd.r, len := e.len + 1#9, pat := (e.pat <<< 1) ||| 1#256 } :: stack) lut

/-- R99 DeriveLUT into a cleared LUT: what is left of the stack, and the LUT. -/
def deriveLut (node : Memory NodeEntry) (root : NodeIdx) : List StackEntry × Memory LutEntry :=
  let r := Memory.read NodeEntry.zero node root.toNat
  match r.kind with
  | .leaf => ([], Memory.write LutEntry.zero [] r.sym.toNat { len := 1#9, pat := 0#256 })
  | .internal => deriveLoop node Config.maxNodes [{ idx := root, len := 0#9, pat := 0#256 }] []

/-- The rule of TREE_BUILD (R91). -/
def treeBuildRule (s : State) : Effect :=
  let b := buildTree s.freq
  match b.pq with
  | [root] =>
    .done { s with
      node := b.node
      root := root
      pq := []
      nodeCount := BitVec.ofNat 10 b.n
      rootWeight := weightOf b.node root
      travStack := (deriveLut b.node root).1
      lut := (deriveLut b.node root).2
      phase := .treeReady }
  | _ => .stop .noRootElement

/-- TREE_BUILD (R91) -/
def execTreeBuild (s : State) : Host.Outcome State Fault Refusal :=
  perform .treeBuild treeBuildRule s

/-- LUT_QUERY (R106) -/
def execLutQuery (sym : SymId) (s : State) : Host.Outcome State Fault Refusal :=
  perform (.lutQuery sym)
    (fun s => .done { s with
      lutLenR := (s.lutAt sym.toNat).len
      lutBitsR := LutBits.ofPattern (s.lutAt sym.toNat).pat }) s

end Sys2Proof.Machine
end

