-- ==== Sys2Proof/Machine/Dispatch.lean ====
section
/-! DEFINITION. One arm per command, each one call of its meaning. -/

namespace Sys2Proof.Machine

def exec (i : Instr) (s : State) : Host.Outcome State Fault Refusal :=
  match i with
  | .nop => Sys2Proof.Machine.execNop s
  | .fmClear => Sys2Proof.Machine.execFmClear s
  | .fmCount b => Sys2Proof.Machine.execFmCount b s
  | .fmClose => Sys2Proof.Machine.execFmClose s
  | .fmQuery sym => Sys2Proof.Machine.execFmQuery sym s
  | .hdrBegin => Sys2Proof.Machine.execHdrBegin s
  | .hdrByte b => Sys2Proof.Machine.execHdrByte b s
  | .hdrEmit => Sys2Proof.Machine.execHdrEmit s
  | .treeBuild => Sys2Proof.Machine.execTreeBuild s
  | .lutQuery sym => Sys2Proof.Machine.execLutQuery sym s
  | .encStart => Sys2Proof.Machine.execEncStart s
  | .encSym b => Sys2Proof.Machine.execEncSym b s
  | .encEnd => Sys2Proof.Machine.execEncEnd s
  | .decStart => Sys2Proof.Machine.execDecStart s
  | .decBit t => Sys2Proof.Machine.execDecBit t s
  | .decEnd => Sys2Proof.Machine.execDecEnd s
  | .softReset => Sys2Proof.Machine.execSoftReset s

end Sys2Proof.Machine
end

