-- ==== Sys2Proof/Machine/Flags.lean ====
section
/-! DEFINITION. The codes of the control registers and every flag computation of the spec: STATUS (spec/10_state.md R39),
ROOT_IS_LEAF (R37), HDR_POS (R40), and the output levels irq, cmd_ready, bout_valid, yout_valid (R44, spec/60_exceptions.md R154,
spec/70_reset_and_hazards.md R163). -/

namespace Sys2Proof.Machine

/-- R17 -/
def Phase.code : Phase → BitVec 4
  | .idle => 0#4
  | .counting => 1#4
  | .modelReady => 2#4
  | .hdrLoading => 3#4
  | .treeReady => 4#4
  | .encoding => 5#4
  | .decoding => 6#4

/-- R18 -/
def DState.code : DState → BitVec 2
  | .atRoot => 0#2
  | .descending => 1#2
  | .done => 2#2

/-- R143 -/
def Cause.code : Cause → BitVec 8
  | .none => 0x00#8
  | .illegalCmd => 0x01#8
  | .seqError => 0x02#8
  | .emptyModel => 0x03#8
  | .tableMismatch => 0x04#8
  | .malformedStream => 0x05#8
  | .hdrMalformed => 0x06#8
  | .countOverflow => 0x07#8

/-- R24: the KIND bit. -/
def NodeKind.code : NodeKind → BitVec 1
  | .leaf => 0#1
  | .internal => 1#1

/-- R43: the phases in which the arena and the LUT describe the tree of the current model. -/
def Phase.treeValid : Phase → Bool
  | .idle => false
  | .counting => false
  | .modelReady => false
  | .hdrLoading => false
  | .treeReady => true
  | .encoding => true
  | .decoding => true

/-- R37: ROOT_IS_LEAF, not stored. -/
def State.rootIsLeaf (s : State) : Bool := s.phase.treeValid && decide ((s.nodeAt s.root.toNat).kind = .leaf)

/-- R39: STATUS, fields from the most significant down. -/
def State.status (s : State) : Word :=
  0#15 ++ BitVec.ofBool s.rootIsLeaf ++ s.faultCause.code ++ s.dstate.code ++ BitVec.ofBool s.faulted
    ++ BitVec.ofBool s.busy ++ s.phase.code

/-- R40: HDR_POS. -/
def State.hdrPos (s : State) : Word := s.hpN ++ (0#4 ++ s.hpBytes)

/-- R154: irq is a level equal to FAULTED. -/
def State.irq (s : State) : Bool := s.faulted

/-- The rst input in the cycle that comes: 1 where the host's next action is rst (R44, R163, log entry 12). -/
def State.rstIn (s : State) : Bool :=
  match s.hostIn with
  | .rst :: _ => true
  | _ => false

/-- R44, R77: cmd_ready = NOT BUSY; R163: it is 0 while rst = 1. -/
def State.cmdReady (s : State) : Bool := !s.rstIn && !s.busy

/-- R44: a BOUT bit is available; R163: 0 while rst = 1. -/
def State.boutValid (s : State) : Bool := !s.rstIn && !s.bout.isEmpty

/-- R44: a YOUT byte is available; R163: 0 while rst = 1. -/
def State.youtValid (s : State) : Bool := !s.rstIn && !s.yout.isEmpty

end Sys2Proof.Machine
end

