-- ==== Sys2Proof/Machine/Registers.lean ====
section
/-! DEFINITION. The register read port (spec/10_state.md R38 to R41, spec/70_reset_and_hazards.md R172). -/

namespace Sys2Proof.Machine

/-- R38, R41: the value at an 8-bit address when BUSY = 0; bits [1:0] of the address are ignored, 0x60..0xFF reads 0. -/
def State.regRead (s : State) (addr : Byte) : Word :=
  match addr.toNat / 4 with
  | 0 => s.status
  | 1 => s.faultCmd
  | 2 => s.numSyms.setWidth 32
  | 3 => s.total
  | 4 => s.qCount
  | 5 => s.nodeCount.setWidth 32
  | 6 => s.root.setWidth 32
  | 7 => s.rootWeight
  | 8 => s.lutLenR.setWidth 32
  | 9 => s.bitCount.extractLsb' 0 32
  | 10 => s.bitCount.extractLsb' 32 32
  | 11 => s.decCount.extractLsb' 0 32
  | 12 => s.decCount.extractLsb' 32 32
  | 13 => s.decNode.setWidth 32
  | 14 => s.hdrPos
  | 15 => Config.idValue
  | 16 => s.lutBitsR.r0
  | 17 => s.lutBitsR.r1
  | 18 => s.lutBitsR.r2
  | 19 => s.lutBitsR.r3
  | 20 => s.lutBitsR.r4
  | 21 => s.lutBitsR.r5
  | 22 => s.lutBitsR.r6
  | 23 => s.lutBitsR.r7
  | _ => 0#32

/-- R172: while BUSY = 1 every register but STATUS[4] reads a free value, STATUS[4] reads 1, and where there is no register the
port still reads 0 (R41). -/
def State.busyRead (s : State) (addr : Byte) : Word :=
  if addr.toNat / 4 ≥ 24 then 0#32
  else if addr.toNat / 4 = 0 then Config.busyRead s.draws ||| 0x10#32
  else Config.busyRead s.draws

/-- reg_rdata for reg_addr (R44). -/
def State.portRead (s : State) (addr : Byte) : Word := if s.busy then s.busyRead addr else s.regRead addr

end Sys2Proof.Machine
end

