-- ==== Sys2Proof/Machine/Port.lean ====
section
/-! DEFINITION. What happens at the ports: a command word accepted (spec/30_encoding.md R74, R77), a register read, a stream
element taken, the rst input (spec/10_state.md R44, spec/70_reset_and_hazards.md R163). -/

namespace Sys2Proof.Machine

/-- R74: one accepted command word.  A word that is no command raises ILLEGAL_CMD, or is ignored while FAULTED = 1 (R147). -/
def acceptWord (w : Word) (s : State) : Host.Outcome State Fault Refusal :=
  match decode w with
  | .ok i => exec i s
  | .error _ => if s.faulted then .next s else .next (s.enterFault .illegalCmd w)

/-- R56: the host takes the front bit of BOUT. -/
def takeBit (s : State) : State :=
  match s.bout with
  | [] => s
  | b :: rest => { s with bout := rest, takenBits := s.takenBits ++ [b] }

/-- R56: the host takes the front byte of YOUT. -/
def takeByte (s : State) : State :=
  match s.yout with
  | [] => s
  | b :: rest => { s with yout := rest, takenBytes := s.takenBytes ++ [b] }

/-- R41, R56: a register read changes no state of the block; the host has the data.  A read made while BUSY = 1 draws a free
value. -/
def readRegister (addr : Byte) (s : State) : State :=
  { s with
    regReads := s.regReads ++ [(addr, s.portRead addr)]
    draws := if s.busy then s.draws + 1 else s.draws }

/-- The host event e in state s, with t the state once e is off the list of those to come.  A command presented while
cmd_ready = 0 is not accepted: the host holds it (R77, R171).  An element is taken where its valid output is 1 (R44). -/
def hostStep (e : HostEvent) (s t : State) : Host.Outcome State Fault Refusal :=
  match e with
  | .command w => if s.cmdReady then acceptWord w t else .next s
  | .readReg addr => .next (readRegister addr t)
  | .takeBit => .next (if s.boutValid then takeBit t else t)
  | .takeByte => .next (if s.youtValid then takeByte t else t)
  | .rst => .next t.applyReset

/-- The next event of the host and the state without it; with none the block holds its state (R161). -/
def nextEvent (s : State) : Option (HostEvent × State) :=
  match s.hostIn with
  | [] => none
  | e :: rest => some (e, { s with hostIn := rest })

/-- A command word presented next, before all the host has yet to do. -/
def presentNext (w : Word) (s : State) : State := { s with hostIn := .command w :: s.hostIn }

end Sys2Proof.Machine
end

