-- ==== Sys2Proof/Machine/Step.lean ====
section
/-! DEFINITION. One step: the next host event, or none (spec/00_scope.md R5, spec/10_state.md R16). -/

namespace Sys2Proof.Machine

/-- One step of the machine.  Every command is one atomic step (R34, R55, D2). -/
def step (s : State) : Host.Outcome State Fault Refusal :=
  match nextEvent s with
  | none => .next s
  | some (e, t) => hostStep e s t

/-- The state in which the very next step accepts the command word w: HUFCORE fetches nothing, its next command is the next word
the host presents (R16, R61), and every command is one 32-bit word (R63). -/
def State.withFetchWord (s : State) (_nbits w : Nat) : State := presentNext (BitVec.ofNat 32 w) s

end Sys2Proof.Machine
end

