-- ==== Sys2Proof/Machine/Sequences.lean ====
section
/-! DEFINITION. Sequences of commands: the pseudo-commands (spec/30_encoding.md R80), the compression and decompression sequences
(spec/70_reset_and_hazards.md R169, R170), running a sequence, and the observation of a run (spec/00_scope.md R6, R179). -/

namespace Sys2Proof.Machine

/-- FM_BYTES (R80) -/
def fmBytes (bs : List Byte) : List Instr := bs.map .fmCount

/-- ENC_BYTES (R80) -/
def encBytes (bs : List Byte) : List Instr := bs.map .encSym

/-- DEC_BITS (R80) -/
def decBits (ts : List Bool) : List Instr := ts.map .decBit

/-- HDR_BYTES (R80) -/
def hdrBytes (bs : List Byte) : List Instr := bs.map .hdrByte

/-- The commands that count the bytes of a source and close the model (R87). -/
def buildModel (bs : List Byte) : List Instr := .fmClear :: fmBytes bs ++ [.fmClose]

/-- The commands that encode bytes with the tree at hand (R116). -/
def encodeBytes (bs : List Byte) : List Instr := .encStart :: encBytes bs ++ [.encEnd]

/-- The commands that decode a body with the tree at hand (R124). -/
def decodeBits (ts : List Bool) : List Instr := .decStart :: decBits ts ++ [.decEnd]

/-- R169: the compression sequence. -/
def compressSequence (bs : List Byte) : List Instr :=
  buildModel bs ++ [.hdrEmit, .treeBuild] ++ encodeBytes bs

/-- R170: the decompression sequence. -/
def decompressSequence (header : List Byte) (body : List Bool) : List Instr :=
  .hdrBegin :: hdrBytes header ++ [.treeBuild] ++ decodeBits body

/-- Commands executed one after another (R58), stopping where the model stops. -/
def runCommands : List Instr → State → Host.Outcome State Fault Refusal
  | [], s => .next s
  | i :: rest, s =>
    match exec i s with
    | .next t => runCommands rest t
    | .fault f => .fault f
    | .refused r => .refused r

/-- The state in which the host has a sequence of commands to present. -/
def present (is : List Instr) (s : State) : State := { s with hostIn := is.map (fun i => .command (encode i)) }

/-- R6: what the host can observe after the last command: every register (each of the 64 word slots), all elements emitted on each
stream since reset, taken or not (R179), and irq. -/
structure Observation where
  regs : List Word
  bits : List Bool
  bytes : List Byte
  irq : Bool
  deriving DecidableEq, Repr

/-- The observation of a state (R6, R179), made while BUSY = 0. -/
def State.observe (s : State) : Observation where
  regs := (List.range 64).map (fun k => s.portRead (BitVec.ofNat 8 (4 * k)))
  bits := s.takenBits ++ s.bout
  bytes := s.takenBytes ++ s.yout
  irq := s.irq

end Sys2Proof.Machine
end

