-- ==== Sys2Proof/Safety.lean ====
section
/-! DEFINITION. What a good state is, in the terms the statements use: the invariant Inv that every step keeps, piece by piece, and
the reset values of R42 field by field. -/

namespace Sys2Proof.Machine

/-- The symbols with a nonzero count, ascending (R21, R92). -/
def presentSyms (freq : Memory Word) : List Nat :=
  (List.range Config.nSym).filter (fun i => decide (Memory.read 0#32 freq i ≠ 0#32))

/-- The sum of all counts, computed without wrapping (R22). -/
def sumCounts (freq : Memory Word) : Nat :=
  ((List.range Config.nSym).map (fun i => (Memory.read 0#32 freq i).toNat)).sum

/-- The code of a symbol in a LUT, first bit first (R50, R116). -/
def codeOf (lut : Memory LutEntry) (sym : Nat) : List Bool :=
  codeBits (Memory.read LutEntry.zero lut sym).len.toNat (Memory.read LutEntry.zero lut sym).pat

/-- R93: entry i comes before entry j in the queue: its key (W, index) is the lesser. -/
def KeyBefore (node : Memory NodeEntry) (i j : Nat) : Prop :=
  (Memory.read NodeEntry.zero node i).w.toNat < (Memory.read NodeEntry.zero node j).w.toNat
    ∨ ((Memory.read NodeEntry.zero node i).w = (Memory.read NodeEntry.zero node j).w ∧ i < j)

/-- R92, R96: entry j waits in the queue when entry k is created, after n leaves: it is earlier than k, and no merge before k took it
as a child. -/
def Waiting (node : Memory NodeEntry) (n k j : Nat) : Prop :=
  j < k ∧ ∀ m, n ≤ m → m < k →
    (Memory.read NodeEntry.zero node m).l.toNat ≠ j ∧ (Memory.read NodeEntry.zero node m).r.toNat ≠ j

/-- R46: the memories are in canonical form, so no index is outside its memory. -/
structure State.MemoryOk (s : State) : Prop where
  freq : Memory.wf 0#32 Config.nSym s.freq = true
  node : Memory.wf NodeEntry.zero Config.maxNodes s.node = true
  lut : Memory.wf LutEntry.zero Config.nSym s.lut = true

/-- R26, R27, R29, R34: what exists only while a command executes is at rest between commands. -/
structure State.Quiet (s : State) : Prop where
  pq : s.pq = []
  travStack : s.travStack = []
  encShift : s.encShift = 0#256
  busy : s.busy = false

/-- R33: FAULT_CAUSE and FAULT_CMD are 0 when FAULTED = 0, and a fault has a cause. -/
structure State.FaultRegsOk (s : State) : Prop where
  clear : s.faulted = false → s.faultCause = .none ∧ s.faultCmd = 0#32
  set : s.faulted = true → s.faultCause ≠ .none

/-- R20 to R23, R84: NUM_SYMS and TOTAL count FREQ; EOF is absent while the model is open and present once it is closed. -/
structure State.ModelOk (s : State) : Prop where
  numSyms : s.numSyms.toNat = (presentSyms s.freq).length
  total : s.total.toNat = sumCounts s.freq
  idle : s.phase = .idle → s.freq = []
  counting : s.phase = .counting → s.freqAt Config.eofId = 0#32 ∧ s.total.toNat ≤ 2 ^ 32 - 2
  closed : s.phase = .modelReady ∨ s.phase.treeValid = true → s.freqAt Config.eofId ≠ 0#32

/-- R31, R132 to R135: the parser's position while a header is received. -/
structure State.HeaderOk (s : State) : Prop where
  first : s.phase = .hdrLoading → s.hpBytes.toNat = 0 → s.hpN = 0#16
  second : s.phase = .hdrLoading → s.hpBytes.toNat < 2 → s.freq = []
  records : s.phase = .hdrLoading → 2 ≤ s.hpBytes.toNat →
    1 ≤ s.hpN.toNat ∧ s.hpN.toNat ≤ Config.nSym ∧ s.hpBytes.toNat < 2 + 8 * s.hpN.toNat
      ∧ s.numSyms.toNat = (s.hpBytes.toNat - 2) / 8

/-- R43: the arena and the LUT describe the tree of the current model in the phases in which they are valid, and are zero in the
others. -/
structure State.TreeOk (s : State) : Prop where
  valid : s.phase.treeValid = true →
    (buildTree s.freq).pq = [s.root] ∧ s.node = (buildTree s.freq).node
      ∧ s.nodeCount = BitVec.ofNat 10 (buildTree s.freq).n ∧ s.rootWeight = weightOf s.node s.root
      ∧ s.lut = (deriveLut s.node s.root).2
  cleared : s.phase.treeValid = false →
    s.node = [] ∧ s.nodeCount = 0#10 ∧ s.root = 0#10 ∧ s.rootWeight = 0#32 ∧ s.lut = []

/-- R117: where DEC_NODE is in each state of the decoder. -/
structure State.DecoderOk (s : State) : Prop where
  atRoot : s.phase = .decoding → s.dstate = .atRoot → s.decNode = s.root
  descending : s.phase = .decoding → s.dstate = .descending →
    s.decNode < s.nodeCount ∧ s.decNode ≠ s.root ∧ (s.nodeAt s.decNode.toNat).kind = .internal
  done : s.phase = .decoding → s.dstate = .done →
    s.decNode < s.nodeCount ∧ (s.nodeAt s.decNode.toNat).kind = .leaf
      ∧ (s.nodeAt s.decNode.toNat).sym.toNat = Config.eofId

/-- The invariant: it holds at reset and every step keeps it. -/
structure State.Inv (s : State) : Prop where
  params : s.params.legal
  memory : s.MemoryOk
  quiet : s.Quiet
  faultRegs : s.FaultRegsOk
  model : s.ModelOk
  header : s.HeaderOk
  tree : s.TreeOk
  decoder : s.DecoderOk

/-- R42, R164: every element of the state summary at its reset value. -/
structure State.AtReset (s : State) : Prop where
  phase : s.phase = .idle
  dstate : s.dstate = .atRoot
  freq : ∀ i, s.freqAt i = 0#32
  numSyms : s.numSyms = 0#9
  total : s.total = 0#32
  node : ∀ i, s.nodeAt i = { kind := .leaf, sym := 0#9, w := 0#32, l := 0#10, r := 0#10 }
  nodeCount : s.nodeCount = 0#10
  root : s.root = 0#10
  rootWeight : s.rootWeight = 0#32
  pq : s.pq = []
  travStack : s.travStack = []
  lut : ∀ i, s.lutAt i = { len := 0#9, pat := 0#256 }
  bitCount : s.bitCount = 0#64
  encShift : s.encShift = 0#256
  decNode : s.decNode = 0#10
  decCount : s.decCount = 0#64
  hpBytes : s.hpBytes = 0#12
  hpN : s.hpN = 0#16
  hpBuf : s.hpBuf = 0#64
  qCount : s.qCount = 0#32
  lutLenR : s.lutLenR = 0#9
  lutBitsR : s.lutBitsR =
    { r0 := 0#32, r1 := 0#32, r2 := 0#32, r3 := 0#32, r4 := 0#32, r5 := 0#32, r6 := 0#32, r7 := 0#32 }
  faulted : s.faulted = false
  faultCause : s.faultCause = .none
  faultCmd : s.faultCmd = 0#32
  busy : s.busy = false
  bout : s.bout = []
  yout : s.yout = []

end Sys2Proof.Machine
end

