-- ==== Sys2Proof/Certificates/Slice0/Obligations.lean ====
section
/-! DEFINITION. The statements for the provers, each with the rule of the spec it formalises.  exec i s answers .next t says that the
command completes: no hypothesis of a completion statement is about anything but the state and the operands. -/

open Sys2Proof Sys2Proof.Machine

/-! ### Encoding (spec/30_encoding.md) -/

/-- R73, R63 to R69: the decoder gives back every well-formed command from its word, whatever its operand. -/
def Obligations.DecodeInvertsEncode : Prop :=
  ∀ i : Instr, i.wf = true → decode (encode i) = .ok i

/-- R73: a word the decoder accepts has one meaning, and no bit of it is dropped: it is the encoding of the command. -/
def Obligations.AcceptedWordIsItsEncoding : Prop :=
  ∀ (w : Word) (i : Instr), decode w = .ok i → i.wf = true ∧ encode i = w

/-- R70, R71, R72: an unassigned opcode, a reserved bit set, or an S-format symbol above 256 raises ILLEGAL_CMD. -/
def Obligations.IllegalWordsRaiseIllegalCmd : Prop :=
  ∀ (w : Word) (s : State), s.faulted = false →
    (w.extractLsb' 0 8 ∉ [0x00#8, 0x01#8, 0x02#8, 0x03#8, 0x04#8, 0x08#8, 0x09#8, 0x0A#8, 0x10#8, 0x11#8, 0x18#8, 0x19#8,
        0x1A#8, 0x20#8, 0x21#8, 0x22#8, 0xFF#8]
      ∨ (w.extractLsb' 0 8 ∈ [0x00#8, 0x01#8, 0x03#8, 0x08#8, 0x0A#8, 0x10#8, 0x18#8, 0x1A#8, 0x20#8, 0x22#8, 0xFF#8]
        ∧ w &&& 0xFFFFFF00#32 ≠ 0#32)
      ∨ (w.extractLsb' 0 8 ∈ [0x02#8, 0x09#8, 0x19#8] ∧ w &&& 0xFFFF0000#32 ≠ 0#32)
      ∨ (w.extractLsb' 0 8 ∈ [0x04#8, 0x11#8] ∧ (w &&& 0xFFFE0000#32 ≠ 0#32 ∨ (w.extractLsb' 8 9).toNat > 256))
      ∨ (w.extractLsb' 0 8 = 0x21#8 ∧ w &&& 0xFFFFFE00#32 ≠ 0#32)) →
    acceptWord w s = .next { s with faulted := true, faultCause := .illegalCmd, faultCmd := w }

/-- Words written out from the formats of R64 to R67 and the opcodes of R69 decode to the commands they stand for. -/
def Obligations.SampleWordsDecode : Prop :=
  decode 0b00000000000000000000000000000000#32 = .ok .nop
    ∧ decode 0b00000000000000000110000100000010#32 = .ok (.fmCount 0x61#8)
    ∧ decode 0b00000000000000010000000000000100#32 = .ok (.fmQuery 256#9)
    ∧ decode 0b00000000000000001111111100001001#32 = .ok (.hdrByte 0xFF#8)
    ∧ decode 0b00000000000000000000000000010000#32 = .ok .treeBuild
    ∧ decode 0b00000000000000000110001100010001#32 = .ok (.lutQuery 0x63#9)
    ∧ decode 0b00000000000000001111111100011001#32 = .ok (.encSym 0xFF#8)
    ∧ decode 0b00000000000000000000000100100001#32 = .ok (.decBit true)
    ∧ decode 0b00000000000000000000000011111111#32 = .ok .softReset

/-! ### The step and the ports (spec/00_scope.md, spec/10_state.md, spec/20_memory.md) -/

/-- R74, R77: a word the host presents while cmd_ready = 1 is accepted, and where it decodes to a command, the step is exec of that
command once the word is off the host's list. -/
def Obligations.StepRunsTheDecodedCommand : Prop :=
  ∀ (s : State) (w : Word) (rest : List HostEvent) (i : Instr),
    s.busy = false → s.hostIn = .command w :: rest → decode w = .ok i →
      step s = exec i { s with hostIn := rest }

/-- R147: while FAULTED = 1 every accepted word other than 0x000000FF is consumed and changes nothing; register reads work as always,
elements already in the streams can still be taken, and only a reset clears the fault. -/
def Obligations.FaultedStateIgnoresCommands : Prop :=
  ∀ (s : State) (e : HostEvent) (rest : List HostEvent), s.busy = false → s.faulted = true → s.hostIn = e :: rest →
    (∀ w, e = .command w → w ≠ 0x000000FF#32 → step s = .next { s with hostIn := rest })
      ∧ (∀ a, e = .readReg a →
        step s = .next { s with hostIn := rest, regReads := s.regReads ++ [(a, s.regRead a)] })
      ∧ (∀ b bs, e = .takeBit → s.bout = b :: bs →
        step s = .next { s with hostIn := rest, bout := bs, takenBits := s.takenBits ++ [b] })
      ∧ (∀ b bs, e = .takeByte → s.yout = b :: bs →
        step s = .next { s with hostIn := rest, yout := bs, takenBytes := s.takenBytes ++ [b] })
      ∧ ∀ t, step s = .next t → t.faulted = false → e = .rst ∨ e = .command 0x000000FF#32

/-- R161: with nothing presented the block holds its state; R77: a word presented while cmd_ready = 0 is not accepted. -/
def Obligations.NothingAcceptedHoldsTheState : Prop :=
  ∀ s : State,
    (s.hostIn = [] → step s = .next s)
      ∧ (∀ w rest, s.busy = true → s.hostIn = .command w :: rest → step s = .next s)

/-- R56: accepting a command word executes it; taking a BOUT bit or a YOUT byte removes it from the front of its stream and has no
other effect on the block; a register read has none at all.  R44: nothing is taken from an empty stream.  (Log entry 3: what the host
took and read is kept in the model's own fields.) -/
def Obligations.HostActionsTouchNothingElse : Prop :=
  ∀ (s : State) (rest : List HostEvent),
    (∀ b bs, s.hostIn = .takeBit :: rest → s.bout = b :: bs →
        step s = .next { s with hostIn := rest, bout := bs, takenBits := s.takenBits ++ [b] })
      ∧ (∀ b bs, s.hostIn = .takeByte :: rest → s.yout = b :: bs →
        step s = .next { s with hostIn := rest, yout := bs, takenBytes := s.takenBytes ++ [b] })
      ∧ (∀ a, s.hostIn = .readReg a :: rest → s.busy = false →
        step s = .next { s with hostIn := rest, regReads := s.regReads ++ [(a, s.portRead a)] })
      ∧ (∀ w, s.hostIn = .command w :: rest → s.busy = false → step s = acceptWord w { s with hostIn := rest })
      ∧ (s.hostIn = .takeBit :: rest → s.bout = [] → step s = .next { s with hostIn := rest })
      ∧ (s.hostIn = .takeByte :: rest → s.yout = [] → step s = .next { s with hostIn := rest })

/-- R163, R164: the rst input resets every state element, in every state; the ID constant is unaffected; SOFT_RESET has the same
effect; and while rst = 1 the outputs cmd_ready, bout_valid and yout_valid are 0. -/
def Obligations.RstInputResets : Prop :=
  ∀ (s : State) (rest : List HostEvent), s.hostIn = .rst :: rest →
    s.cmdReady = false ∧ s.boutValid = false ∧ s.youtValid = false
      ∧ ∃ t, step s = .next t ∧ t.AtReset ∧ t.portRead 0x3C#8 = 0x48554631#32
        ∧ exec .softReset { s with hostIn := rest } = .next t

/-- R38, R39, R40: the register map, word by word, with the layouts of STATUS and HDR_POS, while BUSY = 0; R17, R18, R143: the codes of
PHASE, DSTATE and FAULT_CAUSE. -/
def Obligations.RegisterMap : Prop :=
  ∀ s : State, s.busy = false →
    s.portRead 0x00#8 =
        0#15 ++ BitVec.ofBool s.rootIsLeaf
          ++ (match s.faultCause with
            | .none => 0x00#8
            | .illegalCmd => 0x01#8
            | .seqError => 0x02#8
            | .emptyModel => 0x03#8
            | .tableMismatch => 0x04#8
            | .malformedStream => 0x05#8
            | .hdrMalformed => 0x06#8
            | .countOverflow => 0x07#8)
          ++ (match s.dstate with
            | .atRoot => 0#2
            | .descending => 1#2
            | .done => 2#2)
          ++ BitVec.ofBool s.faulted ++ 0#1
          ++ (match s.phase with
            | .idle => 0#4
            | .counting => 1#4
            | .modelReady => 2#4
            | .hdrLoading => 3#4
            | .treeReady => 4#4
            | .encoding => 5#4
            | .decoding => 6#4)
      ∧ s.portRead 0x04#8 = s.faultCmd
      ∧ s.portRead 0x08#8 = s.numSyms.setWidth 32
      ∧ s.portRead 0x0C#8 = s.total
      ∧ s.portRead 0x10#8 = s.qCount
      ∧ s.portRead 0x14#8 = s.nodeCount.setWidth 32
      ∧ s.portRead 0x18#8 = s.root.setWidth 32
      ∧ s.portRead 0x1C#8 = s.rootWeight
      ∧ s.portRead 0x20#8 = s.lutLenR.setWidth 32
      ∧ s.portRead 0x28#8 ++ s.portRead 0x24#8 = s.bitCount
      ∧ s.portRead 0x30#8 ++ s.portRead 0x2C#8 = s.decCount
      ∧ s.portRead 0x34#8 = s.decNode.setWidth 32
      ∧ s.portRead 0x38#8 = s.hpN ++ (0#4 ++ s.hpBytes)
      ∧ s.portRead 0x3C#8 = 0x48554631#32
      ∧ [s.portRead 0x40#8, s.portRead 0x44#8, s.portRead 0x48#8, s.portRead 0x4C#8, s.portRead 0x50#8, s.portRead 0x54#8,
          s.portRead 0x58#8, s.portRead 0x5C#8]
        = [s.lutBitsR.r0, s.lutBitsR.r1, s.lutBitsR.r2, s.lutBitsR.r3, s.lutBitsR.r4, s.lutBitsR.r5, s.lutBitsR.r6,
          s.lutBitsR.r7]
      ∧ ∀ a : Byte, 0x60 ≤ a.toNat → s.portRead a = 0#32

/-- R41: while BUSY = 0 address bits [1:0] are ignored, and an address in 0x60..0xFF reads 0.  That the same holds while BUSY = 1 is the
model's choice (DESIGN CHOICE, log entry 4). -/
def Obligations.ReadAddressIsWordAligned : Prop :=
  ∀ (s : State) (a : Byte),
    s.portRead a = s.portRead (a &&& 0xFC#8) ∧ (0x60 ≤ a.toNat → s.portRead a = 0#32)

/-- R39, R172: STATUS[4] reads BUSY at any time, also while every other bit reads an unspecified value.  The output levels: irq equals
FAULTED (R154); while rst = 0, cmd_ready = NOT BUSY (R77) and each valid output says whether its stream has an element (R44); while
rst = 1 these three are 0 (R163). -/
def Obligations.StatusShowsBusy : Prop :=
  ∀ s : State, (s.portRead 0x00#8).getLsbD 4 = s.busy ∧ s.irq = s.faulted
    ∧ ((∃ rest, s.hostIn = .rst :: rest) → s.cmdReady = false ∧ s.boutValid = false ∧ s.youtValid = false)
    ∧ ((∀ rest, s.hostIn ≠ .rst :: rest) →
      s.cmdReady = !s.busy ∧ (s.boutValid = true ↔ s.bout ≠ []) ∧ (s.youtValid = true ↔ s.yout ≠ []))

/-- R37: the flags a host reads are FAULTED, BUSY and ROOT_IS_LEAF; ROOT_IS_LEAF reads 1 exactly when PHASE is TREE_READY, ENCODING
or DECODING and NODE[ROOT].KIND = 0. -/
def Obligations.RootIsLeafFlag : Prop :=
  ∀ s : State, s.busy = false →
    (s.portRead 0x00#8).getLsbD 4 = s.busy ∧ (s.portRead 0x00#8).getLsbD 5 = s.faulted
      ∧ ((s.portRead 0x00#8).getLsbD 16 = true ↔
      (s.phase = .treeReady ∨ s.phase = .encoding ∨ s.phase = .decoding) ∧ (s.nodeAt s.root.toNat).kind = .leaf)

/-! ### Control commands (spec/45_control.md) -/

/-- R139: NOP changes nothing, in any state. -/
def Obligations.NopChangesNothing : Prop :=
  encode .nop = 0x00000000#32
    ∧ (∀ (w : Word) (s : State), w.extractLsb' 0 8 = 0x00#8 → w ≠ 0x00000000#32 → s.faulted = false →
        acceptWord w s = .next (s.enterFault .illegalCmd w))
    ∧ ∀ s : State, exec .nop s = .next s

/-- R140, R164, R165: SOFT_RESET, in every phase and while faulted, leaves every state element at its reset value, so every register
reads 0 but ID. -/
def Obligations.SoftResetResetsEverything : Prop :=
  encode .softReset = 0x000000FF#32
    ∧ (∀ (w : Word) (s : State), w.extractLsb' 0 8 = 0xFF#8 → w ≠ 0x000000FF#32 →
        (s.faulted = false → acceptWord w s = .next (s.enterFault .illegalCmd w))
          ∧ (s.faulted = true → acceptWord w s = .next s))
    ∧ ∀ s : State, ∃ t, exec .softReset s = .next t ∧ t.AtReset
        ∧ ∀ a : Byte, t.portRead a = if a.toNat / 4 = 15 then 0x48554631#32 else 0#32

/-! ### Frequency counter (spec/40_frequency_model.md) -/

/-- R81, R82: FM_CLEAR, in every phase, clears the model, the tree, the LUT and the parser, opens the model, and changes nothing
else.  (A memory with nothing listed reads zero at every index.) -/
def Obligations.FmClearStartsAModel : Prop :=
  encode .fmClear = 0x00000001#32
    ∧ ∀ s : State, s.faulted = false →
        exec .fmClear s = .next { s with
          freq := [], lut := [], numSyms := 0#9, total := 0#32, node := [], nodeCount := 0#10, root := 0#10, rootWeight := 0#32
          hpBytes := 0#12, hpN := 0#16, hpBuf := 0#64, phase := .counting }

/-- R83, R84: FM_COUNT adds one to the count of its byte, raises NUM_SYMS at first sight, adds one to TOTAL, and changes nothing else;
when the literal bytes counted number 2^32 - 2 it raises COUNT_OVERFLOW instead and changes nothing. -/
def Obligations.FmCountCountsOneByte : Prop :=
  (∀ b : Byte, encode (.fmCount b) = 0#16 ++ b ++ 0x02#8)
    ∧ (∀ (b : Byte) (s : State), s.faulted = false → s.phase ≠ .counting →
        exec (.fmCount b) s = .next (s.enterFault .seqError (0#16 ++ b ++ 0x02#8)))
    ∧ ∀ (b : Byte) (s : State), s.faulted = false → s.phase = .counting → Memory.wf 0#32 257 s.freq = true →
        (s.total ≠ 0xFFFFFFFE#32 →
          ∃ t, exec (.fmCount b) s = .next t
            ∧ t = { s with
                freq := t.freq, total := s.total + 1#32
                numSyms := if s.freqAt b.toNat = 0#32 then s.numSyms + 1#9 else s.numSyms }
            ∧ t.freqAt b.toNat = s.freqAt b.toNat + 1#32
            ∧ ∀ j, j ≠ b.toNat → t.freqAt j = s.freqAt j)
          ∧ (s.total = 0xFFFFFFFE#32 →
            exec (.fmCount b) s =
              .next { s with faulted := true, faultCause := .countOverflow, faultCmd := 0#16 ++ b ++ 0x02#8 })

/-- R85: FM_CLOSE adds EOF once and closes the model. -/
def Obligations.FmCloseAddsEof : Prop :=
  encode .fmClose = 0x00000003#32
    ∧ (∀ s : State, s.faulted = false → s.phase ≠ .counting →
        exec .fmClose s = .next (s.enterFault .seqError 0x00000003#32))
    ∧ ∀ s : State, s.faulted = false → s.phase = .counting → Memory.wf 0#32 257 s.freq = true →
        ∃ t, exec .fmClose s = .next t
          ∧ t = { s with freq := t.freq, numSyms := s.numSyms + 1#9, total := s.total + 1#32, phase := .modelReady }
          ∧ t.freqAt 256 = 1#32
          ∧ ∀ j, j ≠ 256 → t.freqAt j = s.freqAt j

/-- R86: FM_QUERY, in every phase, copies one count into QCOUNT and changes nothing else. -/
def Obligations.FmQueryReadsACount : Prop :=
  (∀ sym : SymId, encode (.fmQuery sym) = 0#15 ++ sym ++ 0x04#8)
    ∧ (∀ (sym : SymId) (s : State), s.faulted = false → 256 < sym.toNat →
        acceptWord (0#15 ++ sym ++ 0x04#8) s = .next (s.enterFault .illegalCmd (0#15 ++ sym ++ 0x04#8)))
    ∧ ∀ (sym : SymId) (s : State), s.faulted = false → sym.toNat ≤ 256 →
        exec (.fmQuery sym) s = .next { s with qCount := s.freqAt sym.toNat }

/-- R87, R88: after FM_CLEAR, one FM_COUNT per byte of B and FM_CLOSE, the model holds the number of times each byte occurs, one EOF,
the number of distinct bytes plus one, and the length plus one; so it depends on the multiset of bytes alone. -/
def Obligations.ModelHoldsTheCounts : Prop :=
  ∀ (bs : List Byte) (s : State), s.faulted = false → bs.length ≤ 2 ^ 32 - 2 →
    ∃ t, runCommands (.fmClear :: bs.map .fmCount ++ [.fmClose]) s = .next t
      ∧ t.faulted = false ∧ t.phase = .modelReady
      ∧ (∀ v : Byte, (t.freqAt v.toNat).toNat = bs.count v)
      ∧ t.freqAt 256 = 1#32
      ∧ t.numSyms.toNat = 1 + bs.dedup.length
      ∧ t.total.toNat = bs.length + 1

/-- R88: the model does not depend on the order of the bytes. -/
def Obligations.ModelIgnoresByteOrder : Prop :=
  ∀ (bs cs : List Byte) (s t : State), bs.Perm cs →
    runCommands (.fmClear :: bs.map .fmCount ++ [.fmClose]) s = .next t → t.faulted = false →
      runCommands (.fmClear :: cs.map .fmCount ++ [.fmClose]) s = .next t

/-! ### Header (spec/44_header.md) -/

/-- R131, R81: HDR_BEGIN, in every phase, clears what FM_CLEAR clears and starts receiving a header. -/
def Obligations.HdrBeginStartsAHeader : Prop :=
  encode .hdrBegin = 0x00000008#32
    ∧ ∀ s : State, s.faulted = false →
        exec .hdrBegin s = .next { s with
          freq := [], lut := [], numSyms := 0#9, total := 0#32, node := [], nodeCount := 0#10, root := 0#10, rootWeight := 0#32
          hpBytes := 0#12, hpN := 0#16, hpBuf := 0#64, phase := .hdrLoading }

/-- R132: the two bytes of the record-count field, most significant first; on the second, a count of 0 or above 257 raises
HDR_MALFORMED. -/
def Obligations.HdrByteTakesTheRecordCount : Prop :=
  ∀ (b : Byte) (s : State), s.faulted = false → s.phase = .hdrLoading →
    (s.hpBytes = 0#12 →
        exec (.hdrByte b) s = .next { s with hpN := s.hpN.extractLsb' 0 8 ++ b, hpBytes := 1#12 })
      ∧ (s.hpBytes = 1#12 → 1 ≤ (s.hpN.extractLsb' 0 8 ++ b).toNat → (s.hpN.extractLsb' 0 8 ++ b).toNat ≤ 257 →
        exec (.hdrByte b) s = .next { s with hpN := s.hpN.extractLsb' 0 8 ++ b, hpBytes := 2#12 })
      ∧ (s.hpBytes = 1#12 → (s.hpN.extractLsb' 0 8 ++ b).toNat = 0 ∨ 257 < (s.hpN.extractLsb' 0 8 ++ b).toNat →
        exec (.hdrByte b) s =
          .next { s with faulted := true, faultCause := .hdrMalformed, faultCmd := 0#16 ++ b ++ 0x09#8 })

/-- R132: a byte inside a record is shifted into HP_BUF and nothing else happens. -/
def Obligations.HdrByteShiftsARecordByte : Prop :=
  ∀ (b : Byte) (s : State), s.faulted = false → s.phase = .hdrLoading → 2 ≤ s.hpBytes.toNat →
    (s.hpBytes.toNat - 2) % 8 ≠ 7 →
      exec (.hdrByte b) s =
        .next { s with hpBuf := s.hpBuf.extractLsb' 0 56 ++ b, hpBytes := s.hpBytes + 1#12 }

/-- R132 to R135: the eighth byte of a record that passes the checks writes the record's count, and the last record closes the
model. -/
def Obligations.HdrByteAcceptsARecord : Prop :=
  ∀ (b : Byte) (s : State) (v c : Word) (sym : Nat), s.faulted = false → s.phase = .hdrLoading →
    Memory.wf 0#32 257 s.freq = true →
    2 ≤ s.hpBytes.toNat → (s.hpBytes.toNat - 2) % 8 = 7 →
    v ++ c = s.hpBuf.extractLsb' 0 56 ++ b →
    (v = s.params.hdrEofSym ∧ sym = 256 ∨ v ≠ s.params.hdrEofSym ∧ v.toNat ≤ 255 ∧ sym = v.toNat) →
    c ≠ 0#32 → s.freqAt sym = 0#32 → s.total.toNat + c.toNat ≤ 2 ^ 32 - 1 →
    ((s.hpBytes.toNat - 2) / 8 + 1 = s.hpN.toNat → sym = 256 ∨ s.freqAt 256 ≠ 0#32) →
      ∃ t, exec (.hdrByte b) s = .next t
        ∧ t = { s with
            freq := t.freq, numSyms := s.numSyms + 1#9, total := s.total + c
            hpBuf := s.hpBuf.extractLsb' 0 56 ++ b, hpBytes := s.hpBytes + 1#12
            phase := if (s.hpBytes.toNat - 2) / 8 + 1 = s.hpN.toNat then .modelReady else .hdrLoading }
        ∧ t.freqAt sym = c
        ∧ ∀ j, j ≠ sym → t.freqAt j = s.freqAt j

/-- R133 to R136: the eighth byte of a record that fails a check raises one fault, the first in the order of R136, and changes nothing
else. -/
def Obligations.HdrByteReportsTheFirstFault : Prop :=
  ∀ (b : Byte) (s : State) (v c : Word), s.faulted = false → s.phase = .hdrLoading →
    2 ≤ s.hpBytes.toNat → (s.hpBytes.toNat - 2) % 8 = 7 →
    v ++ c = s.hpBuf.extractLsb' 0 56 ++ b →
    (v ≠ s.params.hdrEofSym → 255 < v.toNat →
        exec (.hdrByte b) s =
          .next { s with faulted := true, faultCause := .hdrMalformed, faultCmd := 0#16 ++ b ++ 0x09#8 })
      ∧ ∀ sym : Nat, (v = s.params.hdrEofSym ∧ sym = 256 ∨ v ≠ s.params.hdrEofSym ∧ v.toNat ≤ 255 ∧ sym = v.toNat) →
        (c = 0#32 ∨ s.freqAt sym ≠ 0#32 →
          exec (.hdrByte b) s =
            .next { s with faulted := true, faultCause := .hdrMalformed, faultCmd := 0#16 ++ b ++ 0x09#8 })
        ∧ (c ≠ 0#32 → s.freqAt sym = 0#32 → 2 ^ 32 - 1 < s.total.toNat + c.toNat →
          exec (.hdrByte b) s =
            .next { s with faulted := true, faultCause := .countOverflow, faultCmd := 0#16 ++ b ++ 0x09#8 })
        ∧ (c ≠ 0#32 → s.freqAt sym = 0#32 → s.total.toNat + c.toNat ≤ 2 ^ 32 - 1 →
          (s.hpBytes.toNat - 2) / 8 + 1 = s.hpN.toNat → sym ≠ 256 → s.freqAt 256 = 0#32 →
          Memory.wf 0#32 257 s.freq = true →
          exec (.hdrByte b) s =
            .next { s with faulted := true, faultCause := .hdrMalformed, faultCmd := 0#16 ++ b ++ 0x09#8 })

/-- R130: HDR_EMIT appends the record count and then one record per present symbol in ascending id, each field most significant byte
first, and changes no state but YOUT. -/
def Obligations.HdrEmitSerializesTheModel : Prop :=
  encode .hdrEmit = 0x0000000A#32
    ∧ (∀ s : State, s.faulted = false → s.phase ≠ .modelReady → s.phase ≠ .treeReady →
        exec .hdrEmit s = .next (s.enterFault .seqError 0x0000000A#32))
    ∧ ∀ s : State, s.faulted = false → (s.phase = .modelReady ∨ s.phase = .treeReady) →
        exec .hdrEmit s = .next { s with
          yout := s.yout ++ [(s.numSyms.setWidth 16).extractLsb' 8 8, (s.numSyms.setWidth 16).extractLsb' 0 8]
            ++ (List.range 257).flatMap (fun sym =>
                let v : Word := if sym = 256 then s.params.hdrEofSym else BitVec.ofNat 32 sym
                let c : Word := s.freqAt sym
                if c = 0#32 then []
                else [v.extractLsb' 24 8, v.extractLsb' 16 8, v.extractLsb' 8 8, v.extractLsb' 0 8,
                  c.extractLsb' 24 8, c.extractLsb' 16 8, c.extractLsb' 8 8, c.extractLsb' 0 8]) }

/-- R138: the header HDR_EMIT writes has exactly 2 + 8 x NUM_SYMS bytes. -/
def Obligations.HeaderLength : Prop :=
  ∀ s : State, s.faulted = false → (s.phase = .modelReady ∨ s.phase = .treeReady) → s.ModelOk →
    ∃ t, exec .hdrEmit s = .next t ∧ t.yout.length = s.yout.length + 2 + 8 * s.numSyms.toNat

/-- R137: a header that HDR_EMIT wrote, fed byte by byte after HDR_BEGIN to a block with the same HDR_EOF_SYM, brings it to
MODEL_READY with an equal model, and a later TREE_BUILD builds the identical tree and LUT. -/
def Obligations.HeaderRoundTrip : Prop :=
  ∀ (s t u : State) (h : List Byte), s.Inv → s.faulted = false → (s.phase = .modelReady ∨ s.phase = .treeReady) →
    exec .hdrEmit s = .next t → t.yout = s.yout ++ h → u.faulted = false → u.params = s.params →
      ∃ v, runCommands (.hdrBegin :: h.map .hdrByte) u = .next v
        ∧ v.faulted = false ∧ v.phase = .modelReady
        ∧ v.freq = s.freq ∧ v.numSyms = s.numSyms ∧ v.total = s.total
        ∧ ∀ s' v', exec .treeBuild s = .next s' → exec .treeBuild v = .next v' →
            v'.node = s'.node ∧ v'.nodeCount = s'.nodeCount ∧ v'.root = s'.root ∧ v'.rootWeight = s'.rootWeight
              ∧ v'.lut = s'.lut

/-! ### Tree builder and LUT (spec/41_tree_codetable.md) -/

/-- R91: TREE_BUILD of a model that is not empty completes, leaves TREE_READY with queue and stack empty, and changes nothing but
the arena, its registers, the LUT and PHASE. -/
def Obligations.TreeBuildCompletes : Prop :=
  ∀ s : State, s.faulted = false → (s.phase = .modelReady ∨ s.phase = .treeReady) → (∃ i, i ≤ 256 ∧ s.freqAt i ≠ 0#32) →
    ∃ t, exec .treeBuild s = .next t
      ∧ t = { s with
          node := t.node, nodeCount := t.nodeCount, root := t.root, rootWeight := t.rootWeight, lut := t.lut
          pq := [], travStack := [], phase := .treeReady }
      ∧ t.rootWeight = (t.nodeAt t.root.toNat).w

/-- R92, R97, R98, R100: the k-th present symbol's leaf is entry k with its count, NODE_COUNT = 2L - 1 for L present symbols, and ROOT
is the last entry. -/
def Obligations.TreeHasTwiceTheLeavesLessOne : Prop :=
  ∀ s : State, s.faulted = false → (s.phase = .modelReady ∨ s.phase = .treeReady) → (∃ i, i ≤ 256 ∧ s.freqAt i ≠ 0#32) →
    ∃ t, exec .treeBuild s = .next t
      ∧ t.nodeCount.toNat = 2 * (presentSyms s.freq).length - 1
      ∧ t.root.toNat = t.nodeCount.toNat - 1
      ∧ (∀ k, (presentSyms s.freq).length ≤ k → k < t.nodeCount.toNat → (t.nodeAt k).kind = .internal)
      ∧ ∀ k (hk : k < (presentSyms s.freq).length),
          t.nodeAt k = { kind := .leaf, sym := BitVec.ofNat 9 (presentSyms s.freq)[k], w := s.freqAt (presentSyms s.freq)[k]
                         l := 0#10, r := 0#10 }

/-- R96, R101, R108: every internal entry's children are earlier entries, its weight is the sum of theirs without wrapping, and
ROOT_WEIGHT is the sum of all counts, which is TOTAL. -/
def Obligations.TreeWeightsAddUp : Prop :=
  ∀ s : State, s.faulted = false → (s.phase = .modelReady ∨ s.phase = .treeReady) → (∃ i, i ≤ 256 ∧ s.freqAt i ≠ 0#32) →
    s.total.toNat = sumCounts s.freq →
    ∃ t, exec .treeBuild s = .next t
      ∧ t.rootWeight = t.total
      ∧ ∀ k, k < t.nodeCount.toNat → (presentSyms s.freq).length ≤ k →
          (t.nodeAt k).kind = .internal ∧ (t.nodeAt k).sym = 0x1FF#9
            ∧ (t.nodeAt k).l.toNat < k ∧ (t.nodeAt k).r.toNat < k ∧ (t.nodeAt k).l ≠ (t.nodeAt k).r
            ∧ (t.nodeAt k).w.toNat
              = (t.nodeAt (t.nodeAt k).l.toNat).w.toNat + (t.nodeAt (t.nodeAt k).r.toNat).w.toNat

/-- R93, R94: popmin takes the element of least key (weight, index).  MergeTakesTheTwoLeast says what R96 makes of it. -/
def Obligations.PopMinTakesTheLeastKey : Prop :=
  ∀ (node : Memory NodeEntry) (pq : List NodeIdx), pq ≠ [] →
    ∃ m rest, popMin node pq = some (m, rest) ∧ m ∈ pq ∧ (m :: rest).Perm pq
      ∧ ∀ j ∈ pq, j ≠ m →
          (weightOf node m).toNat < (weightOf node j).toNat
            ∨ (weightOf node m = weightOf node j ∧ m.toNat < j.toNat)

/-- R98, R99: the one-entry model gives a single leaf, which is the root, and the code 0 of one bit. -/
def Obligations.DegenerateTree : Prop :=
  ∀ (s : State) (c : Word), s.faulted = false → (s.phase = .modelReady ∨ s.phase = .treeReady) → c ≠ 0#32 →
    (∀ i, i ≤ 256 → s.freqAt i = if i = 256 then c else 0#32) →
    ∃ t, exec .treeBuild s = .next t
      ∧ t.root = 0#10 ∧ t.nodeCount = 1#10 ∧ t.rootWeight = c
      ∧ t.nodeAt 0 = { kind := .leaf, sym := 256#9, w := c, l := 0#10, r := 0#10 }
      ∧ (∀ i, t.lutAt i = if i = 256 then { len := 1#9, pat := 0#256 } else { len := 0#9, pat := 0#256 })
      ∧ t.rootIsLeaf = true

/-- R102, R107, R28: a symbol has a code exactly when it is present; a code is between 1 and max(1, L - 1) bits long, and the pattern
is 0 above it. -/
def Obligations.LutCoversThePresentSymbols : Prop :=
  ∀ s : State, s.faulted = false → (s.phase = .modelReady ∨ s.phase = .treeReady) → (∃ i, i ≤ 256 ∧ s.freqAt i ≠ 0#32) →
    ∃ t, exec .treeBuild s = .next t
      ∧ ∀ sym, sym ≤ 256 →
          ((t.lutAt sym).len ≠ 0#9 ↔ s.freqAt sym ≠ 0#32)
            ∧ (t.lutAt sym).len.toNat ≤ max 1 ((presentSyms s.freq).length - 1)
            ∧ ∀ k, (t.lutAt sym).len.toNat ≤ k → (t.lutAt sym).pat.getLsbD k = false

/-- R103: no code is a prefix of another, and the codes of two or more symbols fill the code space. -/
def Obligations.CodesArePrefixFree : Prop :=
  ∀ s : State, s.faulted = false → (s.phase = .modelReady ∨ s.phase = .treeReady) → (∃ i, i ≤ 256 ∧ s.freqAt i ≠ 0#32) →
    ∃ t, exec .treeBuild s = .next t
      ∧ (∀ x y, x ≤ 256 → y ≤ 256 → x ≠ y → s.freqAt x ≠ 0#32 → s.freqAt y ≠ 0#32 → ¬ codeOf t.lut x <+: codeOf t.lut y)
      ∧ (2 ≤ (presentSyms s.freq).length →
          ((presentSyms s.freq).map (fun x => 2 ^ (256 - (codeOf t.lut x).length))).sum = 2 ^ 256)

/-- R104: two TREE_BUILDs over equal FREQ contents write equal arenas, registers and LUTs. -/
def Obligations.TreeDependsOnCountsAlone : Prop :=
  ∀ s s' t t' : State, s.faulted = false → (s.phase = .modelReady ∨ s.phase = .treeReady) →
    s'.faulted = false → (s'.phase = .modelReady ∨ s'.phase = .treeReady) →
    (∀ i, i ≤ 256 → s.freqAt i = s'.freqAt i) →
    exec .treeBuild s = .next t → exec .treeBuild s' = .next t' →
      t.node = t'.node ∧ t.nodeCount = t'.nodeCount ∧ t.root = t'.root ∧ t.rootWeight = t'.rootWeight ∧ t.lut = t'.lut

/-- R106: LUT_QUERY copies one LUT entry into the query registers and changes nothing else. -/
def Obligations.LutQueryReadsACode : Prop :=
  (∀ sym : SymId, encode (.lutQuery sym) = 0#15 ++ sym ++ 0x11#8)
    ∧ (∀ (sym : SymId) (s : State), s.faulted = false → 256 < sym.toNat →
        acceptWord (0#15 ++ sym ++ 0x11#8) s = .next (s.enterFault .illegalCmd (0#15 ++ sym ++ 0x11#8)))
    ∧ (∀ (sym : SymId) (s : State), s.faulted = false → sym.toNat ≤ 256 →
        s.phase ≠ .treeReady → s.phase ≠ .encoding → s.phase ≠ .decoding →
        exec (.lutQuery sym) s = .next (s.enterFault .seqError (0#15 ++ sym ++ 0x11#8)))
    ∧ ∀ (sym : SymId) (s : State), s.faulted = false → sym.toNat ≤ 256 →
        (s.phase = .treeReady ∨ s.phase = .encoding ∨ s.phase = .decoding) →
          ∃ t, exec (.lutQuery sym) s = .next t
            ∧ t = { s with lutLenR := (s.lutAt sym.toNat).len, lutBitsR := t.lutBitsR }
            ∧ t.lutBitsR.r7 ++ t.lutBitsR.r6 ++ t.lutBitsR.r5 ++ t.lutBitsR.r4 ++ t.lutBitsR.r3 ++ t.lutBitsR.r2 ++ t.lutBitsR.r1
                ++ t.lutBitsR.r0 = (s.lutAt sym.toNat).pat

/-! ### Encoder (spec/42_encoder.md) -/

/-- R109: ENC_START clears BITCOUNT, enters ENCODING, and changes nothing else; BOUT is kept. -/
def Obligations.EncStartBeginsAnEncode : Prop :=
  encode .encStart = 0x00000018#32
    ∧ (∀ s : State, s.faulted = false → s.phase ≠ .treeReady →
        exec .encStart s = .next (s.enterFault .seqError 0x00000018#32))
    ∧ ∀ s : State, s.faulted = false → s.phase = .treeReady →
        exec .encStart s = .next { s with bitCount := 0#64, phase := .encoding }

/-- R110, R112, R50, R114: ENC_SYM appends the byte's code to BOUT, PAT[LEN-1] first and PAT[0] last, adds LEN to BITCOUNT, and
changes nothing else; a byte without a code raises TABLE_MISMATCH, no bit is emitted and BITCOUNT is unchanged. -/
def Obligations.EncSymEmitsTheCode : Prop :=
  (∀ b : Byte, encode (.encSym b) = 0#16 ++ b ++ 0x19#8)
    ∧ (∀ (b : Byte) (s : State), s.faulted = false → s.phase ≠ .encoding →
        exec (.encSym b) s = .next (s.enterFault .seqError (0#16 ++ b ++ 0x19#8)))
    ∧ ∀ (b : Byte) (s : State), s.faulted = false → s.phase = .encoding → s.encShift = 0#256 →
        ((s.lutAt b.toNat).len ≠ 0#9 →
          exec (.encSym b) s = .next { s with
            bout := s.bout
              ++ (List.range (s.lutAt b.toNat).len.toNat).reverse.map (fun k => (s.lutAt b.toNat).pat.getLsbD k)
            bitCount := s.bitCount + (s.lutAt b.toNat).len.setWidth 64 })
          ∧ ((s.lutAt b.toNat).len = 0#9 →
            exec (.encSym b) s =
              .next { s with faulted := true, faultCause := .tableMismatch, faultCmd := 0#16 ++ b ++ 0x19#8 })

/-- R111: ENC_END appends the EOF code, adds its length to BITCOUNT, returns to TREE_READY, and changes nothing else. -/
def Obligations.EncEndEmitsTheEofCode : Prop :=
  encode .encEnd = 0x0000001A#32
    ∧ (∀ s : State, s.faulted = false → s.phase ≠ .encoding →
        exec .encEnd s = .next (s.enterFault .seqError 0x0000001A#32))
    ∧ ∀ s : State, s.faulted = false → s.phase = .encoding → s.encShift = 0#256 →
        exec .encEnd s = .next { s with
          bout := s.bout ++ (List.range (s.lutAt 256).len.toNat).reverse.map (fun k => (s.lutAt 256).pat.getLsbD k)
          bitCount := s.bitCount + (s.lutAt 256).len.setWidth 64
          phase := .treeReady }

/-- R113, R116: an encode of bytes that all have codes appends the concatenation of their codes and of the EOF code, and BITCOUNT is
the number of bits appended, modulo 2^64. -/
def Obligations.EncodedStreamIsTheCodes : Prop :=
  ∀ (bs : List Byte) (s : State), s.faulted = false → s.phase = .treeReady → s.encShift = 0#256 →
    (∀ b ∈ bs, (s.lutAt b.toNat).len ≠ 0#9) →
      runCommands (.encStart :: bs.map .encSym ++ [.encEnd]) s = .next { s with
        bout := s.bout ++ bs.flatMap (fun b => codeOf s.lut b.toNat) ++ codeOf s.lut 256
        bitCount := BitVec.ofNat 64 (bs.flatMap (fun b => codeOf s.lut b.toNat) ++ codeOf s.lut 256).length }

/-! ### Decoder (spec/43_decoder.md) -/

/-- R118: DEC_START puts the decoder at the root and clears DECCOUNT; YOUT is kept. -/
def Obligations.DecStartBeginsADecode : Prop :=
  encode .decStart = 0x00000020#32
    ∧ (∀ s : State, s.faulted = false → s.phase ≠ .treeReady →
        exec .decStart s = .next (s.enterFault .seqError 0x00000020#32))
    ∧ ∀ s : State, s.faulted = false → s.phase = .treeReady →
        exec .decStart s = .next { s with dstate := .atRoot, decNode := s.root, decCount := 0#64, phase := .decoding }

/-- R119, R120, R121: in Done a bit changes nothing.  Else it leads to the root where the root is a leaf, whatever its value, and to the
child of DEC_NODE it names otherwise; an internal node is descended to, the EOF leaf ends the decode, a literal leaf emits its byte,
counts it and returns to the root.  The arena indices read are in the arena (R46). -/
def Obligations.DecBitWalksTheTree : Prop :=
  encode (.decBit false) = 0x00000021#32 ∧ encode (.decBit true) = 0x00000121#32
    ∧ (∀ (t : Bool) (s : State), s.faulted = false → s.phase ≠ .decoding →
        exec (.decBit t) s = .next (s.enterFault .seqError (encode (.decBit t))))
    ∧ ∀ (t : Bool) (s : State), s.faulted = false → s.phase = .decoding →
        (s.dstate = .done → exec (.decBit t) s = .next s)
          ∧ ∀ n : NodeIdx, s.dstate ≠ .done → s.root.toNat < 513 →
            ((s.nodeAt s.root.toNat).kind = .leaf ∧ n = s.root
              ∨ (s.nodeAt s.root.toNat).kind = .internal ∧ s.decNode.toNat < 513
                ∧ n = (if t then (s.nodeAt s.decNode.toNat).r else (s.nodeAt s.decNode.toNat).l)) →
            n.toNat < 513 →
              ((s.nodeAt n.toNat).kind = .internal →
                  exec (.decBit t) s = .next { s with decNode := n, dstate := .descending })
                ∧ ((s.nodeAt n.toNat).kind = .leaf → (s.nodeAt n.toNat).sym = 256#9 →
                  exec (.decBit t) s = .next { s with decNode := n, dstate := .done })
                ∧ ((s.nodeAt n.toNat).kind = .leaf → (s.nodeAt n.toNat).sym ≠ 256#9 →
                  exec (.decBit t) s = .next { s with
                    yout := s.yout ++ [(s.nodeAt n.toNat).sym.extractLsb' 0 8]
                    decCount := s.decCount + 1#64, decNode := s.root, dstate := .atRoot })

/-- R123, R126: DEC_END in Done returns to TREE_READY; in AtRoot or Descending it raises MALFORMED_STREAM and changes nothing else. -/
def Obligations.DecEndChecksTheEnd : Prop :=
  encode .decEnd = 0x00000022#32
    ∧ (∀ s : State, s.faulted = false → s.phase ≠ .decoding →
        exec .decEnd s = .next (s.enterFault .seqError 0x00000022#32))
    ∧ ∀ s : State, s.faulted = false → s.phase = .decoding →
        (s.dstate = .done → exec .decEnd s = .next { s with phase := .treeReady })
          ∧ (s.dstate ≠ .done →
            exec .decEnd s = .next { s with faulted := true, faultCause := .malformedStream, faultCmd := 0x00000022#32 })

/-- R124: encoding any bytes with the tree of their own model and decoding the body with the same tree, any bits following it, gives
back the bytes, with DECCOUNT their number and no fault. -/
def Obligations.EncodeThenDecodeGivesBack : Prop :=
  ∀ (bs : List Byte) (s : State), s.faulted = false → bs.length ≤ 2 ^ 32 - 2 →
    ∃ (t u : State) (body : List Bool),
      runCommands (buildModel bs ++ [.treeBuild]) s = .next t ∧ t.faulted = false
        ∧ runCommands (encodeBytes bs) t = .next u ∧ u.faulted = false ∧ u.bout = t.bout ++ body
        ∧ ∀ pad : List Bool, ∃ v,
            runCommands (decodeBits (body ++ pad)) u = .next v ∧ v.faulted = false
              ∧ v.yout = u.yout ++ bs ∧ v.decCount = BitVec.ofNat 64 bs.length

/-- R124, R137, R169, R170: compressing any bytes and decompressing the header and the body on any block with the same HDR_EOF_SYM,
any bits following the body, gives back the bytes and raises no fault. -/
def Obligations.CompressThenDecompressGivesBack : Prop :=
  ∀ (bs : List Byte) (s u : State), s.faulted = false → s.params.legal → bs.length ≤ 2 ^ 32 - 2 →
    u.faulted = false → u.params = s.params →
    ∃ (t : State) (header : List Byte) (body : List Bool),
      runCommands (compressSequence bs) s = .next t ∧ t.faulted = false
        ∧ t.yout = s.yout ++ header ∧ t.bout = s.bout ++ body
        ∧ ∀ pad : List Bool, ∃ v,
            runCommands (decompressSequence header (body ++ pad)) u = .next v ∧ v.faulted = false
              ∧ v.yout = u.yout ++ bs ∧ v.decCount = BitVec.ofNat 64 bs.length

/-! ### Faults and the whole machine (spec/60_exceptions.md, spec/10_state.md) -/

/-- R75, R76: a well-formed command that is not legal in the phase raises SEQ_ERROR, and TREE_BUILD with NUM_SYMS = 0 raises
EMPTY_MODEL; nothing else changes.  A command that is legal in the phase raises neither. -/
def Obligations.OutOfPhaseCommandsFault : Prop :=
  ∀ s : State, s.faulted = false →
    (s.phase ≠ .counting →
        (∀ b, exec (.fmCount b) s = .next (s.enterFault .seqError (encode (.fmCount b))))
          ∧ exec .fmClose s = .next (s.enterFault .seqError 0x00000003#32))
      ∧ (s.phase ≠ .hdrLoading → ∀ b, exec (.hdrByte b) s = .next (s.enterFault .seqError (encode (.hdrByte b))))
      ∧ (s.phase ≠ .modelReady → s.phase ≠ .treeReady →
        exec .hdrEmit s = .next (s.enterFault .seqError 0x0000000A#32)
          ∧ exec .treeBuild s =
            .next (s.enterFault (if s.numSyms = 0#9 then .emptyModel else .seqError) 0x00000010#32))
      ∧ (s.phase ≠ .treeReady → s.phase ≠ .encoding → s.phase ≠ .decoding →
        ∀ sym : SymId, sym.toNat ≤ 256 →
          exec (.lutQuery sym) s = .next (s.enterFault .seqError (encode (.lutQuery sym))))
      ∧ (s.phase ≠ .treeReady →
        exec .encStart s = .next (s.enterFault .seqError 0x00000018#32)
          ∧ exec .decStart s = .next (s.enterFault .seqError 0x00000020#32))
      ∧ (s.phase ≠ .encoding →
        (∀ b, exec (.encSym b) s = .next (s.enterFault .seqError (encode (.encSym b))))
          ∧ exec .encEnd s = .next (s.enterFault .seqError 0x0000001A#32))
      ∧ (s.phase ≠ .decoding →
        (∀ t, exec (.decBit t) s = .next (s.enterFault .seqError (encode (.decBit t))))
          ∧ exec .decEnd s = .next (s.enterFault .seqError 0x00000022#32))
      ∧ ∀ (i : Instr) (t : State), exec i s = .next t → t.faulted = true →
          t.faultCause = .seqError ∨ t.faultCause = .emptyModel →
            (s.phase ≠ .counting ∧ ((∃ b, i = .fmCount b) ∨ i = .fmClose))
              ∨ (s.phase ≠ .hdrLoading ∧ ∃ b, i = .hdrByte b)
              ∨ (s.phase ≠ .modelReady ∧ s.phase ≠ .treeReady ∧ (i = .hdrEmit ∨ i = .treeBuild))
              ∨ (s.phase ≠ .treeReady ∧ s.phase ≠ .encoding ∧ s.phase ≠ .decoding ∧ ∃ sym, i = .lutQuery sym)
              ∨ (s.phase ≠ .treeReady ∧ (i = .encStart ∨ i = .decStart))
              ∨ (s.phase ≠ .encoding ∧ ((∃ b, i = .encSym b) ∨ i = .encEnd))
              ∨ (s.phase ≠ .decoding ∧ ((∃ b, i = .decBit b) ∨ i = .decEnd))

/-- R145, R146: a word that raises a fault writes FAULTED, a cause, and itself into FAULT_CMD, raises irq, and changes nothing else:
every write and every emission of its rule is discarded. -/
def Obligations.FaultsArePrecise : Prop :=
  (∀ (i : Instr) (s t : State), s.faulted = false → exec i s = .next t → t.faulted = true →
      t.faultCause ≠ .none ∧ t.irq = true
        ∧ t = { s with faulted := true, faultCause := t.faultCause, faultCmd := encode i })
    ∧ ∀ (w : Word) (s t : State), s.faulted = false → acceptWord w s = .next t → t.faulted = true →
      t.faultCause ≠ .none ∧ t.irq = true
        ∧ t = { s with faulted := true, faultCause := t.faultCause, faultCmd := w }

/-- R147, R148, R153: nothing but a reset clears a fault or changes its record. -/
def Obligations.FaultIsStickyUntilReset : Prop :=
  ∀ (s t : State), s.faulted = true → step s = .next t →
    (t.faulted = true ∧ t.faultCause = s.faultCause ∧ t.faultCmd = s.faultCmd ∧ t.irq = true ∧ t.phase = s.phase)
      ∨ ((∃ rest, s.hostIn = .rst :: rest ∨ s.hostIn = .command 0x000000FF#32 :: rest) ∧ t.AtReset)

/-- R19: PHASE changes only as the table of R19 lists; each command of the table that does not fault leaves the phase the table
gives, and so does the rst input. -/
def Obligations.PhaseChangesOnlyAsListed : Prop :=
  (∀ (i : Instr) (s t : State), exec i s = .next t → t.phase ≠ s.phase →
      (i = .fmClear ∧ t.phase = .counting)
        ∨ (i = .fmClose ∧ s.phase = .counting ∧ t.phase = .modelReady)
        ∨ (i = .hdrBegin ∧ t.phase = .hdrLoading)
        ∨ ((∃ b, i = .hdrByte b) ∧ s.phase = .hdrLoading ∧ 2 ≤ s.hpBytes.toNat ∧ (s.hpBytes.toNat - 2) % 8 = 7
          ∧ (s.hpBytes.toNat - 2) / 8 + 1 = s.hpN.toNat ∧ t.phase = .modelReady)
        ∨ (i = .treeBuild ∧ s.phase = .modelReady ∧ t.phase = .treeReady)
        ∨ (i = .encStart ∧ s.phase = .treeReady ∧ t.phase = .encoding)
        ∨ (i = .encEnd ∧ s.phase = .encoding ∧ t.phase = .treeReady)
        ∨ (i = .decStart ∧ s.phase = .treeReady ∧ t.phase = .decoding)
        ∨ (i = .decEnd ∧ s.phase = .decoding ∧ s.dstate = .done ∧ t.phase = .treeReady)
        ∨ (i = .softReset ∧ t.phase = .idle))
    ∧ (∀ (i : Instr) (s t : State), s.faulted = false → exec i s = .next t → t.faulted = false →
      (i = .fmClear → t.phase = .counting)
        ∧ (i = .fmClose → t.phase = .modelReady)
        ∧ (i = .hdrBegin → t.phase = .hdrLoading)
        ∧ ((∃ b, i = .hdrByte b) → 2 ≤ s.hpBytes.toNat → (s.hpBytes.toNat - 2) % 8 = 7 →
          (s.hpBytes.toNat - 2) / 8 + 1 = s.hpN.toNat → t.phase = .modelReady)
        ∧ (i = .treeBuild → t.phase = .treeReady)
        ∧ (i = .encStart → t.phase = .encoding)
        ∧ (i = .encEnd → t.phase = .treeReady)
        ∧ (i = .decStart → t.phase = .decoding)
        ∧ (i = .decEnd → t.phase = .treeReady))
    ∧ (∀ s t : State, exec .softReset s = .next t → t.phase = .idle)
    ∧ (∀ (s t : State) (rest : List HostEvent), s.hostIn = .rst :: rest → step s = .next t → t.phase = .idle)
    ∧ ∀ (i : Instr) (s t : State), s.faulted = false → exec i s = .next t → t.faulted = true → t.phase = s.phase

/-- R18, R20 to R22, R24, R25, R28 to R32, R115: which commands write each register and memory; every other command leaves it. -/
def Obligations.OnlyTheNamedCommandsWrite : Prop :=
  ∀ (i : Instr) (s t : State), exec i s = .next t → i ≠ .softReset →
    (i ≠ .fmClear → i ≠ .hdrBegin → (∀ b, i ≠ .fmCount b) → i ≠ .fmClose → (∀ b, i ≠ .hdrByte b) →
        t.freq = s.freq ∧ t.numSyms = s.numSyms ∧ t.total = s.total)
      ∧ (i ≠ .fmClear → i ≠ .hdrBegin → i ≠ .treeBuild →
        t.node = s.node ∧ t.nodeCount = s.nodeCount ∧ t.root = s.root ∧ t.rootWeight = s.rootWeight ∧ t.lut = s.lut)
      ∧ (i ≠ .decStart → (∀ b, i ≠ .decBit b) →
        t.dstate = s.dstate ∧ t.decNode = s.decNode ∧ t.decCount = s.decCount)
      ∧ (i ≠ .encStart → (∀ b, i ≠ .encSym b) → i ≠ .encEnd → t.bitCount = s.bitCount)
      ∧ (i ≠ .fmClear → i ≠ .hdrBegin → (∀ b, i ≠ .hdrByte b) →
        t.hpBytes = s.hpBytes ∧ t.hpN = s.hpN ∧ t.hpBuf = s.hpBuf)
      ∧ ((∀ sym, i ≠ .fmQuery sym) → t.qCount = s.qCount)
      ∧ ((∀ sym, i ≠ .lutQuery sym) → t.lutLenR = s.lutLenR ∧ t.lutBitsR = s.lutBitsR)
      ∧ t.params = s.params ∧ t.busy = s.busy

/-- R35, R59: commands other than SOFT_RESET only append to the streams; BOUT only by ENC_SYM and ENC_END, YOUT only by DEC_BIT and
HDR_EMIT, so no command writes both. -/
def Obligations.StreamsAreAppendOnly : Prop :=
  ∀ (i : Instr) (s t : State), exec i s = .next t → i ≠ .softReset →
    (∃ bits, t.bout = s.bout ++ bits ∧ (bits ≠ [] → (∃ b, i = .encSym b) ∨ i = .encEnd))
      ∧ (∃ bytes, t.yout = s.yout ++ bytes ∧ (bytes ≠ [] → (∃ b, i = .decBit b) ∨ i = .hdrEmit))

/-- R164: the state after reset has every element at its reset value, and it meets the invariant. -/
def Obligations.ResetMeetsTheInvariant : Prop :=
  State.reset.AtReset ∧ State.reset.Inv

/-- R23, R26, R27, R33, R34, R43, R46, R117: every step keeps the invariant, whatever the host does. -/
def Obligations.StepKeepsInv : Prop :=
  ∀ s t : State, s.Inv → step s = .next t → t.Inv

/-- R73, R149: from a state that meets the invariant no step stops: every word and every host action has a next state. -/
def Obligations.EveryStepAnswersNext : Prop :=
  ∀ s : State, s.Inv → ∃ t, step s = .next t

/-- Where the model stops, which is the model's choice (log entry 7) for states that R46 and R23 say never arise.  An index the arena
has no entry for stops DEC_BIT; a queue without an element to be the root stops TREE_BUILD.  No state that meets the invariant is
one of these (EveryStepAnswersNext). -/
def Obligations.WhereTheModelStops : Prop :=
  ∀ s : State, s.faulted = false →
    (s.phase = .modelReady ∨ s.phase = .treeReady → (∀ i, i ≤ 256 → s.freqAt i = 0#32) →
        exec .treeBuild s = .fault .noRootElement)
      ∧ (s.phase = .decoding → s.dstate ≠ .done → 513 ≤ s.root.toNat →
        ∀ t, exec (.decBit t) s = .fault (.nodeIndexOutOfRange s.root.toNat))
      ∧ (s.phase = .decoding → s.dstate ≠ .done → s.root.toNat < 513 → (s.nodeAt s.root.toNat).kind = .internal →
        513 ≤ s.decNode.toNat → ∀ t, exec (.decBit t) s = .fault (.nodeIndexOutOfRange s.decNode.toNat))
      ∧ (s.phase = .decoding → s.dstate ≠ .done → s.root.toNat < 513 → (s.nodeAt s.root.toNat).kind = .internal →
        s.decNode.toNat < 513 → 513 ≤ (s.nodeAt s.decNode.toNat).l.toNat →
        exec (.decBit false) s = .fault (.nodeIndexOutOfRange (s.nodeAt s.decNode.toNat).l.toNat))
      ∧ (s.phase = .decoding → s.dstate ≠ .done → s.root.toNat < 513 → (s.nodeAt s.root.toNat).kind = .internal →
        s.decNode.toNat < 513 → 513 ≤ (s.nodeAt s.decNode.toNat).r.toNat →
        exec (.decBit true) s = .fault (.nodeIndexOutOfRange (s.nodeAt s.decNode.toNat).r.toNat))

/-! ### The merges of TREE_BUILD (spec/41_tree_codetable.md) -/

/-- R93, R96: for every entry k that a merge creates, the entries of the queue being the earlier ones that no merge before k took: the
0-branch is the one of least key (weight, index), the 1-branch the one of least key among the others, and the new node is internal,
has no symbol and weighs their sum.  At the end one entry waits, the root. -/
def Obligations.MergeTakesTheTwoLeast : Prop :=
  ∀ s : State, s.faulted = false → (s.phase = .modelReady ∨ s.phase = .treeReady) → (∃ i, i ≤ 256 ∧ s.freqAt i ≠ 0#32) →
    ∃ t, exec .treeBuild s = .next t
      ∧ (∀ k, (presentSyms s.freq).length ≤ k → k < t.nodeCount.toNat →
        (t.nodeAt k).kind = .internal ∧ (t.nodeAt k).sym = 0x1FF#9
          ∧ (t.nodeAt k).w = (t.nodeAt (t.nodeAt k).l.toNat).w + (t.nodeAt (t.nodeAt k).r.toNat).w
          ∧ Waiting t.node (presentSyms s.freq).length k (t.nodeAt k).l.toNat
          ∧ Waiting t.node (presentSyms s.freq).length k (t.nodeAt k).r.toNat
          ∧ (t.nodeAt k).l ≠ (t.nodeAt k).r
          ∧ (∀ j, Waiting t.node (presentSyms s.freq).length k j → j ≠ (t.nodeAt k).l.toNat →
            KeyBefore t.node (t.nodeAt k).l.toNat j)
          ∧ ∀ j, Waiting t.node (presentSyms s.freq).length k j → j ≠ (t.nodeAt k).l.toNat → j ≠ (t.nodeAt k).r.toNat →
            KeyBefore t.node (t.nodeAt k).r.toNat j)
      ∧ ∀ j, Waiting t.node (presentSyms s.freq).length t.nodeCount.toNat j ↔ j = t.root.toNat
end

