-- ==== Sys2Proof/Laws/Memory.lean ====
section
/-! SUPPORT. The laws of the internal memories: read after write, and that a write keeps the canonical form, so that equal memories
are equal lists. -/

namespace Sys2Proof.Machine

section
variable {α : Type} [DecidableEq α] {z v : α} {m : Memory α} {lo n i j : Nat}

omit [DecidableEq α] in
@[simp] theorem Memory.read_nil : Memory.read z ([] : Memory α) i = z := rfl

@[simp] theorem Memory.wf_nil : Memory.wf z n ([] : Memory α) = true := rfl

theorem Memory.wfFrom_cons {k : Nat} {u : α} :
    Memory.wfFrom z lo n ((k, u) :: m) = true ↔ lo ≤ k ∧ k < n ∧ u ≠ z ∧ Memory.wfFrom z (k + 1) n m = true := by
  simp [Memory.wfFrom, and_assoc]

theorem Memory.wfFrom_mono {lo' : Nat} (h : lo' ≤ lo) (hm : Memory.wfFrom z lo n m = true) :
    Memory.wfFrom z lo' n m = true := by
  cases m with
  | nil => rfl
  | cons p m =>
    obtain ⟨k, u⟩ := p
    rw [Memory.wfFrom_cons] at hm ⊢
    exact ⟨h.trans hm.1, hm.2⟩

/-- Below the first index of a canonical memory, every entry is the zero entry. -/
theorem Memory.read_below (hm : Memory.wfFrom z lo n m = true) (h : j < lo) : Memory.read z m j = z := by
  induction m generalizing lo with
  | nil => rfl
  | cons p m ih =>
    obtain ⟨k, u⟩ := p
    obtain ⟨hlo, -, -, hm⟩ := Memory.wfFrom_cons.1 hm
    simp only [Memory.read]
    rw [if_neg (by omega)]
    exact ih hm (by omega)

/-- At and above the size of a canonical memory, every entry is the zero entry. -/
theorem Memory.read_above (hm : Memory.wfFrom z lo n m = true) (h : n ≤ j) : Memory.read z m j = z := by
  induction m generalizing lo with
  | nil => rfl
  | cons p m ih =>
    obtain ⟨k, u⟩ := p
    obtain ⟨-, hk, -, hm⟩ := Memory.wfFrom_cons.1 hm
    simp only [Memory.read]
    rw [if_neg (by omega)]
    exact ih hm

theorem Memory.wfFrom_write (hm : Memory.wfFrom z lo n m = true) (hlo : lo ≤ i) (hi : i < n) :
    Memory.wfFrom z lo n (Memory.write z m i v) = true := by
  induction m generalizing lo with
  | nil =>
    simp only [Memory.write]
    split
    · rfl
    · rename_i hv
      exact Memory.wfFrom_cons.2 ⟨hlo, hi, hv, rfl⟩
  | cons p m ih =>
    obtain ⟨k, u⟩ := p
    have hm' := hm
    obtain ⟨hk, hkn, hu, hrest⟩ := Memory.wfFrom_cons.1 hm
    simp only [Memory.write]
    split_ifs with h1 h2 h3 h4
    · exact hm'
    · exact Memory.wfFrom_cons.2 ⟨hlo, hi, h2, Memory.wfFrom_cons.2 ⟨by omega, hkn, hu, hrest⟩⟩
    · exact Memory.wfFrom_mono (by omega) hrest
    · subst h3
      exact Memory.wfFrom_cons.2 ⟨hlo, hi, h4, hrest⟩
    · exact Memory.wfFrom_cons.2 ⟨hk, hkn, hu, ih hrest (by omega)⟩

/-- A write inside the memory keeps the canonical form. -/
theorem Memory.wf_write (hm : Memory.wf z n m = true) (hi : i < n) : Memory.wf z n (Memory.write z m i v) = true :=
  Memory.wfFrom_write hm (Nat.zero_le _) hi

theorem Memory.readFrom_write (hm : Memory.wfFrom z lo n m = true) :
    Memory.read z (Memory.write z m i v) j = if i = j then v else Memory.read z m j := by
  induction m generalizing lo with
  | nil =>
    simp only [Memory.write]
    split
    · simp_all
    · rfl
  | cons p m ih =>
    obtain ⟨k, u⟩ := p
    obtain ⟨hk, hkn, hu, hrest⟩ := Memory.wfFrom_cons.1 hm
    have below : ∀ {x}, x ≤ k → Memory.read z m x = z := fun hx => Memory.read_below hrest (by omega)
    rcases Nat.lt_trichotomy i k with hlt | heq | hgt
    · by_cases hv : v = z
      · by_cases hij : i = j
        · subst hij
          simp [Memory.write, Memory.read, hlt, hv, below hlt.le, hlt.ne']
        · simp [Memory.write, hlt, hv, hij]
      · simp [Memory.write, Memory.read, hlt, hv]
    · subst heq
      by_cases hv : v = z
      · by_cases hij : i = j
        · subst hij
          simp [Memory.write, hv, below le_rfl]
        · simp [Memory.write, Memory.read, hv, hij]
      · by_cases hij : i = j <;> simp [Memory.write, Memory.read, hv, hij]
    · have hw : Memory.write z ((k, u) :: m) i v = (k, u) :: Memory.write z m i v := by
        simp [Memory.write, Nat.not_lt.2 hgt.le, hgt.ne']
      rw [hw]
      simp only [Memory.read, ih hrest]
      by_cases hkj : k = j
      · subst hkj
        simp [hgt.ne']
      · simp [hkj]

theorem Memory.wfFrom_of_le {n' : Nat} (h : n ≤ n') (hm : Memory.wfFrom z lo n m = true) :
    Memory.wfFrom z lo n' m = true := by
  induction m generalizing lo with
  | nil => rfl
  | cons p m ih =>
    obtain ⟨k, u⟩ := p
    obtain ⟨hk, hkn, hu, hrest⟩ := Memory.wfFrom_cons.1 hm
    exact Memory.wfFrom_cons.2 ⟨hk, by omega, hu, ih hrest⟩

/-- A canonical memory is one of any larger size. -/
theorem Memory.wf_of_le {n' : Nat} (h : n ≤ n') (hm : Memory.wf z n m = true) : Memory.wf z n' m = true :=
  Memory.wfFrom_of_le h hm

/-- R47: a write sets its entry and leaves every other entry alone. -/
theorem Memory.read_write (hm : Memory.wf z n m = true) :
    Memory.read z (Memory.write z m i v) j = if i = j then v else Memory.read z m j :=
  Memory.readFrom_write hm

@[simp] theorem Memory.read_write_same (hm : Memory.wf z n m = true) :
    Memory.read z (Memory.write z m i v) i = v := by
  rw [Memory.read_write hm, if_pos rfl]

theorem Memory.read_write_other (hm : Memory.wf z n m = true) (h : i ≠ j) :
    Memory.read z (Memory.write z m i v) j = Memory.read z m j := by
  rw [Memory.read_write hm, if_neg h]

theorem Memory.extFrom {m' : Memory α} (hm : Memory.wfFrom z lo n m = true) (hm' : Memory.wfFrom z lo n m' = true)
    (h : ∀ i, Memory.read z m i = Memory.read z m' i) : m = m' := by
  induction m generalizing lo m' with
  | nil =>
    cases m' with
    | nil => rfl
    | cons p m' =>
      obtain ⟨k, u⟩ := p
      obtain ⟨-, -, hu, -⟩ := Memory.wfFrom_cons.1 hm'
      have := h k
      simp [Memory.read] at this
      exact absurd this.symm hu
  | cons p m ih =>
    obtain ⟨k, u⟩ := p
    obtain ⟨hk, hkn, hu, hr⟩ := Memory.wfFrom_cons.1 hm
    cases m' with
    | nil =>
      have := h k
      simp [Memory.read] at this
      exact absurd this hu
    | cons p' m' =>
      obtain ⟨k', u'⟩ := p'
      obtain ⟨hk', hkn', hu', hr'⟩ := Memory.wfFrom_cons.1 hm'
      rcases Nat.lt_trichotomy k k' with hlt | heq | hgt
      · have := h k
        simp only [Memory.read, if_true] at this
        rw [if_neg (by omega), Memory.read_below hr' (by omega)] at this
        exact absurd this hu
      · subst heq
        have hkk := h k
        simp only [Memory.read, if_true] at hkk
        subst hkk
        refine congrArg _ (ih hr hr' fun i => ?_)
        by_cases hik : k = i
        · subst hik
          rw [Memory.read_below hr (by omega), Memory.read_below hr' (by omega)]
        · have := h i
          simpa [Memory.read, hik] using this
      · have := h k'
        simp only [Memory.read, if_true] at this
        rw [if_neg (by omega), Memory.read_below hr (by omega)] at this
        exact absurd this.symm hu'

/-- Two canonical memories that read alike are the same data. -/
theorem Memory.ext {m' : Memory α} (hm : Memory.wf z n m = true) (hm' : Memory.wf z n m' = true)
    (h : ∀ i, Memory.read z m i = Memory.read z m' i) : m = m' :=
  Memory.extFrom hm hm' h

end

end Sys2Proof.Machine
end

