-- ==== Sys2Proof/Laws/State.lean ====
section
/-! SUPPORT. One lemma per field per shared update of the state, each true by rfl: what the update leaves in the field. -/

namespace Sys2Proof.Machine

/-! ### enterFault -/

@[simp] theorem State.enterFault_phase (s : State) (c : Cause) (cmd : Word) : (s.enterFault c cmd).phase = s.phase := rfl
@[simp] theorem State.enterFault_dstate (s : State) (c : Cause) (cmd : Word) : (s.enterFault c cmd).dstate = s.dstate := rfl
@[simp] theorem State.enterFault_freq (s : State) (c : Cause) (cmd : Word) : (s.enterFault c cmd).freq = s.freq := rfl
@[simp] theorem State.enterFault_numSyms (s : State) (c : Cause) (cmd : Word) : (s.enterFault c cmd).numSyms = s.numSyms := rfl
@[simp] theorem State.enterFault_total (s : State) (c : Cause) (cmd : Word) : (s.enterFault c cmd).total = s.total := rfl
@[simp] theorem State.enterFault_node (s : State) (c : Cause) (cmd : Word) : (s.enterFault c cmd).node = s.node := rfl
@[simp] theorem State.enterFault_nodeCount (s : State) (c : Cause) (cmd : Word) : (s.enterFault c cmd).nodeCount = s.nodeCount := rfl
@[simp] theorem State.enterFault_root (s : State) (c : Cause) (cmd : Word) : (s.enterFault c cmd).root = s.root := rfl
@[simp] theorem State.enterFault_rootWeight (s : State) (c : Cause) (cmd : Word) : (s.enterFault c cmd).rootWeight = s.rootWeight := rfl
@[simp] theorem State.enterFault_pq (s : State) (c : Cause) (cmd : Word) : (s.enterFault c cmd).pq = s.pq := rfl
@[simp] theorem State.enterFault_travStack (s : State) (c : Cause) (cmd : Word) : (s.enterFault c cmd).travStack = s.travStack := rfl
@[simp] theorem State.enterFault_lut (s : State) (c : Cause) (cmd : Word) : (s.enterFault c cmd).lut = s.lut := rfl
@[simp] theorem State.enterFault_bitCount (s : State) (c : Cause) (cmd : Word) : (s.enterFault c cmd).bitCount = s.bitCount := rfl
@[simp] theorem State.enterFault_encShift (s : State) (c : Cause) (cmd : Word) : (s.enterFault c cmd).encShift = s.encShift := rfl
@[simp] theorem State.enterFault_decNode (s : State) (c : Cause) (cmd : Word) : (s.enterFault c cmd).decNode = s.decNode := rfl
@[simp] theorem State.enterFault_decCount (s : State) (c : Cause) (cmd : Word) : (s.enterFault c cmd).decCount = s.decCount := rfl
@[simp] theorem State.enterFault_hpBytes (s : State) (c : Cause) (cmd : Word) : (s.enterFault c cmd).hpBytes = s.hpBytes := rfl
@[simp] theorem State.enterFault_hpN (s : State) (c : Cause) (cmd : Word) : (s.enterFault c cmd).hpN = s.hpN := rfl
@[simp] theorem State.enterFault_hpBuf (s : State) (c : Cause) (cmd : Word) : (s.enterFault c cmd).hpBuf = s.hpBuf := rfl
@[simp] theorem State.enterFault_qCount (s : State) (c : Cause) (cmd : Word) : (s.enterFault c cmd).qCount = s.qCount := rfl
@[simp] theorem State.enterFault_lutLenR (s : State) (c : Cause) (cmd : Word) : (s.enterFault c cmd).lutLenR = s.lutLenR := rfl
@[simp] theorem State.enterFault_lutBitsR (s : State) (c : Cause) (cmd : Word) : (s.enterFault c cmd).lutBitsR = s.lutBitsR := rfl
@[simp] theorem State.enterFault_faulted (s : State) (c : Cause) (cmd : Word) : (s.enterFault c cmd).faulted = true := rfl
@[simp] theorem State.enterFault_faultCause (s : State) (c : Cause) (cmd : Word) : (s.enterFault c cmd).faultCause = c := rfl
@[simp] theorem State.enterFault_faultCmd (s : State) (c : Cause) (cmd : Word) : (s.enterFault c cmd).faultCmd = cmd := rfl
@[simp] theorem State.enterFault_busy (s : State) (c : Cause) (cmd : Word) : (s.enterFault c cmd).busy = s.busy := rfl
@[simp] theorem State.enterFault_bout (s : State) (c : Cause) (cmd : Word) : (s.enterFault c cmd).bout = s.bout := rfl
@[simp] theorem State.enterFault_yout (s : State) (c : Cause) (cmd : Word) : (s.enterFault c cmd).yout = s.yout := rfl
@[simp] theorem State.enterFault_params (s : State) (c : Cause) (cmd : Word) : (s.enterFault c cmd).params = s.params := rfl
@[simp] theorem State.enterFault_hostIn (s : State) (c : Cause) (cmd : Word) : (s.enterFault c cmd).hostIn = s.hostIn := rfl
@[simp] theorem State.enterFault_takenBits (s : State) (c : Cause) (cmd : Word) : (s.enterFault c cmd).takenBits = s.takenBits := rfl
@[simp] theorem State.enterFault_takenBytes (s : State) (c : Cause) (cmd : Word) : (s.enterFault c cmd).takenBytes = s.takenBytes := rfl
@[simp] theorem State.enterFault_regReads (s : State) (c : Cause) (cmd : Word) : (s.enterFault c cmd).regReads = s.regReads := rfl
@[simp] theorem State.enterFault_draws (s : State) (c : Cause) (cmd : Word) : (s.enterFault c cmd).draws = s.draws := rfl

/-! ### modelReset -/

@[simp] theorem State.modelReset_phase (s : State) : (s.modelReset).phase = s.phase := rfl
@[simp] theorem State.modelReset_dstate (s : State) : (s.modelReset).dstate = s.dstate := rfl
@[simp] theorem State.modelReset_freq (s : State) : (s.modelReset).freq = [] := rfl
@[simp] theorem State.modelReset_numSyms (s : State) : (s.modelReset).numSyms = 0#9 := rfl
@[simp] theorem State.modelReset_total (s : State) : (s.modelReset).total = 0#32 := rfl
@[simp] theorem State.modelReset_node (s : State) : (s.modelReset).node = [] := rfl
@[simp] theorem State.modelReset_nodeCount (s : State) : (s.modelReset).nodeCount = 0#10 := rfl
@[simp] theorem State.modelReset_root (s : State) : (s.modelReset).root = 0#10 := rfl
@[simp] theorem State.modelReset_rootWeight (s : State) : (s.modelReset).rootWeight = 0#32 := rfl
@[simp] theorem State.modelReset_pq (s : State) : (s.modelReset).pq = s.pq := rfl
@[simp] theorem State.modelReset_travStack (s : State) : (s.modelReset).travStack = s.travStack := rfl
@[simp] theorem State.modelReset_lut (s : State) : (s.modelReset).lut = [] := rfl
@[simp] theorem State.modelReset_bitCount (s : State) : (s.modelReset).bitCount = s.bitCount := rfl
@[simp] theorem State.modelReset_encShift (s : State) : (s.modelReset).encShift = s.encShift := rfl
@[simp] theorem State.modelReset_decNode (s : State) : (s.modelReset).decNode = s.decNode := rfl
@[simp] theorem State.modelReset_decCount (s : State) : (s.modelReset).decCount = s.decCount := rfl
@[simp] theorem State.modelReset_hpBytes (s : State) : (s.modelReset).hpBytes = 0#12 := rfl
@[simp] theorem State.modelReset_hpN (s : State) : (s.modelReset).hpN = 0#16 := rfl
@[simp] theorem State.modelReset_hpBuf (s : State) : (s.modelReset).hpBuf = 0#64 := rfl
@[simp] theorem State.modelReset_qCount (s : State) : (s.modelReset).qCount = s.qCount := rfl
@[simp] theorem State.modelReset_lutLenR (s : State) : (s.modelReset).lutLenR = s.lutLenR := rfl
@[simp] theorem State.modelReset_lutBitsR (s : State) : (s.modelReset).lutBitsR = s.lutBitsR := rfl
@[simp] theorem State.modelReset_faulted (s : State) : (s.modelReset).faulted = s.faulted := rfl
@[simp] theorem State.modelReset_faultCause (s : State) : (s.modelReset).faultCause = s.faultCause := rfl
@[simp] theorem State.modelReset_faultCmd (s : State) : (s.modelReset).faultCmd = s.faultCmd := rfl
@[simp] theorem State.modelReset_busy (s : State) : (s.modelReset).busy = s.busy := rfl
@[simp] theorem State.modelReset_bout (s : State) : (s.modelReset).bout = s.bout := rfl
@[simp] theorem State.modelReset_yout (s : State) : (s.modelReset).yout = s.yout := rfl
@[simp] theorem State.modelReset_params (s : State) : (s.modelReset).params = s.params := rfl
@[simp] theorem State.modelReset_hostIn (s : State) : (s.modelReset).hostIn = s.hostIn := rfl
@[simp] theorem State.modelReset_takenBits (s : State) : (s.modelReset).takenBits = s.takenBits := rfl
@[simp] theorem State.modelReset_takenBytes (s : State) : (s.modelReset).takenBytes = s.takenBytes := rfl
@[simp] theorem State.modelReset_regReads (s : State) : (s.modelReset).regReads = s.regReads := rfl
@[simp] theorem State.modelReset_draws (s : State) : (s.modelReset).draws = s.draws := rfl

/-! ### applyReset: the reset values of R42 -/

@[simp] theorem State.applyReset_phase (s : State) : (s.applyReset).phase = .idle := rfl
@[simp] theorem State.applyReset_dstate (s : State) : (s.applyReset).dstate = .atRoot := rfl
@[simp] theorem State.applyReset_freq (s : State) : (s.applyReset).freq = [] := rfl
@[simp] theorem State.applyReset_numSyms (s : State) : (s.applyReset).numSyms = 0#9 := rfl
@[simp] theorem State.applyReset_total (s : State) : (s.applyReset).total = 0#32 := rfl
@[simp] theorem State.applyReset_node (s : State) : (s.applyReset).node = [] := rfl
@[simp] theorem State.applyReset_nodeCount (s : State) : (s.applyReset).nodeCount = 0#10 := rfl
@[simp] theorem State.applyReset_root (s : State) : (s.applyReset).root = 0#10 := rfl
@[simp] theorem State.applyReset_rootWeight (s : State) : (s.applyReset).rootWeight = 0#32 := rfl
@[simp] theorem State.applyReset_pq (s : State) : (s.applyReset).pq = [] := rfl
@[simp] theorem State.applyReset_travStack (s : State) : (s.applyReset).travStack = [] := rfl
@[simp] theorem State.applyReset_lut (s : State) : (s.applyReset).lut = [] := rfl
@[simp] theorem State.applyReset_bitCount (s : State) : (s.applyReset).bitCount = 0#64 := rfl
@[simp] theorem State.applyReset_encShift (s : State) : (s.applyReset).encShift = 0#256 := rfl
@[simp] theorem State.applyReset_decNode (s : State) : (s.applyReset).decNode = 0#10 := rfl
@[simp] theorem State.applyReset_decCount (s : State) : (s.applyReset).decCount = 0#64 := rfl
@[simp] theorem State.applyReset_hpBytes (s : State) : (s.applyReset).hpBytes = 0#12 := rfl
@[simp] theorem State.applyReset_hpN (s : State) : (s.applyReset).hpN = 0#16 := rfl
@[simp] theorem State.applyReset_hpBuf (s : State) : (s.applyReset).hpBuf = 0#64 := rfl
@[simp] theorem State.applyReset_qCount (s : State) : (s.applyReset).qCount = 0#32 := rfl
@[simp] theorem State.applyReset_lutLenR (s : State) : (s.applyReset).lutLenR = 0#9 := rfl
@[simp] theorem State.applyReset_lutBitsR (s : State) : (s.applyReset).lutBitsR = LutBits.zero := rfl
@[simp] theorem State.applyReset_faulted (s : State) : (s.applyReset).faulted = false := rfl
@[simp] theorem State.applyReset_faultCause (s : State) : (s.applyReset).faultCause = .none := rfl
@[simp] theorem State.applyReset_faultCmd (s : State) : (s.applyReset).faultCmd = 0#32 := rfl
@[simp] theorem State.applyReset_busy (s : State) : (s.applyReset).busy = false := rfl
@[simp] theorem State.applyReset_bout (s : State) : (s.applyReset).bout = [] := rfl
@[simp] theorem State.applyReset_yout (s : State) : (s.applyReset).yout = [] := rfl
@[simp] theorem State.applyReset_params (s : State) : (s.applyReset).params = s.params := rfl
@[simp] theorem State.applyReset_hostIn (s : State) : (s.applyReset).hostIn = s.hostIn := rfl
@[simp] theorem State.applyReset_takenBits (s : State) : (s.applyReset).takenBits = [] := rfl
@[simp] theorem State.applyReset_takenBytes (s : State) : (s.applyReset).takenBytes = [] := rfl
@[simp] theorem State.applyReset_regReads (s : State) : (s.applyReset).regReads = [] := rfl
@[simp] theorem State.applyReset_draws (s : State) : (s.applyReset).draws = s.draws := rfl

/-! ### emitBit -/

@[simp] theorem State.emitBit_phase (s : State) (b : Bool) : (s.emitBit b).phase = s.phase := rfl
@[simp] theorem State.emitBit_dstate (s : State) (b : Bool) : (s.emitBit b).dstate = s.dstate := rfl
@[simp] theorem State.emitBit_freq (s : State) (b : Bool) : (s.emitBit b).freq = s.freq := rfl
@[simp] theorem State.emitBit_numSyms (s : State) (b : Bool) : (s.emitBit b).numSyms = s.numSyms := rfl
@[simp] theorem State.emitBit_total (s : State) (b : Bool) : (s.emitBit b).total = s.total := rfl
@[simp] theorem State.emitBit_node (s : State) (b : Bool) : (s.emitBit b).node = s.node := rfl
@[simp] theorem State.emitBit_nodeCount (s : State) (b : Bool) : (s.emitBit b).nodeCount = s.nodeCount := rfl
@[simp] theorem State.emitBit_root (s : State) (b : Bool) : (s.emitBit b).root = s.root := rfl
@[simp] theorem State.emitBit_rootWeight (s : State) (b : Bool) : (s.emitBit b).rootWeight = s.rootWeight := rfl
@[simp] theorem State.emitBit_pq (s : State) (b : Bool) : (s.emitBit b).pq = s.pq := rfl
@[simp] theorem State.emitBit_travStack (s : State) (b : Bool) : (s.emitBit b).travStack = s.travStack := rfl
@[simp] theorem State.emitBit_lut (s : State) (b : Bool) : (s.emitBit b).lut = s.lut := rfl
@[simp] theorem State.emitBit_bitCount (s : State) (b : Bool) : (s.emitBit b).bitCount = s.bitCount := rfl
@[simp] theorem State.emitBit_encShift (s : State) (b : Bool) : (s.emitBit b).encShift = s.encShift := rfl
@[simp] theorem State.emitBit_decNode (s : State) (b : Bool) : (s.emitBit b).decNode = s.decNode := rfl
@[simp] theorem State.emitBit_decCount (s : State) (b : Bool) : (s.emitBit b).decCount = s.decCount := rfl
@[simp] theorem State.emitBit_hpBytes (s : State) (b : Bool) : (s.emitBit b).hpBytes = s.hpBytes := rfl
@[simp] theorem State.emitBit_hpN (s : State) (b : Bool) : (s.emitBit b).hpN = s.hpN := rfl
@[simp] theorem State.emitBit_hpBuf (s : State) (b : Bool) : (s.emitBit b).hpBuf = s.hpBuf := rfl
@[simp] theorem State.emitBit_qCount (s : State) (b : Bool) : (s.emitBit b).qCount = s.qCount := rfl
@[simp] theorem State.emitBit_lutLenR (s : State) (b : Bool) : (s.emitBit b).lutLenR = s.lutLenR := rfl
@[simp] theorem State.emitBit_lutBitsR (s : State) (b : Bool) : (s.emitBit b).lutBitsR = s.lutBitsR := rfl
@[simp] theorem State.emitBit_faulted (s : State) (b : Bool) : (s.emitBit b).faulted = s.faulted := rfl
@[simp] theorem State.emitBit_faultCause (s : State) (b : Bool) : (s.emitBit b).faultCause = s.faultCause := rfl
@[simp] theorem State.emitBit_faultCmd (s : State) (b : Bool) : (s.emitBit b).faultCmd = s.faultCmd := rfl
@[simp] theorem State.emitBit_busy (s : State) (b : Bool) : (s.emitBit b).busy = s.busy := rfl
@[simp] theorem State.emitBit_bout (s : State) (b : Bool) : (s.emitBit b).bout = s.bout ++ [b] := rfl
@[simp] theorem State.emitBit_yout (s : State) (b : Bool) : (s.emitBit b).yout = s.yout := rfl
@[simp] theorem State.emitBit_params (s : State) (b : Bool) : (s.emitBit b).params = s.params := rfl
@[simp] theorem State.emitBit_hostIn (s : State) (b : Bool) : (s.emitBit b).hostIn = s.hostIn := rfl
@[simp] theorem State.emitBit_takenBits (s : State) (b : Bool) : (s.emitBit b).takenBits = s.takenBits := rfl
@[simp] theorem State.emitBit_takenBytes (s : State) (b : Bool) : (s.emitBit b).takenBytes = s.takenBytes := rfl
@[simp] theorem State.emitBit_regReads (s : State) (b : Bool) : (s.emitBit b).regReads = s.regReads := rfl
@[simp] theorem State.emitBit_draws (s : State) (b : Bool) : (s.emitBit b).draws = s.draws := rfl

/-! ### emitBytes -/

@[simp] theorem State.emitBytes_phase (s : State) (bs : List Byte) : (s.emitBytes bs).phase = s.phase := rfl
@[simp] theorem State.emitBytes_dstate (s : State) (bs : List Byte) : (s.emitBytes bs).dstate = s.dstate := rfl
@[simp] theorem State.emitBytes_freq (s : State) (bs : List Byte) : (s.emitBytes bs).freq = s.freq := rfl
@[simp] theorem State.emitBytes_numSyms (s : State) (bs : List Byte) : (s.emitBytes bs).numSyms = s.numSyms := rfl
@[simp] theorem State.emitBytes_total (s : State) (bs : List Byte) : (s.emitBytes bs).total = s.total := rfl
@[simp] theorem State.emitBytes_node (s : State) (bs : List Byte) : (s.emitBytes bs).node = s.node := rfl
@[simp] theorem State.emitBytes_nodeCount (s : State) (bs : List Byte) : (s.emitBytes bs).nodeCount = s.nodeCount := rfl
@[simp] theorem State.emitBytes_root (s : State) (bs : List Byte) : (s.emitBytes bs).root = s.root := rfl
@[simp] theorem State.emitBytes_rootWeight (s : State) (bs : List Byte) : (s.emitBytes bs).rootWeight = s.rootWeight := rfl
@[simp] theorem State.emitBytes_pq (s : State) (bs : List Byte) : (s.emitBytes bs).pq = s.pq := rfl
@[simp] theorem State.emitBytes_travStack (s : State) (bs : List Byte) : (s.emitBytes bs).travStack = s.travStack := rfl
@[simp] theorem State.emitBytes_lut (s : State) (bs : List Byte) : (s.emitBytes bs).lut = s.lut := rfl
@[simp] theorem State.emitBytes_bitCount (s : State) (bs : List Byte) : (s.emitBytes bs).bitCount = s.bitCount := rfl
@[simp] theorem State.emitBytes_encShift (s : State) (bs : List Byte) : (s.emitBytes bs).encShift = s.encShift := rfl
@[simp] theorem State.emitBytes_decNode (s : State) (bs : List Byte) : (s.emitBytes bs).decNode = s.decNode := rfl
@[simp] theorem State.emitBytes_decCount (s : State) (bs : List Byte) : (s.emitBytes bs).decCount = s.decCount := rfl
@[simp] theorem State.emitBytes_hpBytes (s : State) (bs : List Byte) : (s.emitBytes bs).hpBytes = s.hpBytes := rfl
@[simp] theorem State.emitBytes_hpN (s : State) (bs : List Byte) : (s.emitBytes bs).hpN = s.hpN := rfl
@[simp] theorem State.emitBytes_hpBuf (s : State) (bs : List Byte) : (s.emitBytes bs).hpBuf = s.hpBuf := rfl
@[simp] theorem State.emitBytes_qCount (s : State) (bs : List Byte) : (s.emitBytes bs).qCount = s.qCount := rfl
@[simp] theorem State.emitBytes_lutLenR (s : State) (bs : List Byte) : (s.emitBytes bs).lutLenR = s.lutLenR := rfl
@[simp] theorem State.emitBytes_lutBitsR (s : State) (bs : List Byte) : (s.emitBytes bs).lutBitsR = s.lutBitsR := rfl
@[simp] theorem State.emitBytes_faulted (s : State) (bs : List Byte) : (s.emitBytes bs).faulted = s.faulted := rfl
@[simp] theorem State.emitBytes_faultCause (s : State) (bs : List Byte) : (s.emitBytes bs).faultCause = s.faultCause := rfl
@[simp] theorem State.emitBytes_faultCmd (s : State) (bs : List Byte) : (s.emitBytes bs).faultCmd = s.faultCmd := rfl
@[simp] theorem State.emitBytes_busy (s : State) (bs : List Byte) : (s.emitBytes bs).busy = s.busy := rfl
@[simp] theorem State.emitBytes_bout (s : State) (bs : List Byte) : (s.emitBytes bs).bout = s.bout := rfl
@[simp] theorem State.emitBytes_yout (s : State) (bs : List Byte) : (s.emitBytes bs).yout = s.yout ++ bs := rfl
@[simp] theorem State.emitBytes_params (s : State) (bs : List Byte) : (s.emitBytes bs).params = s.params := rfl
@[simp] theorem State.emitBytes_hostIn (s : State) (bs : List Byte) : (s.emitBytes bs).hostIn = s.hostIn := rfl
@[simp] theorem State.emitBytes_takenBits (s : State) (bs : List Byte) : (s.emitBytes bs).takenBits = s.takenBits := rfl
@[simp] theorem State.emitBytes_takenBytes (s : State) (bs : List Byte) : (s.emitBytes bs).takenBytes = s.takenBytes := rfl
@[simp] theorem State.emitBytes_regReads (s : State) (bs : List Byte) : (s.emitBytes bs).regReads = s.regReads := rfl
@[simp] theorem State.emitBytes_draws (s : State) (bs : List Byte) : (s.emitBytes bs).draws = s.draws := rfl

end Sys2Proof.Machine
end

