-- ==== Sys2Proof/Laws/Ops.lean ====
section
/-! SUPPORT. What each shared operation can do, said once: fault entry and dispatch around a rule, the shifter, the checked read of the
arena, a run of commands. -/

namespace Sys2Proof.Machine

/-! ### Dispatch around a rule (R74) -/

/-- Everything perform can answer. -/
theorem perform_cases {i : Instr} {rule : State → Effect} {s : State} {o : Host.Outcome State Fault Refusal}
    (h : perform i rule s = o) :
    (s.faulted = true ∧ o = .next s)
      ∨ (s.faulted = false ∧ i.wf = false ∧ o = .next (s.enterFault .illegalCmd (encode i)))
      ∨ (s.faulted = false ∧ i.wf = true ∧ s.phase ∉ legalPhases i ∧ o = .next (s.enterFault (phaseCause i s) (encode i)))
      ∨ (s.faulted = false ∧ i.wf = true ∧ s.phase ∈ legalPhases i
        ∧ ((∃ t, rule s = .done t ∧ o = .next t)
          ∨ (∃ c, rule s = .raise c ∧ o = .next (s.enterFault c (encode i)))
          ∨ (∃ f, rule s = .stop f ∧ o = .fault f))) := by
  subst h
  unfold perform legal
  cases hf : s.faulted
  · cases hw : i.wf
    · simp
    · by_cases hp : s.phase ∈ legalPhases i
      · cases hr : rule s <;> simp [hp]
      · simp [hp]
  · simp

/-- A command that is legal and not ignored runs its rule. -/
theorem perform_runs {i : Instr} {rule : State → Effect} {s : State} (hf : s.faulted = false) (hw : i.wf = true)
    (hp : s.phase ∈ legalPhases i) :
    perform i rule s =
      match rule s with
      | .done t => .next t
      | .raise c => .next (s.enterFault c (encode i))
      | .stop f => .fault f := by
  unfold perform legal
  cases rule s <;> simp [hf, hw, hp]

theorem perform_done {i : Instr} {rule : State → Effect} {s t : State} (hf : s.faulted = false) (hw : i.wf = true)
    (hp : s.phase ∈ legalPhases i) (hr : rule s = .done t) : perform i rule s = .next t := by
  rw [perform_runs hf hw hp, hr]

theorem perform_raise {i : Instr} {rule : State → Effect} {s : State} {c : Cause} (hf : s.faulted = false)
    (hw : i.wf = true) (hp : s.phase ∈ legalPhases i) (hr : rule s = .raise c) :
    perform i rule s = .next (s.enterFault c (encode i)) := by
  rw [perform_runs hf hw hp, hr]

theorem perform_stop {i : Instr} {rule : State → Effect} {s : State} {f : Fault} (hf : s.faulted = false)
    (hw : i.wf = true) (hp : s.phase ∈ legalPhases i) (hr : rule s = .stop f) : perform i rule s = .fault f := by
  rw [perform_runs hf hw hp, hr]

/-- R147: ignored while FAULTED = 1. -/
theorem perform_faulted {i : Instr} {rule : State → Effect} {s : State} (hf : s.faulted = true) :
    perform i rule s = .next s := by
  unfold perform
  simp [hf]

/-- R75: not legal in the phase. -/
theorem perform_illegal {i : Instr} {rule : State → Effect} {s : State} (hf : s.faulted = false) (hw : i.wf = true)
    (hp : s.phase ∉ legalPhases i) : perform i rule s = .next (s.enterFault (phaseCause i s) (encode i)) := by
  unfold perform legal
  simp [hf, hw, hp]

theorem mem_allPhases (p : Phase) : p ∈ allPhases := by
  cases p <;> decide

/-! ### The shifter (R112) and codes -/

theorem codeBits_length (k : Nat) (pat : Pattern) : (codeBits k pat).length = k := by
  induction k with
  | zero => rfl
  | succ k ih => simp [codeBits, ih]

/-- R110: for k in len-1 down to 0. -/
theorem codeBits_eq_map (k : Nat) (pat : Pattern) :
    codeBits k pat = (List.range k).reverse.map (fun j => pat.getLsbD j) := by
  induction k with
  | zero => rfl
  | succ k ih => simp [codeBits, ih, List.range_succ]

/-- Shifting out appends the code's bits and touches nothing else. -/
theorem shiftOut_eq (k : Nat) (s : State) : shiftOut k s = { s with bout := s.bout ++ codeBits k s.encShift } := by
  induction k generalizing s with
  | zero => simp [shiftOut, codeBits]
  | succ k ih => simp [shiftOut, ih, codeBits, State.emitBit]

/-- R110, R111: what emitting a code does. -/
theorem emitCode_eq (e : LutEntry) (s : State) :
    emitCode e s = { s with
      bout := s.bout ++ codeBits e.len.toNat e.pat, encShift := 0#256, bitCount := s.bitCount + e.len.setWidth 64 } := by
  simp [emitCode, shiftOut_eq]

/-! ### The arena read through a register (R46) -/

theorem nodeChecked_ok {s : State} {i : NodeIdx} (h : i.toNat < Config.maxNodes) :
    s.nodeChecked i = .ok (s.nodeAt i.toNat) := by
  unfold State.nodeChecked
  rw [if_pos h]

theorem nodeChecked_error {s : State} {i : NodeIdx} (h : Config.maxNodes ≤ i.toNat) :
    s.nodeChecked i = .error (.nodeIndexOutOfRange i.toNat) := by
  unfold State.nodeChecked
  rw [if_neg (by omega)]

/-! ### Runs of commands (R58) -/

@[simp] theorem runCommands_nil (s : State) : runCommands [] s = .next s := rfl

theorem runCommands_cons {i : Instr} {rest : List Instr} {s t : State} (h : exec i s = .next t) :
    runCommands (i :: rest) s = runCommands rest t := by
  simp [runCommands, h]

/-- A run is the run of its first part and then of its second. -/
theorem runCommands_append {is js : List Instr} {s t : State} (h : runCommands is s = .next t) :
    runCommands (is ++ js) s = runCommands js t := by
  induction is generalizing s with
  | nil =>
    simp only [runCommands, Host.Outcome.next.injEq] at h
    subst h
    rfl
  | cons i is ih =>
    simp only [List.cons_append, runCommands] at h ⊢
    split at h
    · exact ih h
    · cases h
    · cases h

end Sys2Proof.Machine
end

