-- ==== Sys2Proof/Laws/Tree.lean ====
section
/-! SUPPORT. What TREE_BUILD builds: the arena and the queue of TreeBuild as a forest of Huffman trees, through leaf insertion and
merging, down to the one tree left at the root. -/

namespace Sys2Proof.Machine

/-! ### Trees and what an arena entry stands for -/

/-- A Huffman tree as data: leaves hold symbol ids. -/
inductive HTree where
  | leaf (sym : Nat)
  | node (l r : HTree)

/-- The symbols of a tree, 0-branch first. -/
def HTree.leaves : HTree → List Nat
  | .leaf s => [s]
  | .node l r => l.leaves ++ r.leaves

/-- The number of arena entries a tree takes. -/
def HTree.size : HTree → Nat
  | .leaf _ => 1
  | .node l r => l.size + r.size + 1

/-- The longest path of a tree. -/
def HTree.height : HTree → Nat
  | .leaf _ => 0
  | .node l r => max l.height r.height + 1

/-- The sum of the counts of a tree's symbols. -/
def HTree.weight (freq : Memory Word) : HTree → Nat
  | .leaf s => (Memory.read 0#32 freq s).toNat
  | .node l r => l.weight freq + r.weight freq

/-- The path from the root to a symbol's leaf: the code. -/
def HTree.path : HTree → Nat → List Bool
  | .leaf _, _ => []
  | .node l r, s => if s ∈ l.leaves then false :: l.path s else true :: r.path s

/-- The code of a symbol (R98, R99): its path, or the one bit 0 where the tree is a single leaf. -/
def HTree.code : HTree → Nat → List Bool
  | .leaf _, _ => [false]
  | .node l r, s => (HTree.node l r).path s

theorem HTree.size_eq (t : HTree) : t.size + 1 = 2 * t.leaves.length := by
  induction t with
  | leaf => rfl
  | node l r ihl ihr => simp [size, leaves]; omega

theorem HTree.height_lt (t : HTree) : t.height < t.leaves.length := by
  induction t with
  | leaf => simp [height, leaves]
  | node l r ihl ihr => simp [height, leaves]; omega

theorem HTree.leaves_ne_nil (t : HTree) : t.leaves ≠ [] := by
  have := t.height_lt
  intro h
  simp [h] at this

theorem HTree.path_length_le (t : HTree) (s : Nat) : (t.path s).length ≤ t.height := by
  induction t with
  | leaf => simp [path]
  | node l r ihl ihr =>
    simp only [path, height]
    split <;> simp <;> omega

theorem HTree.weight_eq (freq : Memory Word) (t : HTree) :
    t.weight freq = (t.leaves.map (fun s => (Memory.read 0#32 freq s).toNat)).sum := by
  induction t with
  | leaf => simp [weight, leaves]
  | node l r ihl ihr => simp [weight, leaves, ihl, ihr]

/-- Entry i of an arena with n entries is the root of tree t. -/
inductive Represents (node : Memory NodeEntry) (n : Nat) : NodeIdx → HTree → Prop
  | leaf {i : NodeIdx} (hi : i.toNat < n) (hk : (Memory.read NodeEntry.zero node i.toNat).kind = .leaf) :
      Represents node n i (.leaf (Memory.read NodeEntry.zero node i.toNat).sym.toNat)
  | node {i : NodeIdx} {tl tr : HTree} (hi : i.toNat < n)
      (hk : (Memory.read NodeEntry.zero node i.toNat).kind = .internal)
      (hl : Represents node n (Memory.read NodeEntry.zero node i.toNat).l tl)
      (hr : Represents node n (Memory.read NodeEntry.zero node i.toNat).r tr) : Represents node n i (.node tl tr)

theorem Represents.lt {node : Memory NodeEntry} {n : Nat} {i : NodeIdx} {t : HTree} (h : Represents node n i t) :
    i.toNat < n := by
  cases h <;> assumption

/-- A larger arena that agrees on the entries there were stands for the same trees. -/
theorem Represents.extend {node node' : Memory NodeEntry} {n n' : Nat} {i : NodeIdx} {t : HTree} (h : Represents node n i t)
    (hn : n ≤ n') (heq : ∀ j, j < n → Memory.read NodeEntry.zero node' j = Memory.read NodeEntry.zero node j) :
    Represents node' n' i t := by
  induction h with
  | leaf hi hk =>
    rw [← heq _ hi] at hk ⊢
    exact .leaf (by omega) hk
  | node hi hk _ _ ihl ihr =>
    rw [← heq _ hi] at hk ihl ihr
    exact .node (by omega) hk ihl ihr

theorem idx_toNat {n : Nat} (h : n < 1024) : (BitVec.ofNat 10 n).toNat = n := by
  rw [BitVec.toNat_ofNat]
  exact Nat.mod_eq_of_lt h

/-! ### Leaf insertion (R92) -/

/-- The leaf of symbol s. -/
def leafEntry (freq : Memory Word) (s : Nat) : NodeEntry :=
  { kind := .leaf, sym := BitVec.ofNat 9 s, w := Memory.read 0#32 freq s, l := 0#10, r := 0#10 }

theorem leafEntry_ne_zero {freq : Memory Word} {s : Nat} (h : Memory.read 0#32 freq s ≠ 0#32) :
    leafEntry freq s ≠ NodeEntry.zero := by
  intro he
  exact h (congrArg NodeEntry.w he)

theorem insertLeaf_absent {freq : Memory Word} {s : Nat} (b : TreeBuild) (h : Memory.read 0#32 freq s = 0#32) :
    insertLeaf freq b s = b := by
  unfold insertLeaf
  rw [if_pos h]

theorem insertLeaf_present {freq : Memory Word} {s : Nat} (b : TreeBuild) (h : Memory.read 0#32 freq s ≠ 0#32) :
    insertLeaf freq b s =
      { node := Memory.write NodeEntry.zero b.node b.n (leafEntry freq s), pq := b.pq ++ [BitVec.ofNat 10 b.n]
        n := b.n + 1 } := by
  unfold insertLeaf
  rw [if_neg h]
  rfl

/-- Leaf insertion over any list of symbols: one entry and one queue element per present symbol, in order. -/
theorem insertLeaf_fold (freq : Memory Word) (L : List Nat) :
    (L.foldl (insertLeaf freq) { node := [], pq := [], n := 0 }).n
        = (L.filter (fun i => decide (Memory.read 0#32 freq i ≠ 0#32))).length
      ∧ (L.foldl (insertLeaf freq) { node := [], pq := [], n := 0 }).pq
        = (List.range (L.filter (fun i => decide (Memory.read 0#32 freq i ≠ 0#32))).length).map (BitVec.ofNat 10)
      ∧ Memory.wf NodeEntry.zero (L.filter (fun i => decide (Memory.read 0#32 freq i ≠ 0#32))).length
        (L.foldl (insertLeaf freq) { node := [], pq := [], n := 0 }).node = true
      ∧ ∀ k (hk : k < (L.filter (fun i => decide (Memory.read 0#32 freq i ≠ 0#32))).length),
        Memory.read NodeEntry.zero (L.foldl (insertLeaf freq) { node := [], pq := [], n := 0 }).node k
          = leafEntry freq (L.filter (fun i => decide (Memory.read 0#32 freq i ≠ 0#32)))[k] := by
  induction L using List.reverseRecOn with
  | nil => simp
  | append_singleton L s ih =>
    rw [List.foldl_append, List.foldl_cons, List.foldl_nil]
    generalize hF : L.filter (fun i => decide (Memory.read 0#32 freq i ≠ 0#32)) = F at ih
    generalize L.foldl (insertLeaf freq) { node := [], pq := [], n := 0 } = b at ih ⊢
    obtain ⟨hn, hpq, hwf, hread⟩ := ih
    by_cases hs : Memory.read 0#32 freq s = 0#32
    · have hf : (L ++ [s]).filter (fun i => decide (Memory.read 0#32 freq i ≠ 0#32)) = F := by
        rw [List.filter_append, hF]
        simp [hs]
      simp only [hf, insertLeaf_absent b hs]
      exact ⟨hn, hpq, hwf, hread⟩
    · have hf : (L ++ [s]).filter (fun i => decide (Memory.read 0#32 freq i ≠ 0#32)) = F ++ [s] := by
        rw [List.filter_append, hF]
        simp [hs]
      simp only [hf, insertLeaf_present b hs, List.length_append, List.length_singleton]
      have hwf' : Memory.wf NodeEntry.zero (F.length + 1) b.node = true := Memory.wf_of_le (Nat.le_succ _) hwf
      refine ⟨by simp [hn], by simp [hn, hpq, List.range_succ], ?_, ?_⟩
      · exact Memory.wf_write hwf' (by omega)
      · intro k hk
        rw [Memory.read_write hwf']
        by_cases hkn : b.n = k
        · rw [if_pos hkn]
          have : k = F.length := by omega
          subst this
          simp
        · rw [if_neg hkn, hread k (by omega), List.getElem_append_left (by omega)]

/-! ### The queue (R94) -/

theorem leastKey_mem (node : Memory NodeEntry) (best : NodeIdx) (pq : List NodeIdx) :
    leastKey node best pq ∈ best :: pq := by
  induction pq generalizing best with
  | nil => simp [leastKey]
  | cons i pq ih =>
    have := ih (if keyLt node i best then i else best)
    simp only [leastKey, List.mem_cons] at this ⊢
    split at this <;> rcases this with h | h <;> simp_all

/-- popmin returns an element of the queue, and the queue without it. -/
theorem popMin_some (node : Memory NodeEntry) {pq : List NodeIdx} (h : pq ≠ []) :
    ∃ m, m ∈ pq ∧ popMin node pq = some (m, pq.erase m) := by
  cases pq with
  | nil => exact absurd rfl h
  | cons i pq => exact ⟨leastKey node i pq, leastKey_mem node i pq, rfl⟩

/-! ### The forest (R96) -/

/-- What holds of the arena and the queue while TREE_BUILD merges, with the trees the queue's elements stand for. -/
structure Forest (freq : Memory Word) (b : TreeBuild) (ts : List (NodeIdx × HTree)) : Prop where
  wf : Memory.wf NodeEntry.zero b.n b.node = true
  pq : (ts.map Prod.fst).Perm b.pq
  nodup : b.pq.Nodup
  rep : ∀ p ∈ ts, Represents b.node b.n p.1 p.2
  leaves : (ts.flatMap (fun p => p.2.leaves)).Perm (presentSyms freq)
  count : b.n + ts.length = 2 * (presentSyms freq).length
  leafAt : ∀ k (hk : k < (presentSyms freq).length),
    Memory.read NodeEntry.zero b.node k = leafEntry freq (presentSyms freq)[k]
  internal : ∀ k, (presentSyms freq).length ≤ k → k < b.n →
    (Memory.read NodeEntry.zero b.node k).kind = .internal ∧ (Memory.read NodeEntry.zero b.node k).sym = Config.nasId
      ∧ (Memory.read NodeEntry.zero b.node k).l.toNat < k ∧ (Memory.read NodeEntry.zero b.node k).r.toNat < k
      ∧ (Memory.read NodeEntry.zero b.node k).l ≠ (Memory.read NodeEntry.zero b.node k).r
      ∧ (Memory.read NodeEntry.zero b.node k).w
        = weightOf b.node (Memory.read NodeEntry.zero b.node k).l + weightOf b.node (Memory.read NodeEntry.zero b.node k).r
  all : ∀ k, k < b.n → ∃ t, Represents b.node b.n (BitVec.ofNat 10 k) t ∧ t.leaves.Nodup
    ∧ (∀ x ∈ t.leaves, x ∈ presentSyms freq) ∧ (Memory.read NodeEntry.zero b.node k).w = BitVec.ofNat 32 (t.weight freq)
  weight : ∀ p ∈ ts, weightOf b.node p.1 = BitVec.ofNat 32 (p.2.weight freq)
  last : b.pq.getLast? = some (BitVec.ofNat 10 (b.n - 1))

theorem presentSyms_nodup (freq : Memory Word) : (presentSyms freq).Nodup := List.nodup_range.filter _

theorem presentSyms_length_le (freq : Memory Word) : (presentSyms freq).length ≤ 257 := by
  have := List.length_filter_le (fun i => decide (Memory.read 0#32 freq i ≠ 0#32)) (List.range Config.nSym)
  simpa [presentSyms] using this

theorem mem_presentSyms {freq : Memory Word} {x : Nat} :
    x ∈ presentSyms freq ↔ x < Config.nSym ∧ Memory.read 0#32 freq x ≠ 0#32 := by
  simp [presentSyms]

theorem leafEntry_sym {freq : Memory Word} {x : Nat} (h : x ∈ presentSyms freq) : (leafEntry freq x).sym.toNat = x := by
  have : x < 257 := (mem_presentSyms.1 h).1
  simp only [leafEntry, BitVec.toNat_ofNat]
  exact Nat.mod_eq_of_lt (by omega)

/-- Leaf insertion starts the forest: one leaf per present symbol. -/
theorem insertLeaves_forest (freq : Memory Word) (hP : presentSyms freq ≠ []) :
    Forest freq (insertLeaves freq)
      ((presentSyms freq).zipIdx.map (fun p => (BitVec.ofNat 10 p.2, HTree.leaf p.1))) := by
  obtain ⟨hn, hpq, hwf, hread⟩ := insertLeaf_fold freq (List.range Config.nSym)
  change (insertLeaves freq).n = (presentSyms freq).length at hn
  change (insertLeaves freq).pq = (List.range (presentSyms freq).length).map (BitVec.ofNat 10) at hpq
  change Memory.wf NodeEntry.zero (presentSyms freq).length (insertLeaves freq).node = true at hwf
  rw [← hn] at hwf
  change ∀ k (hk : k < (presentSyms freq).length), Memory.read NodeEntry.zero (insertLeaves freq).node k
    = leafEntry freq (presentSyms freq)[k] at hread
  have hle := presentSyms_length_le freq
  have hlen : 0 < (presentSyms freq).length := List.length_pos_iff.2 hP
  have hrep : ∀ k (hk : k < (presentSyms freq).length),
      Represents (insertLeaves freq).node (insertLeaves freq).n (BitVec.ofNat 10 k) (.leaf (presentSyms freq)[k]) := by
    intro k hk
    have hk' : (BitVec.ofNat 10 k).toNat = k := idx_toNat (by omega)
    have hr := hread k hk
    have := Represents.leaf (node := (insertLeaves freq).node) (n := (insertLeaves freq).n) (i := BitVec.ofNat 10 k)
      (by omega) (by rw [hk', hr]; rfl)
    rwa [hk', hr, leafEntry_sym (List.getElem_mem hk)] at this
  constructor
  · exact hwf
  · rw [hpq, List.map_map, List.range_eq_range', ← List.zipIdx_map_snd 0 (presentSyms freq), List.map_map]
    exact List.Perm.refl _
  · rw [hpq]
    refine List.Nodup.map_on ?_ List.nodup_range
    intro x hx y hy hxy
    simp only [List.mem_range] at hx hy
    have := congrArg BitVec.toNat hxy
    rwa [idx_toNat (by omega), idx_toNat (by omega)] at this
  · intro p hp
    obtain ⟨⟨x, k⟩, hm, rfl⟩ := List.mem_map.1 hp
    obtain ⟨hk, hx⟩ := List.mem_zipIdx' hm
    simp only [hx]
    exact hrep k hk
  · rw [List.flatMap_map]
    have : (presentSyms freq).zipIdx.flatMap (fun p => (HTree.leaf p.1).leaves)
        = (presentSyms freq).zipIdx.map Prod.fst := by
      rw [List.map_eq_flatMap]
      rfl
    rw [this, List.zipIdx_map_fst]
  · simp only [List.length_map, List.length_zipIdx, hn]
    omega
  · exact hread
  · intro k hk hk'
    omega
  · intro k hk
    rw [hn] at hk
    refine ⟨_, hrep k hk, by simp [HTree.leaves], by simp [HTree.leaves], ?_⟩
    rw [hread k hk]
    simp [leafEntry, HTree.weight]
  · intro p hp
    obtain ⟨⟨x, k⟩, hm, rfl⟩ := List.mem_map.1 hp
    obtain ⟨hk, hx⟩ := List.mem_zipIdx' hm
    simp only [weightOf, hx]
    rw [idx_toNat (by omega), hread k hk]
    simp [leafEntry, HTree.weight]
  · rw [hpq, hn]
    obtain ⟨m, hm⟩ := Nat.exists_eq_succ_of_ne_zero hlen.ne'
    rw [hm]
    simp [List.range_succ]

/-! ### Merging (R96) -/

/-- A queue of two or more: the two elements a merge pops. -/
theorem mergeOnce_eq {b : TreeBuild} (h : 1 < b.pq.length) (hnd : b.pq.Nodup) :
    ∃ a c, a ∈ b.pq ∧ c ∈ b.pq.erase a ∧ a ≠ c
      ∧ mergeOnce b =
        { node := Memory.write NodeEntry.zero b.node b.n
            { kind := .internal, sym := Config.nasId, w := weightOf b.node a + weightOf b.node c, l := a, r := c }
          pq := (b.pq.erase a).erase c ++ [BitVec.ofNat 10 b.n]
          n := b.n + 1 } := by
  obtain ⟨a, ha, hpa⟩ := popMin_some b.node (pq := b.pq) (by intro h0; simp [h0] at h)
  have hlen : (b.pq.erase a).length = b.pq.length - 1 := List.length_erase_of_mem ha
  obtain ⟨c, hc, hpc⟩ := popMin_some b.node (pq := b.pq.erase a) (by intro h0; simp [h0] at hlen; omega)
  refine ⟨a, c, ha, hc, ?_, ?_⟩
  · rintro rfl
    exact (hnd.mem_erase_iff.1 hc).1 rfl
  · unfold mergeOnce
    rw [hpa]
    simp only [hpc]

/-- Taking a queue element off the list of trees. -/
theorem exists_tree_of_mem {ts : List (NodeIdx × HTree)} {pq : List NodeIdx} {a : NodeIdx}
    (hpq : (ts.map Prod.fst).Perm pq) (ha : a ∈ pq) :
    ∃ t ts', ts.Perm ((a, t) :: ts') ∧ (ts'.map Prod.fst).Perm (pq.erase a) := by
  obtain ⟨⟨a', t⟩, hp, rfl⟩ := List.mem_map.1 (hpq.mem_iff.2 ha)
  obtain ⟨l₁, l₂, rfl⟩ := List.append_of_mem hp
  refine ⟨t, l₁ ++ l₂, List.perm_middle, ?_⟩
  have h1 : (a' :: (l₁ ++ l₂).map Prod.fst).Perm pq := by
    refine List.Perm.trans ?_ hpq
    simpa using (List.perm_middle (l₁ := l₁.map Prod.fst) (l₂ := l₂.map Prod.fst) (a := a')).symm
  exact List.Perm.cons_inv (h1.trans (List.perm_cons_erase ha))

theorem Forest.n_le {freq : Memory Word} {b : TreeBuild} {ts : List (NodeIdx × HTree)} (h : Forest freq b ts)
    (hne : ts ≠ []) : b.n ≤ 513 := by
  have := h.count
  have := presentSyms_length_le freq
  have : 0 < ts.length := List.length_pos_iff.2 hne
  omega

/-- One merge keeps the forest, with one tree less. -/
theorem Forest.merge {freq : Memory Word} {b : TreeBuild} {ts : List (NodeIdx × HTree)} (h : Forest freq b ts)
    (hlen : 1 < b.pq.length) : ∃ ts', Forest freq (mergeOnce b) ts' ∧ ts'.length + 1 = ts.length := by
  obtain ⟨a, c, ha, hc, hac, hm⟩ := mergeOnce_eq hlen h.nodup
  obtain ⟨ta, ts1, hts1, hpq1⟩ := exists_tree_of_mem h.pq ha
  obtain ⟨tc, ts2, hts2, hpq2⟩ := exists_tree_of_mem hpq1 hc
  have hts : ts.Perm ((a, ta) :: (c, tc) :: ts2) := hts1.trans (List.Perm.cons _ hts2)
  have htslen : ts.length = ts2.length + 2 := by simpa using hts.length_eq
  have hn : b.n ≤ 512 := by
    have := h.count
    have := presentSyms_length_le freq
    omega
  have hPn : (presentSyms freq).length ≤ b.n := by
    have := h.count
    have hl : (ts.flatMap (fun p => p.2.leaves)).length = (presentSyms freq).length := h.leaves.length_eq
    have hge : ts.length ≤ (ts.flatMap (fun p => p.2.leaves)).length := by
      rw [List.length_flatMap]
      clear hts1 hts2 hpq1 hpq2 hts htslen hl this
      have : ∀ l : List (NodeIdx × HTree), l.length ≤ (l.map (fun p => p.2.leaves.length)).sum := by
        intro l
        induction l with
        | nil => simp
        | cons p l ih =>
          have := List.length_pos_iff.2 p.2.leaves_ne_nil
          simp only [List.length_cons, List.map_cons, List.sum_cons]
          omega
      exact this ts
    omega
  have hidx : (BitVec.ofNat 10 b.n).toNat = b.n := idx_toNat (by omega)
  have ra := h.rep (a, ta) (hts.mem_iff.2 (by simp))
  have rc := h.rep (c, tc) (hts.mem_iff.2 (by simp))
  have hwf' : Memory.wf NodeEntry.zero (b.n + 1) b.node = true := Memory.wf_of_le (Nat.le_succ _) h.wf
  generalize he : ({ kind := .internal, sym := Config.nasId, w := weightOf b.node a + weightOf b.node c, l := a, r := c }
    : NodeEntry) = e at hm
  have hold : ∀ j, j < b.n → Memory.read NodeEntry.zero (Memory.write NodeEntry.zero b.node b.n e) j
      = Memory.read NodeEntry.zero b.node j := fun j hj => by
    rw [Memory.read_write hwf', if_neg (by omega)]
  have hnew : Memory.read NodeEntry.zero (Memory.write NodeEntry.zero b.node b.n e) b.n = e := by
    rw [Memory.read_write hwf', if_pos rfl]
  have hw : ∀ i : NodeIdx, i.toNat < b.n →
      weightOf (Memory.write NodeEntry.zero b.node b.n e) i = weightOf b.node i := fun i hi => by
    unfold weightOf
    rw [hold _ hi]
  have hrepNew : Represents (Memory.write NodeEntry.zero b.node b.n e) (b.n + 1) (BitVec.ofNat 10 b.n) (.node ta tc) := by
    have hi : (BitVec.ofNat 10 b.n).toNat < b.n + 1 := by omega
    refine .node hi ?_ ?_ ?_ <;> rw [hidx, hnew]
    · rw [← he]
    · rw [show e.l = a by rw [← he]]
      exact ra.extend (Nat.le_succ _) hold
    · rw [show e.r = c by rw [← he]]
      exact rc.extend (Nat.le_succ _) hold
  have hwNew : e.w = BitVec.ofNat 32 ((HTree.node ta tc).weight freq) := by
    have h1 := h.weight (a, ta) (hts.mem_iff.2 (by simp))
    have h2 := h.weight (c, tc) (hts.mem_iff.2 (by simp))
    simp only at h1 h2
    rw [← he]
    simp only [h1, h2, HTree.weight, BitVec.ofNat_add]
  have hleaves : ((ta.leaves ++ tc.leaves) ++ ts2.flatMap (fun p => p.2.leaves)).Perm (presentSyms freq) := by
    refine List.Perm.trans ?_ h.leaves
    have := (hts.flatMap_right (fun p => p.2.leaves)).symm
    simpa using this
  have hnodup : (ta.leaves ++ tc.leaves).Nodup :=
    (List.nodup_append.1 (hleaves.nodup_iff.2 (presentSyms_nodup freq))).1
  have hmem : ∀ x ∈ ta.leaves ++ tc.leaves, x ∈ presentSyms freq := fun x hx =>
    hleaves.mem_iff.1 (List.mem_append_left _ hx)
  have hrest : ∀ p ∈ ts2, p ∈ ts := fun p hp => hts.mem_iff.2 (by simp [hp])
  refine ⟨ts2 ++ [(BitVec.ofNat 10 b.n, .node ta tc)], ?_, by simp [htslen]⟩
  rw [hm]
  constructor
  · exact Memory.wf_write hwf' (Nat.lt_succ_self _)
  · simpa using hpq2.append_right [BitVec.ofNat 10 b.n]
  · refine List.Nodup.append ((h.nodup.erase a).erase c) (by simp) ?_
    intro x hx hx'
    simp only [List.mem_singleton] at hx'
    subst hx'
    have hx := List.mem_of_mem_erase (List.mem_of_mem_erase hx)
    obtain ⟨⟨i, t⟩, hp, hi⟩ := List.mem_map.1 (h.pq.mem_iff.2 hx)
    have := (h.rep _ hp).lt
    simp only at hi this
    rw [hi, hidx] at this
    omega
  · intro p hp
    rcases List.mem_append.1 hp with hp | hp
    · exact (h.rep p (hrest p hp)).extend (Nat.le_succ _) hold
    · rw [List.mem_singleton.1 hp]
      exact hrepNew
  · simp only [List.flatMap_append, List.flatMap_singleton, HTree.leaves]
    exact List.perm_append_comm.trans hleaves
  · have := h.count
    simp only [List.length_append, List.length_singleton]
    omega
  · intro k hk
    rw [hold k (by omega)]
    exact h.leafAt k hk
  · intro k hk hk'
    dsimp only at hk'
    rcases Nat.lt_or_ge k b.n with hlt | hge
    · rw [hold k hlt]
      obtain ⟨h1, h2, h3, h4, h5, h6⟩ := h.internal k hk hlt
      refine ⟨h1, h2, h3, h4, h5, ?_⟩
      rw [hw _ (by omega), hw _ (by omega)]
      exact h6
    · have : k = b.n := by omega
      subst this
      have hal := ra.lt
      have hcl := rc.lt
      simp only at hal hcl
      rw [hnew, hw e.l (by rw [← he]; exact hal), hw e.r (by rw [← he]; exact hcl), ← he]
      exact ⟨rfl, rfl, hal, hcl, hac, rfl⟩
  · intro k hk
    dsimp only at hk
    rcases Nat.lt_or_ge k b.n with hlt | hge
    · obtain ⟨t, ht, h1, h2, h3⟩ := h.all k hlt
      refine ⟨t, ht.extend (Nat.le_succ _) hold, h1, h2, ?_⟩
      rw [hold k hlt]
      exact h3
    · have : k = b.n := by omega
      subst this
      exact ⟨_, hrepNew, hnodup, hmem, by rw [hnew, hwNew]⟩
  · intro p hp
    rcases List.mem_append.1 hp with hp | hp
    · rw [hw _ (h.rep p (hrest p hp)).lt]
      exact h.weight p (hrest p hp)
    · rw [List.mem_singleton.1 hp]
      simp only [weightOf]
      rw [hidx, hnew, hwNew]
  · simp

/-- Merging a forest of k+1 trees k times leaves one. -/
theorem Forest.mergeAll {freq : Memory Word} (k : Nat) {b : TreeBuild} {ts : List (NodeIdx × HTree)} (h : Forest freq b ts)
    (hne : ts ≠ []) (hk : ts.length ≤ k + 1) : ∃ i t, Forest freq (mergeAll k b) [(i, t)] := by
  have hlen : b.pq.length = ts.length := by simpa using h.pq.length_eq.symm
  have hpos : 0 < ts.length := List.length_pos_iff.2 hne
  have one : ts.length = 1 → ∃ i t, Forest freq b [(i, t)] := fun h1 => by
    obtain ⟨⟨i, t⟩, rfl⟩ := List.length_eq_one_iff.1 h1
    exact ⟨i, t, h⟩
  induction k generalizing b ts with
  | zero => exact one (by omega)
  | succ k ih =>
    unfold Machine.mergeAll
    split
    · obtain ⟨ts', h', hl⟩ := h.merge (by omega)
      have hl' : (mergeOnce b).pq.length = ts'.length := by simpa using h'.pq.length_eq.symm
      refine ih h' (by intro h0; simp [h0] at hl; omega) (by omega) hl' (by omega) ?_
      intro h1
      obtain ⟨⟨i, t⟩, rfl⟩ := List.length_eq_one_iff.1 h1
      exact ⟨i, t, h'⟩
    · exact one (by omega)

/-- R91 to R97: what TREE_BUILD leaves in the arena and the queue for a model that is not empty: one tree, whose leaves are the present
symbols, rooted at the last entry. -/
theorem buildTree_forest (freq : Memory Word) (hP : presentSyms freq ≠ []) :
    ∃ t, Forest freq (buildTree freq) [(BitVec.ofNat 10 ((buildTree freq).n - 1), t)]
      ∧ (buildTree freq).pq = [BitVec.ofNat 10 ((buildTree freq).n - 1)] := by
  have hle := presentSyms_length_le freq
  have hpos : 0 < (presentSyms freq).length := List.length_pos_iff.2 hP
  obtain ⟨i, t, h⟩ := (insertLeaves_forest freq hP).mergeAll (Config.maxLeaves - 1)
    (by simpa using hP) (by simp; omega)
  change Forest freq (buildTree freq) [(i, t)] at h
  have hpq : (buildTree freq).pq = [i] := List.perm_singleton.1 h.pq.symm
  have hi : i = BitVec.ofNat 10 ((buildTree freq).n - 1) := by
    have := h.last
    rw [hpq] at this
    simpa using this
  subst hi
  exact ⟨t, h, hpq⟩

/-- A model without a present symbol leaves the queue empty. -/
theorem buildTree_empty (freq : Memory Word) (hP : presentSyms freq = []) : (buildTree freq).pq = [] := by
  obtain ⟨-, hpq, -, -⟩ := insertLeaf_fold freq (List.range Config.nSym)
  change (insertLeaves freq).pq = (List.range (presentSyms freq).length).map (BitVec.ofNat 10) at hpq
  rw [hP] at hpq
  have : buildTree freq = insertLeaves freq := by
    unfold buildTree
    rw [show Config.maxLeaves - 1 = 255 + 1 from rfl]
    unfold mergeAll
    rw [hpq]
    rfl
  rw [this, hpq]
  rfl

end Sys2Proof.Machine
end

