-- ==== Sys2Proof/Laws/Lut.lean ====
section
/-! SUPPORT. What DeriveLUT leaves in the LUT: each leaf's entry is its path from the root (R99, R105). -/

namespace Sys2Proof.Machine

/-- The LUT after every leaf of a tree is recorded, its path put after the code (len, pat). -/
def HTree.record : HTree → CodeLen → Pattern → Memory LutEntry → Memory LutEntry
  | .leaf s, len, pat, lut => Memory.write LutEntry.zero lut s { len := len, pat := pat }
  | .node l r, len, pat, lut =>
    r.record (len + 1#9) ((pat <<< 1) ||| 1#256) (l.record (len + 1#9) (pat <<< 1) lut)

/-- The traversal of a tree on top of the stack takes as many rounds as it has entries, and records its leaves. -/
theorem deriveLoop_tree {node : Memory NodeEntry} {n : Nat} {i : NodeIdx} {t : HTree} (h : Represents node n i t) (k : Nat)
    (len : CodeLen) (pat : Pattern) (stack : List StackEntry) (lut : Memory LutEntry) :
    deriveLoop node (t.size + k) ({ idx := i, len := len, pat := pat } :: stack) lut
      = deriveLoop node k stack (t.record len pat lut) := by
  induction h generalizing k len pat stack lut with
  | leaf hi hk =>
    rw [HTree.size, Nat.add_comm, deriveLoop]
    simp only [hk]
    rfl
  | @node i tl tr hi hk _ _ ihl ihr =>
    rw [show (HTree.node tl tr).size + k = (tl.size + (tr.size + k)) + 1 by simp [HTree.size]; omega, deriveLoop]
    simp only [hk]
    rw [ihl, ihr]
    rfl

/-! ### Codes as bit strings -/

/-- One more bit at the end of a code. -/
theorem codeBits_snoc (k : Nat) (hk : k < 256) (pat : Pattern) (b : Bool) :
    codeBits (k + 1) ((pat <<< 1) ||| (BitVec.ofBool b).setWidth 256) = codeBits k pat ++ [b] := by
  induction k with
  | zero => cases b <;> simp [codeBits]
  | succ k ih =>
    have hlt : k + 1 < 256 := hk
    have h1 : ((pat <<< 1) ||| (BitVec.ofBool b).setWidth 256).getLsbD (k + 1) = pat.getLsbD k := by
      cases b <;> simp [hlt, BitVec.getLsbD_eq_getElem (show k < 256 by omega)]
    rw [codeBits, ih (by omega), h1]
    rfl

theorem codeBits_snoc_false (k : Nat) (hk : k < 256) (pat : Pattern) :
    codeBits (k + 1) (pat <<< 1) = codeBits k pat ++ [false] := by
  have := codeBits_snoc k hk pat false
  simpa using this

theorem codeBits_snoc_true (k : Nat) (hk : k < 256) (pat : Pattern) :
    codeBits (k + 1) ((pat <<< 1) ||| 1#256) = codeBits k pat ++ [true] := by
  have := codeBits_snoc k hk pat true
  simpa using this

theorem succ_len {len : CodeLen} (h : len.toNat < 256) : (len + 1#9).toNat = len.toNat + 1 := by
  rw [BitVec.toNat_add]
  simp only [BitVec.toNat_ofNat]
  omega

/-- R28: the pattern is 0 above the code. -/
def Clear (e : LutEntry) : Prop := ∀ k, e.len.toNat ≤ k → e.pat.getLsbD k = false

theorem Clear.zero {len : CodeLen} {pat : Pattern} (h : Clear { len := len, pat := pat }) (hl : len.toNat < 256) :
    Clear { len := len + 1#9, pat := pat <<< 1 } := by
  intro k hk
  simp only [succ_len hl] at hk ⊢
  have hp : pat.getLsbD (k - 1) = false := h (k - 1) (by simp only; omega)
  simp [hp]

theorem Clear.one {len : CodeLen} {pat : Pattern} (h : Clear { len := len, pat := pat }) (hl : len.toNat < 256) :
    Clear { len := len + 1#9, pat := (pat <<< 1) ||| 1#256 } := by
  intro k hk
  have hz := h.zero hl k hk
  simp only [succ_len hl] at hk hz ⊢
  rw [BitVec.getLsbD_or, hz]
  have : k ≠ 0 := by omega
  simp [this]

/-- What recording a tree leaves in the LUT: the path of each of its leaves after the code it started from, and every other entry as it
was. -/
theorem HTree.record_spec (t : HTree) {len : CodeLen} {pat : Pattern} {lut : Memory LutEntry}
    (hwf : Memory.wf LutEntry.zero Config.nSym lut = true) (hs : ∀ x ∈ t.leaves, x < Config.nSym) (hnd : t.leaves.Nodup)
    (hlen : len.toNat + t.height ≤ 256) (hclear : Clear { len := len, pat := pat }) :
    Memory.wf LutEntry.zero Config.nSym (t.record len pat lut) = true
      ∧ (∀ x, x ∉ t.leaves → Memory.read LutEntry.zero (t.record len pat lut) x = Memory.read LutEntry.zero lut x)
      ∧ ∀ x ∈ t.leaves,
        (Memory.read LutEntry.zero (t.record len pat lut) x).len.toNat = len.toNat + (t.path x).length
          ∧ codeOf (t.record len pat lut) x = codeBits len.toNat pat ++ t.path x
          ∧ Clear (Memory.read LutEntry.zero (t.record len pat lut) x) := by
  induction t generalizing len pat lut with
  | leaf s =>
    simp only [leaves, List.mem_singleton, forall_eq] at hs ⊢
    refine ⟨Memory.wf_write hwf hs, fun x hx => ?_, ?_⟩
    · exact Memory.read_write_other hwf (Ne.symm hx)
    · simp only [record, codeOf, Memory.read_write_same hwf, path, List.length_nil, List.append_nil]
      exact ⟨rfl, trivial, hclear⟩
  | node l r ihl ihr =>
    simp only [leaves, height] at hs hnd hlen
    have hl256 : len.toNat < 256 := by omega
    have hsucc := succ_len hl256
    obtain ⟨hndl, hndr, hdisj⟩ := List.nodup_append.1 hnd
    obtain ⟨wl, ol, il⟩ := ihl (len := len + 1#9) (pat := pat <<< 1) hwf (fun x hx => hs x (List.mem_append_left _ hx)) hndl
      (by omega) (hclear.zero hl256)
    obtain ⟨wr, or, ir⟩ := ihr (len := len + 1#9) (pat := (pat <<< 1) ||| 1#256) wl
      (fun x hx => hs x (List.mem_append_right _ hx)) hndr (by omega) (hclear.one hl256)
    refine ⟨wr, fun x hx => ?_, fun x hx => ?_⟩
    · simp only [leaves, List.mem_append, not_or] at hx
      simp only [record]
      rw [or x hx.2, ol x hx.1]
    · simp only [leaves, List.mem_append] at hx
      simp only [record, path]
      by_cases hxl : x ∈ l.leaves
      · have hxr : x ∉ r.leaves := fun h => hdisj x hxl x h rfl
        obtain ⟨h1, h2, h3⟩ := il x hxl
        unfold codeOf at h2 ⊢
        rw [or x hxr, if_pos hxl]
        refine ⟨by rw [h1, hsucc]; simp; omega, ?_, h3⟩
        rw [h2, hsucc, codeBits_snoc_false _ hl256, List.append_assoc]
        rfl
      · have hxr : x ∈ r.leaves := by tauto
        obtain ⟨h1, h2, h3⟩ := ir x hxr
        rw [if_neg hxl]
        refine ⟨by rw [h1, hsucc]; simp; omega, ?_, h3⟩
        rw [h2, hsucc, codeBits_snoc_true _ hl256, List.append_assoc]
        rfl

/-! ### DeriveLUT (R99) -/

/-- R99, R102, R107: DeriveLUT of a tree empties the stack; each leaf's code is its path, or the one bit 0 where the root is a leaf;
no other symbol has a code. -/
theorem deriveLut_spec {node : Memory NodeEntry} {n : Nat} {root : NodeIdx} {t : HTree} (h : Represents node n root t)
    (hs : ∀ x ∈ t.leaves, x < Config.nSym) (hnd : t.leaves.Nodup) (hle : t.leaves.length ≤ 257) :
    (deriveLut node root).1 = []
      ∧ Memory.wf LutEntry.zero Config.nSym (deriveLut node root).2 = true
      ∧ (∀ x, x ∉ t.leaves → Memory.read LutEntry.zero (deriveLut node root).2 x = LutEntry.zero)
      ∧ ∀ x ∈ t.leaves,
        codeOf (deriveLut node root).2 x = t.code x
          ∧ (Memory.read LutEntry.zero (deriveLut node root).2 x).len.toNat = (codeOf (deriveLut node root).2 x).length
          ∧ Clear (Memory.read LutEntry.zero (deriveLut node root).2 x) := by
  have hlenOf : ∀ lut : Memory LutEntry, ∀ x, (Memory.read LutEntry.zero lut x).len.toNat = (codeOf lut x).length :=
    fun lut x => by simp [codeOf, codeBits_length]
  cases h with
  | leaf hi hk =>
    have hd : deriveLut node root = ([], Memory.write LutEntry.zero []
        (Memory.read NodeEntry.zero node root.toNat).sym.toNat { len := 1#9, pat := 0#256 }) := by
      simp [deriveLut, hk]
    simp only [HTree.leaves, List.mem_singleton, forall_eq] at hs ⊢
    rw [hd]
    have hnil : Memory.wf LutEntry.zero Config.nSym ([] : Memory LutEntry) = true := Memory.wf_nil
    refine ⟨rfl, Memory.wf_write hnil hs, fun x hx => ?_, ?_, hlenOf _ _, ?_⟩
    · dsimp only
      rw [Memory.read_write_other hnil (Ne.symm hx)]
      rfl
    · simp only [codeOf]
      rw [Memory.read_write_same hnil]
      rfl
    · simp only
      rw [Memory.read_write_same hnil]
      intro k _
      simp
  | @node _ tl tr hi hk hl hr =>
    have hsize := (HTree.node tl tr).size_eq
    have hheight := (HTree.node tl tr).height_lt
    have hrep : Represents node n root (.node tl tr) := .node hi hk hl hr
    obtain ⟨k, hk513⟩ : ∃ k, Config.maxNodes = (HTree.node tl tr).size + k :=
      ⟨513 - (HTree.node tl tr).size, by unfold Config.maxNodes; omega⟩
    have hd : deriveLut node root = ([], (HTree.node tl tr).record 0#9 0#256 []) := by
      simp only [deriveLut, hk]
      rw [hk513, deriveLoop_tree hrep]
      cases k <;> rfl
    rw [hd]
    obtain ⟨w, o, i⟩ := (HTree.node tl tr).record_spec (len := 0#9) (pat := 0#256) (lut := []) Memory.wf_nil hs hnd
      (by simp; omega) (fun k _ => by simp)
    refine ⟨rfl, w, fun x hx => (o x hx).trans rfl, fun x hx => ?_⟩
    obtain ⟨h1, h2, h3⟩ := i x hx
    exact ⟨by rw [h2]; rfl, hlenOf _ _, h3⟩

end Sys2Proof.Machine
end

