-- ==== Sys2Proof/Laws/Model.lean ====
section
/-! SUPPORT. How the number of present symbols and the sum of the counts change when one count is written (R20 to R22). -/

namespace Sys2Proof.Machine

/-- A list sum in which one entry changes. -/
theorem sum_map_range_write (n i : Nat) (hi : i < n) (f g : Nat → Nat) (h : ∀ j, j ≠ i → g j = f j) :
    ((List.range n).map g).sum + f i = ((List.range n).map f).sum + g i := by
  induction n with
  | zero => omega
  | succ n ih =>
    simp only [List.range_succ, List.map_append, List.sum_append, List.map_singleton, List.sum_singleton]
    rcases Nat.lt_or_ge i n with hlt | hge
    · have := ih hlt
      rw [h n (by omega)]
      omega
    · have : i = n := by omega
      subst this
      have : (List.range i).map g = (List.range i).map f := by
        refine List.map_congr_left fun j hj => h j ?_
        have := List.mem_range.1 hj
        omega
      rw [this]
      omega

/-- The number of present symbols as a sum of ones. -/
theorem presentSyms_length_eq (freq : Memory Word) :
    (presentSyms freq).length = ((List.range Config.nSym).map (fun i => if Memory.read 0#32 freq i = 0#32 then 0 else 1)).sum := by
  unfold presentSyms
  generalize List.range Config.nSym = L
  induction L with
  | nil => rfl
  | cons i L ih =>
    by_cases h : Memory.read 0#32 freq i = 0#32
    · simpa [h] using ih
    · simp only [ne_eq, h, not_false_eq_true, decide_true, List.filter_cons_of_pos, List.length_cons, List.map_cons, if_false,
        List.sum_cons]
      rw [← ih]
      simp only [ne_eq]
      omega

/-- R22: the sum after one count is written. -/
theorem sumCounts_write {freq : Memory Word} (hm : Memory.wf 0#32 Config.nSym freq = true) {i : Nat} (hi : i < Config.nSym)
    (v : Word) :
    sumCounts (Memory.write 0#32 freq i v) + (Memory.read 0#32 freq i).toNat = sumCounts freq + v.toNat := by
  have := sum_map_range_write Config.nSym i hi (fun j => (Memory.read 0#32 freq j).toNat)
    (fun j => (Memory.read 0#32 (Memory.write 0#32 freq i v) j).toNat)
    (fun j hj => by rw [Memory.read_write_other hm (Ne.symm hj)])
  simp only [Memory.read_write_same hm] at this
  exact this

/-- R21: the number of present symbols after an absent one gets a count. -/
theorem presentSyms_write_new {freq : Memory Word} (hm : Memory.wf 0#32 Config.nSym freq = true) {i : Nat} (hi : i < Config.nSym)
    {v : Word} (h0 : Memory.read 0#32 freq i = 0#32) (hv : v ≠ 0#32) :
    (presentSyms (Memory.write 0#32 freq i v)).length = (presentSyms freq).length + 1 := by
  rw [presentSyms_length_eq, presentSyms_length_eq]
  have := sum_map_range_write Config.nSym i hi (fun j => if Memory.read 0#32 freq j = 0#32 then 0 else 1)
    (fun j => if Memory.read 0#32 (Memory.write 0#32 freq i v) j = 0#32 then 0 else 1)
    (fun j hj => by rw [Memory.read_write_other hm (Ne.symm hj)])
  simp only [Memory.read_write_same hm, h0, hv, if_true, if_false] at this
  omega

/-- R21: the number of present symbols after a present one gets another count. -/
theorem presentSyms_write_old {freq : Memory Word} (hm : Memory.wf 0#32 Config.nSym freq = true) {i : Nat}
    {v : Word} (h0 : Memory.read 0#32 freq i ≠ 0#32) (hv : v ≠ 0#32) :
    presentSyms (Memory.write 0#32 freq i v) = presentSyms freq := by
  unfold presentSyms
  refine List.filter_congr fun j _ => ?_
  rw [Memory.read_write hm]
  by_cases hij : i = j
  · subst hij
    simp [h0, hv]
  · rw [if_neg hij]

/-- A count is at most the sum. -/
theorem read_le_sumCounts (freq : Memory Word) {i : Nat} (hi : i < Config.nSym) :
    (Memory.read 0#32 freq i).toNat ≤ sumCounts freq := by
  unfold sumCounts
  exact List.single_le_sum (by simp) _ (List.mem_map.2 ⟨i, List.mem_range.2 hi, rfl⟩)

/-- Symbols present means a sum of at least as many. -/
theorem presentSyms_length_le_sum (freq : Memory Word) : (presentSyms freq).length ≤ sumCounts freq := by
  rw [presentSyms_length_eq]
  unfold sumCounts
  refine List.sum_le_sum fun i _ => ?_
  by_cases h : Memory.read 0#32 freq i = 0#32
  · simp [h]
  · have : (Memory.read 0#32 freq i).toNat ≠ 0 := fun h0 => h (BitVec.eq_of_toNat_eq (by simpa using h0))
    simp only [h, if_false]
    omega

theorem presentSyms_nil : presentSyms ([] : Memory Word) = [] := by
  simp [presentSyms]

theorem sumCounts_nil : sumCounts ([] : Memory Word) = 0 := by
  simp [sumCounts]

/-- A model with a nonzero count has a present symbol. -/
theorem presentSyms_ne_nil {freq : Memory Word} {i : Nat} (hi : i < Config.nSym) (h : Memory.read 0#32 freq i ≠ 0#32) :
    presentSyms freq ≠ [] :=
  List.ne_nil_of_mem (mem_presentSyms.2 ⟨hi, h⟩)

end Sys2Proof.Machine
end

