-- ==== Sys2Proof/Laws/Build.lean ====
section
/-! SUPPORT. TREE_BUILD as a whole (R91 to R102, R107): what it leaves for a model with a nonzero count, in one lemma. -/

namespace Sys2Proof.Machine

/-- The root TREE_BUILD leaves: the last entry. -/
def builtRoot (freq : Memory Word) : NodeIdx := BitVec.ofNat 10 ((buildTree freq).n - 1)

/-- What TREE_BUILD leaves for the model freq, with t the tree it stands for. -/
structure Built (freq : Memory Word) (t : HTree) : Prop where
  pq : (buildTree freq).pq = [builtRoot freq]
  count : (buildTree freq).n + 1 = 2 * (presentSyms freq).length
  root : (builtRoot freq).toNat + 1 = (buildTree freq).n
  n_le : (buildTree freq).n ≤ Config.maxNodes
  wf : Memory.wf NodeEntry.zero Config.maxNodes (buildTree freq).node = true
  rep : Represents (buildTree freq).node (buildTree freq).n (builtRoot freq) t
  leaves : t.leaves.Perm (presentSyms freq)
  weight : weightOf (buildTree freq).node (builtRoot freq) = BitVec.ofNat 32 (sumCounts freq)
  leafAt : ∀ k (hk : k < (presentSyms freq).length),
    Memory.read NodeEntry.zero (buildTree freq).node k = leafEntry freq (presentSyms freq)[k]
  internal : ∀ k, (presentSyms freq).length ≤ k → k < (buildTree freq).n →
    (Memory.read NodeEntry.zero (buildTree freq).node k).kind = .internal
      ∧ (Memory.read NodeEntry.zero (buildTree freq).node k).sym = Config.nasId
      ∧ (Memory.read NodeEntry.zero (buildTree freq).node k).l.toNat < k
      ∧ (Memory.read NodeEntry.zero (buildTree freq).node k).r.toNat < k
  above : ∀ k, (buildTree freq).n ≤ k → Memory.read NodeEntry.zero (buildTree freq).node k = NodeEntry.zero
  stack : (deriveLut (buildTree freq).node (builtRoot freq)).1 = []
  lutWf : Memory.wf LutEntry.zero Config.nSym (deriveLut (buildTree freq).node (builtRoot freq)).2 = true
  absent : ∀ x, x ∉ presentSyms freq →
    Memory.read LutEntry.zero (deriveLut (buildTree freq).node (builtRoot freq)).2 x = LutEntry.zero
  code : ∀ x ∈ presentSyms freq,
    codeOf (deriveLut (buildTree freq).node (builtRoot freq)).2 x = t.code x
      ∧ (Memory.read LutEntry.zero (deriveLut (buildTree freq).node (builtRoot freq)).2 x).len.toNat
        = (codeOf (deriveLut (buildTree freq).node (builtRoot freq)).2 x).length
      ∧ Clear (Memory.read LutEntry.zero (deriveLut (buildTree freq).node (builtRoot freq)).2 x)

/-- The sum of all counts is the sum over the present symbols. -/
theorem sum_presentSyms (freq : Memory Word) :
    ((presentSyms freq).map (fun i => (Memory.read 0#32 freq i).toNat)).sum = sumCounts freq := by
  unfold presentSyms sumCounts
  generalize List.range Config.nSym = L
  induction L with
  | nil => rfl
  | cons i L ih =>
    by_cases h : Memory.read 0#32 freq i = 0#32
    · simpa [h] using ih
    · simpa [h] using ih

/-- R91: TREE_BUILD of a model with a present symbol. -/
theorem built (freq : Memory Word) (hP : presentSyms freq ≠ []) : ∃ t, Built freq t := by
  obtain ⟨t, hF, hpq⟩ := buildTree_forest freq hP
  have hle := presentSyms_length_le freq
  have hpos : 0 < (presentSyms freq).length := List.length_pos_iff.2 hP
  have hcount : (buildTree freq).n + 1 = 2 * (presentSyms freq).length := by simpa using hF.count
  have hn : (buildTree freq).n ≤ 513 := by omega
  have hroot : (builtRoot freq).toNat + 1 = (buildTree freq).n := by
    unfold builtRoot
    rw [idx_toNat (by omega)]
    omega
  have hleaves : t.leaves.Perm (presentSyms freq) := by simpa using hF.leaves
  have hrep : Represents (buildTree freq).node (buildTree freq).n (builtRoot freq) t := hF.rep _ (List.mem_singleton.2 rfl)
  have hw : weightOf (buildTree freq).node (builtRoot freq) = BitVec.ofNat 32 (sumCounts freq) := by
    have h := hF.weight _ (List.mem_singleton.2 rfl)
    simp only at h
    unfold builtRoot
    rw [h, HTree.weight_eq, ← sum_presentSyms]
    exact congrArg _ (hleaves.map _).sum_eq
  obtain ⟨h1, h2, h3, h4⟩ := deriveLut_spec hrep (fun x hx => (mem_presentSyms.1 (hleaves.mem_iff.1 hx)).1)
    (hleaves.nodup_iff.2 (presentSyms_nodup freq)) (by rw [hleaves.length_eq]; omega)
  exact ⟨t,
    { pq := hpq, count := hcount, root := hroot, n_le := hn, wf := Memory.wf_of_le hn hF.wf, rep := hrep, leaves := hleaves
      weight := hw, leafAt := hF.leafAt
      internal := fun k hk hk' => by
        obtain ⟨a, b, c, d, -⟩ := hF.internal k hk hk'
        exact ⟨a, b, c, d⟩
      above := fun k hk => Memory.read_above hF.wf hk
      stack := h1, lutWf := h2, absent := fun x hx => h3 x (fun h => hx (hleaves.mem_iff.1 h))
      code := fun x hx => h4 x (hleaves.mem_iff.2 hx) }⟩

/-- The children of an internal entry are earlier entries. -/
theorem Built.child_lt {freq : Memory Word} {t : HTree} (h : Built freq t) {k : Nat} (hk : k < (buildTree freq).n)
    (hi : (Memory.read NodeEntry.zero (buildTree freq).node k).kind = .internal) :
    (Memory.read NodeEntry.zero (buildTree freq).node k).l.toNat < k
      ∧ (Memory.read NodeEntry.zero (buildTree freq).node k).r.toNat < k := by
  rcases Nat.lt_or_ge k (presentSyms freq).length with hlt | hge
  · rw [h.leafAt k hlt] at hi
    cases hi
  · exact (h.internal k hge hk).2.2

/-- R107: a symbol has a code exactly when it is present. -/
theorem Built.len_ne_zero {freq : Memory Word} {t : HTree} (h : Built freq t) (x : Nat) :
    (Memory.read LutEntry.zero (deriveLut (buildTree freq).node (builtRoot freq)).2 x).len ≠ 0#9 ↔ x ∈ presentSyms freq := by
  by_cases hx : x ∈ presentSyms freq
  · obtain ⟨h1, h2, -⟩ := h.code x hx
    refine iff_of_true (fun h0 => ?_) hx
    rw [h0, h1] at h2
    cases t with
    | leaf => simp [HTree.code] at h2
    | node l r =>
      simp only [HTree.code, HTree.path] at h2
      split at h2 <;> simp at h2
  · rw [h.absent x hx]
    exact iff_of_false (fun h => h rfl) hx

/-- The rule of TREE_BUILD for a model with a present symbol. -/
theorem treeBuildRule_done {s : State} (hP : presentSyms s.freq ≠ []) :
    treeBuildRule s = .done { s with
      node := (buildTree s.freq).node
      root := builtRoot s.freq
      pq := []
      nodeCount := BitVec.ofNat 10 (buildTree s.freq).n
      rootWeight := weightOf (buildTree s.freq).node (builtRoot s.freq)
      travStack := []
      lut := (deriveLut (buildTree s.freq).node (builtRoot s.freq)).2
      phase := .treeReady } := by
  obtain ⟨t, h⟩ := built s.freq hP
  unfold treeBuildRule
  simp only [h.pq, h.stack]

/-- The rule of TREE_BUILD for a model without one. -/
theorem treeBuildRule_stop {s : State} (hP : presentSyms s.freq = []) : treeBuildRule s = .stop .noRootElement := by
  unfold treeBuildRule
  simp only [buildTree_empty s.freq hP]

end Sys2Proof.Machine
end

