-- ==== Sys2Proof/Laws/Commands.lean ====
section
/-! SUPPORT. What a command can do, said once: every command but SOFT_RESET is the dispatch around its rule, and a next state of exec comes
about in four ways only.  The same for one accepted word and for one step. -/

namespace Sys2Proof.Machine

/-- The rule of each command, its dispatch left out. -/
def ruleOf : Instr → State → Effect
  | .nop, s => .done s
  | .fmClear, s => .done { s.modelReset with phase := .counting }
  | .fmCount b, s => fmCountRule b s
  | .fmClose, s => fmCloseRule s
  | .fmQuery sym, s => .done { s with qCount := s.freqAt sym.toNat }
  | .hdrBegin, s => .done { s.modelReset with phase := .hdrLoading }
  | .hdrByte b, s => hdrByteRule b s
  | .hdrEmit, s => .done (s.emitBytes (headerBytes s.params s.numSyms s.freq))
  | .treeBuild, s => treeBuildRule s
  | .lutQuery sym, s =>
    .done { s with
      lutLenR := (s.lutAt sym.toNat).len, lutBitsR := LutBits.ofPattern (s.lutAt sym.toNat).pat }
  | .encStart, s => .done { s with bitCount := 0#64, phase := .encoding }
  | .encSym b, s => encSymRule b s
  | .encEnd, s => .done { emitCode (s.lutAt Config.eofId) s with phase := .treeReady }
  | .decStart, s => .done { s with dstate := .atRoot, decNode := s.root, decCount := 0#64, phase := .decoding }
  | .decBit t, s => decBitRule t s
  | .decEnd, s => decEndRule s
  | .softReset, s => .done s.applyReset

/-- R74: exec of a command other than SOFT_RESET is the dispatch around its rule. -/
theorem exec_eq_perform {i : Instr} (h : i ≠ .softReset) (s : State) : exec i s = perform i (ruleOf i) s := by
  cases i <;> first | exact absurd rfl h | rfl

@[simp] theorem exec_softReset (s : State) : exec .softReset s = .next s.applyReset := rfl

/-- A record's fault is a fault. -/
theorem processRecord_raise {v c : Word} {j : Nat} {s : State} {k : Cause} (h : processRecord v c j s = .raise k) :
    k = .hdrMalformed ∨ k = .countOverflow := by
  unfold processRecord at h
  split at h
  · cases h; exact .inl rfl
  · split at h
    · cases h; exact .inl rfl
    · split at h
      · cases h; exact .inl rfl
      · split at h
        · cases h; exact .inr rfl
        · dsimp only at h
          split at h
          · split at h
            · cases h; exact .inl rfl
            · cases h
          · cases h

/-- The faults of a command's own rule (R74): none of the faults of the decoder or of the phase check. -/
theorem ruleOf_raise_own {i : Instr} {s : State} {k : Cause} (h : ruleOf i s = .raise k) :
    k ∈ [Cause.tableMismatch, .malformedStream, .hdrMalformed, .countOverflow] := by
  cases i <;> simp only [ruleOf, fmCountRule, fmCloseRule, hdrByteRule, treeBuildRule, encSymRule, decBitRule, decEndRule] at h <;>
    try cases h
  case fmCount b => split at h <;> cases h; decide
  case hdrByte b =>
    split at h
    · split at h <;> cases h; decide
    · split at h
      · rcases processRecord_raise h with rfl | rfl <;> decide
      · cases h
  case treeBuild => split at h <;> cases h
  case encSym b => split at h <;> cases h; decide
  case decBit t =>
    split at h
    · cases h
    · split at h
      · cases h
      · split at h <;> cases h
  case decEnd => split at h <;> cases h; decide

/-- The faults a rule raises have a cause. -/
theorem ruleOf_raise {i : Instr} {s : State} {k : Cause} (h : ruleOf i s = .raise k) : k ≠ .none := by
  have := ruleOf_raise_own h
  rintro rfl
  exact absurd this (by decide)

/-- A record that is accepted leaves the fault state alone. -/
theorem processRecord_done {v c : Word} {j : Nat} {s t : State} (h : processRecord v c j s = .done t) :
    t.faulted = s.faulted := by
  unfold processRecord at h
  split at h
  · cases h
  · split at h
    · cases h
    · split at h
      · cases h
      · split at h
        · cases h
        · dsimp only at h
          split at h
          · split at h <;> cases h; rfl
          · cases h; rfl

/-- A rule that is done leaves FAULTED as it was. -/
theorem ruleOf_done_faulted {i : Instr} {s t : State} (hi : i ≠ .softReset) (h : ruleOf i s = .done t) :
    t.faulted = s.faulted := by
  cases i <;> simp only [ruleOf, fmCountRule, fmCloseRule, hdrByteRule, treeBuildRule, encSymRule, decBitRule, decEndRule] at h <;>
    try (cases h; rfl)
  case fmCount b => split at h <;> cases h; rfl
  case hdrByte b =>
    split at h
    · split at h <;> cases h; rfl
    · split at h
      · have := processRecord_done h; exact this
      · cases h; rfl
  case treeBuild => split at h <;> cases h; rfl
  case encSym b => split at h <;> cases h; rw [emitCode_eq]
  case encEnd => cases h; rw [emitCode_eq]
  case decBit t =>
    split at h
    · cases h; rfl
    · split at h
      · cases h
      · split at h <;> cases h
        unfold decLand
        split
        · split <;> rfl
        · rfl
  case decEnd => split at h <;> cases h; rfl
  case softReset => exact absurd rfl hi

theorem phaseCause_ne_none (i : Instr) (s : State) : phaseCause i s ≠ .none := by
  unfold phaseCause
  split <;> decide

/-- How exec comes to a next state: SOFT_RESET, ignored while faulted, a fault taken, or the rule done. -/
theorem exec_next_cases {i : Instr} {s t : State} (h : exec i s = .next t) :
    (i = .softReset ∧ t = s.applyReset)
      ∨ (i ≠ .softReset ∧ s.faulted = true ∧ t = s)
      ∨ (i ≠ .softReset ∧ s.faulted = false ∧ ∃ c, c ≠ .none ∧ t = s.enterFault c (encode i))
      ∨ (i ≠ .softReset ∧ s.faulted = false ∧ i.wf = true ∧ s.phase ∈ legalPhases i ∧ ruleOf i s = .done t) := by
  by_cases hi : i = .softReset
  · subst hi
    exact .inl ⟨rfl, by simpa using h.symm⟩
  · rw [exec_eq_perform hi] at h
    rcases perform_cases h with ⟨hf, ht⟩ | ⟨hf, _, ht⟩ | ⟨hf, _, _, ht⟩ | ⟨hf, hw, hp, hr⟩
    · cases ht; exact .inr (.inl ⟨hi, hf, rfl⟩)
    · cases ht; exact .inr (.inr (.inl ⟨hi, hf, _, by decide, rfl⟩))
    · cases ht; exact .inr (.inr (.inl ⟨hi, hf, _, phaseCause_ne_none i s, rfl⟩))
    · rcases hr with ⟨u, hu, ht⟩ | ⟨c, hc, ht⟩ | ⟨f, _, ht⟩
      · cases ht; exact .inr (.inr (.inr ⟨hi, hf, hw, hp, hu⟩))
      · cases ht; exact .inr (.inr (.inl ⟨hi, hf, c, ruleOf_raise hc, rfl⟩))
      · cases ht

/-- A command that is legal runs its rule. -/
theorem exec_done {i : Instr} {s t : State} (hi : i ≠ .softReset) (hf : s.faulted = false) (hw : i.wf = true)
    (hp : s.phase ∈ legalPhases i) (hr : ruleOf i s = .done t) : exec i s = .next t := by
  rw [exec_eq_perform hi]
  exact perform_done hf hw hp hr

theorem exec_raise {i : Instr} {s : State} {c : Cause} (hi : i ≠ .softReset) (hf : s.faulted = false) (hw : i.wf = true)
    (hp : s.phase ∈ legalPhases i) (hr : ruleOf i s = .raise c) : exec i s = .next (s.enterFault c (encode i)) := by
  rw [exec_eq_perform hi]
  exact perform_raise hf hw hp hr

/-- exec stops only where a rule stops. -/
theorem exec_stop_cases {i : Instr} {s : State} {f : Fault} (h : exec i s = .fault f) :
    i ≠ .softReset ∧ s.faulted = false ∧ s.phase ∈ legalPhases i ∧ ruleOf i s = .stop f := by
  have hi : i ≠ .softReset := by rintro rfl; cases h
  rw [exec_eq_perform hi] at h
  rcases perform_cases h with ⟨_, ht⟩ | ⟨_, _, ht⟩ | ⟨_, _, _, ht⟩ | ⟨hf, _, hp, hr⟩
  · cases ht
  · cases ht
  · cases ht
  · rcases hr with ⟨_, _, ht⟩ | ⟨_, _, ht⟩ | ⟨g, hg, ht⟩
    · cases ht
    · cases ht
    · cases ht; exact ⟨hi, hf, hp, hg⟩

/-- exec refuses nothing. -/
theorem exec_not_refused (i : Instr) (s : State) (r : Refusal) : exec i s ≠ .refused r := by
  intro h
  by_cases hi : i = .softReset
  · subst hi; cases h
  · rw [exec_eq_perform hi] at h
    rcases perform_cases h with ⟨_, ht⟩ | ⟨_, _, ht⟩ | ⟨_, _, _, ht⟩ | ⟨_, _, _, ⟨_, _, ht⟩ | ⟨_, _, ht⟩ | ⟨_, _, ht⟩⟩ <;>
      cases ht

/-- rst is 1 exactly in the cycle of that event. -/
theorem State.rstIn_cons {s : State} {e : HostEvent} {rest : List HostEvent} (h : s.hostIn = e :: rest) :
    s.rstIn = decide (e = .rst) := by
  unfold State.rstIn
  rw [h]
  cases e <;> rfl

/-- R77: while a command word is presented, cmd_ready = NOT BUSY. -/
theorem State.cmdReady_command {s : State} {w : Word} {rest : List HostEvent} (h : s.hostIn = .command w :: rest) :
    s.cmdReady = !s.busy := by
  simp [State.cmdReady, State.rstIn_cons h]

/-- Taking a bit where bout_valid = 1 is taking the front bit, if there is one. -/
theorem takeBit_valid {s : State} {rest : List HostEvent} (h : s.hostIn = .takeBit :: rest) :
    (if s.boutValid then takeBit { s with hostIn := rest } else { s with hostIn := rest })
      = takeBit { s with hostIn := rest } := by
  cases hb : s.bout <;> simp [State.boutValid, State.rstIn_cons h, hb, takeBit]

/-- Taking a byte where yout_valid = 1 is taking the front byte, if there is one. -/
theorem takeByte_valid {s : State} {rest : List HostEvent} (h : s.hostIn = .takeByte :: rest) :
    (if s.youtValid then takeByte { s with hostIn := rest } else { s with hostIn := rest })
      = takeByte { s with hostIn := rest } := by
  cases hb : s.yout <;> simp [State.youtValid, State.rstIn_cons h, hb, takeByte]

/-- How a step comes to a next state: nothing to come, a word that is not accepted, a word accepted, a read, an element taken, rst. -/
theorem step_next_cases {s t : State} (h : step s = .next t) :
    (s.hostIn = [] ∧ t = s)
      ∨ (∃ w rest, s.hostIn = .command w :: rest ∧ s.busy = true ∧ t = s)
      ∨ (∃ w rest, s.hostIn = .command w :: rest ∧ s.busy = false ∧ acceptWord w { s with hostIn := rest } = .next t)
      ∨ (∃ a rest, s.hostIn = .readReg a :: rest ∧ t = readRegister a { s with hostIn := rest })
      ∨ (∃ rest, s.hostIn = .takeBit :: rest ∧ t = takeBit { s with hostIn := rest })
      ∨ (∃ rest, s.hostIn = .takeByte :: rest ∧ t = takeByte { s with hostIn := rest })
      ∨ (∃ rest, s.hostIn = .rst :: rest ∧ t = ({ s with hostIn := rest } : State).applyReset) := by
  unfold step nextEvent at h
  cases hh : s.hostIn with
  | nil =>
    simp only [hh, Host.Outcome.next.injEq] at h
    exact .inl ⟨rfl, h.symm⟩
  | cons e rest =>
    simp only [hh] at h
    cases e with
    | command w =>
      simp only [hostStep, State.cmdReady_command hh] at h
      cases hb : s.busy with
      | true =>
        simp only [hb, Bool.not_true, Bool.false_eq_true, if_false, Host.Outcome.next.injEq] at h
        exact .inr (.inl ⟨w, rest, rfl, rfl, h.symm⟩)
      | false =>
        simp only [hb, Bool.not_false, if_true] at h
        refine .inr (.inr (.inl ⟨w, rest, rfl, rfl, ?_⟩))
        rw [← h]
    | readReg a => exact .inr (.inr (.inr (.inl ⟨a, rest, rfl, by simpa [hostStep] using h.symm⟩)))
    | takeBit => exact .inr (.inr (.inr (.inr (.inl ⟨rest, rfl, (Host.Outcome.next.inj h).symm.trans (takeBit_valid hh)⟩))))
    | takeByte =>
      exact .inr (.inr (.inr (.inr (.inr (.inl ⟨rest, rfl, (Host.Outcome.next.inj h).symm.trans (takeByte_valid hh)⟩)))))
    | rst => exact .inr (.inr (.inr (.inr (.inr (.inr ⟨rest, rfl, by simpa [hostStep] using h.symm⟩)))))

/-- R74: how an accepted word comes to a next state. -/
theorem acceptWord_next_cases {w : Word} {s t : State} (h : acceptWord w s = .next t) :
    (∃ i, decode w = .ok i ∧ exec i s = .next t)
      ∨ ((∃ e, decode w = .error e)
        ∧ ((s.faulted = true ∧ t = s) ∨ (s.faulted = false ∧ t = s.enterFault .illegalCmd w))) := by
  unfold acceptWord at h
  split at h
  next i hi => exact .inl ⟨i, hi, h⟩
  next e he =>
    refine .inr ⟨⟨e, he⟩, ?_⟩
    cases hf : s.faulted with
    | true => rw [hf] at h; simp only [if_true, Host.Outcome.next.injEq] at h; exact .inl ⟨rfl, h.symm⟩
    | false => rw [hf] at h; simp at h; exact .inr ⟨rfl, h.symm⟩

end Sys2Proof.Machine
end

