-- ==== Sys2Proof/Laws/Walk.lean ====
section
/-! SUPPORT. Codes as paths: no path is the start of another, the paths of a tree fill the code space, and the decoder that is fed a path
lands on the path's leaf. -/

namespace Sys2Proof.Machine

/-! ### Paths (R103) -/

/-- No leaf's path is the start of another's. -/
theorem HTree.path_prefix (t : HTree) {x y : Nat} (hx : x ∈ t.leaves) (hy : y ∈ t.leaves) (h : t.path x <+: t.path y) :
    x = y := by
  induction t with
  | leaf s =>
    simp only [leaves, List.mem_singleton] at hx hy
    rw [hx, hy]
  | node l r ihl ihr =>
    simp only [leaves, List.mem_append] at hx hy
    simp only [path] at h
    by_cases hxl : x ∈ l.leaves <;> by_cases hyl : y ∈ l.leaves <;> simp only [hxl, hyl, if_true, if_false] at h
    · exact ihl hxl hyl (List.cons_prefix_cons.1 h).2
    · exact absurd (List.cons_prefix_cons.1 h).1 (by decide)
    · exact absurd (List.cons_prefix_cons.1 h).1 (by decide)
    · exact ihr (by tauto) (by tauto) (List.cons_prefix_cons.1 h).2

/-- The paths of a tree fill the code space: counted in strings of N bits, none is left over. -/
theorem HTree.kraft (t : HTree) (hnd : t.leaves.Nodup) {N : Nat} (hN : t.height ≤ N) :
    (t.leaves.map (fun x => 2 ^ (N - (t.path x).length))).sum = 2 ^ N := by
  induction t generalizing N with
  | leaf s => simp [leaves, path]
  | node l r ihl ihr =>
    simp only [leaves, height] at hnd hN ⊢
    obtain ⟨hndl, hndr, hdisj⟩ := List.nodup_append.1 hnd
    obtain ⟨M, rfl⟩ : ∃ M, N = M + 1 := ⟨N - 1, by omega⟩
    have h1 : l.leaves.map (fun x => 2 ^ (M + 1 - ((HTree.node l r).path x).length))
        = l.leaves.map (fun x => 2 ^ (M - (l.path x).length)) := by
      refine List.map_congr_left fun x hx => ?_
      simp only [path, hx, if_true, List.length_cons, Nat.add_sub_add_right]
    have h2 : r.leaves.map (fun x => 2 ^ (M + 1 - ((HTree.node l r).path x).length))
        = r.leaves.map (fun x => 2 ^ (M - (r.path x).length)) := by
      refine List.map_congr_left fun x hx => ?_
      have : x ∉ l.leaves := fun h => hdisj x h x hx rfl
      simp only [path, this, if_false, List.length_cons, Nat.add_sub_add_right]
    rw [List.map_append, List.sum_append, h1, h2, ihl hndl (by omega), ihr hndr (by omega), Nat.pow_succ]
    omega

/-- The same of codes. -/
theorem HTree.code_prefix (t : HTree) {x y : Nat} (hx : x ∈ t.leaves) (hy : y ∈ t.leaves) (h : t.code x <+: t.code y) :
    x = y := by
  cases t with
  | leaf s =>
    simp only [leaves, List.mem_singleton] at hx hy
    rw [hx, hy]
  | node l r => exact HTree.path_prefix _ hx hy h

/-! ### The decoder on a path (R119) -/

/-- One bit leads from an internal entry to the child it names. -/
theorem decBitRule_internal {s : State} {t : Bool} (hd : s.dstate ≠ .done) (hr : s.root.toNat < Config.maxNodes)
    (hk : (s.nodeAt s.root.toNat).kind = .internal) (hn : s.decNode.toNat < Config.maxNodes)
    (hc : (if t then (s.nodeAt s.decNode.toNat).r else (s.nodeAt s.decNode.toNat).l).toNat < Config.maxNodes) :
    decBitRule t s = .done
      (decLand (if t then (s.nodeAt s.decNode.toNat).r else (s.nodeAt s.decNode.toNat).l)
        (s.nodeAt (if t then (s.nodeAt s.decNode.toNat).r else (s.nodeAt s.decNode.toNat).l).toNat) s) := by
  unfold decBitRule decTarget
  rw [if_neg hd, nodeChecked_ok hr]
  simp only [hk, nodeChecked_ok hn, nodeChecked_ok hc]

/-- What the decoder does on landing depends on its position before only through what it leaves alone. -/
theorem decLand_position (n : NodeIdx) (nd : NodeEntry) (s : State) (d : DState) (m : NodeIdx) :
    decLand n nd { s with dstate := d, decNode := m } = decLand n nd s := by
  unfold decLand
  split
  · split <;> rfl
  · rfl

/-- Fed the path of a leaf from the node it is at, the decoder lands on that leaf. -/
theorem walk {s : State} {n : Nat} {i : NodeIdx} {t : HTree} {x : Nat} (h : Represents s.node n i t) (hn : n ≤ Config.maxNodes)
    (hx : x ∈ t.leaves) (hf : s.faulted = false) (hp : s.phase = .decoding) (hr : s.root.toNat < Config.maxNodes)
    (hk : (s.nodeAt s.root.toNat).kind = .internal) (hne : t.path x ≠ []) (hi : s.decNode = i) (hd : s.dstate ≠ .done) :
    ∃ j : NodeIdx, (s.nodeAt j.toNat).kind = .leaf ∧ (s.nodeAt j.toNat).sym.toNat = x
      ∧ runCommands ((t.path x).map .decBit) s = .next (decLand j (s.nodeAt j.toNat) s) := by
  have leg : ∀ u : State, u.phase = .decoding → ∀ b, u.phase ∈ legalPhases (.decBit b) := fun u hu b => by
    simp [legalPhases, hu]
  induction t generalizing s i with
  | leaf y => exact absurd rfl hne
  | node l r ihl ihr =>
    cases h with
    | node hilt hik hl hr' =>
      subst hi
      have go : ∀ (b : Bool) (c : HTree) (rest : List Bool), (HTree.node l r).path x = b :: rest → rest = c.path x →
          Represents s.node n (if b then (s.nodeAt s.decNode.toNat).r else (s.nodeAt s.decNode.toNat).l) c → x ∈ c.leaves →
          (∀ {s : State} {i : NodeIdx}, Represents s.node n i c → x ∈ c.leaves → s.faulted = false → s.phase = .decoding →
            s.root.toNat < Config.maxNodes → (s.nodeAt s.root.toNat).kind = .internal → c.path x ≠ [] → s.decNode = i →
            s.dstate ≠ .done → ∃ j : NodeIdx, (s.nodeAt j.toNat).kind = .leaf ∧ (s.nodeAt j.toNat).sym.toNat = x
              ∧ runCommands ((c.path x).map .decBit) s = .next (decLand j (s.nodeAt j.toNat) s)) →
          ∃ j : NodeIdx, (s.nodeAt j.toNat).kind = .leaf ∧ (s.nodeAt j.toNat).sym.toNat = x
            ∧ runCommands (((HTree.node l r).path x).map .decBit) s = .next (decLand j (s.nodeAt j.toNat) s) := by
        intro b c rest hpath hrest hc hxc ih
        generalize hm : (if b then (s.nodeAt s.decNode.toNat).r else (s.nodeAt s.decNode.toNat).l) = m at hc
        have hmlt := hc.lt
        have hrule := decBitRule_internal (t := b) hd hr hk (by omega) (by rw [hm]; omega)
        rw [hm] at hrule
        have hex : exec (.decBit b) s = .next (decLand m (s.nodeAt m.toNat) s) :=
          exec_done (by simp) hf rfl (leg s hp b) hrule
        rw [hpath, hrest, List.map_cons, runCommands_cons hex]
        cases hc with
        | leaf hmi hmk =>
          refine ⟨m, hmk, ?_, rfl⟩
          simp only [HTree.leaves, List.mem_singleton] at hxc
          exact hxc.symm
        | @node _ cl cr hmi hmk hcl hcr =>
          have hland : decLand m (s.nodeAt m.toNat) s = { s with dstate := .descending, decNode := m } := by
            unfold decLand
            rw [show (s.nodeAt m.toNat).kind = .internal from hmk]
          rw [hland]
          obtain ⟨j, hj1, hj2, hj3⟩ := ih (s := { s with dstate := .descending, decNode := m }) (i := m)
            (.node hmi hmk hcl hcr) hxc hf hp hr hk (by simp only [HTree.path]; split <;> simp) rfl (by simp)
          exact ⟨j, hj1, hj2, hj3.trans (by rw [decLand_position]; rfl)⟩
      simp only [HTree.leaves, List.mem_append] at hx
      by_cases hxl : x ∈ l.leaves
      · exact go false l (l.path x) (by simp [HTree.path, hxl]) rfl hl hxl
          (fun h1 h2 h3 h4 h5 h6 h7 h8 h9 => ihl h1 h2 h3 h4 h5 h6 h7 h8 h9)
      · exact go true r (r.path x) (by simp [HTree.path, hxl]) rfl hr' (by tauto)
          (fun h1 h2 h3 h4 h5 h6 h7 h8 h9 => ihr h1 h2 h3 h4 h5 h6 h7 h8 h9)

end Sys2Proof.Machine
end

