-- ==== Sys2Proof/Laws/Runs.lean ====
section
/-! SUPPORT. Runs of one command over a list of operands: counting bytes, encoding bytes, decoding the codes of bytes. -/

namespace Sys2Proof.Machine

/-- R68: a byte operand names the literal of its own value. -/
theorem literalSym_toNat (b : Byte) : (literalSym b).toNat = b.toNat := by
  have := b.isLt
  simp [literalSym]
  omega

theorem byte_lt (b : Byte) : b.toNat < Config.nSym := by
  have := b.isLt
  show b.toNat < 257
  omega

/-! ### Encoding (R110, R116) -/

/-- One ENC_SYM of a byte that has a code. -/
theorem exec_encSym {s : State} {b : Byte} (hf : s.faulted = false) (hp : s.phase = .encoding)
    (h : (s.lutAt b.toNat).len ≠ 0#9) : exec (.encSym b) s = .next (emitCode (s.lutAt b.toNat) s) := by
  refine exec_done (by simp) hf rfl (by simp [legalPhases, hp]) ?_
  simp only [ruleOf, encSymRule, literalSym_toNat]
  rw [if_neg h]

/-- The bits a code adds to BITCOUNT are the code's bits. -/
theorem setWidth_len (e : LutEntry) : e.len.setWidth 64 = BitVec.ofNat 64 (codeBits e.len.toNat e.pat).length := by
  apply BitVec.eq_of_toNat_eq
  have := e.len.isLt
  simp only [codeBits_length, BitVec.toNat_setWidth, BitVec.toNat_ofNat]

/-- ENC_SYM over bytes that all have codes. -/
theorem runCommands_encSym (bs : List Byte) {s : State} (hf : s.faulted = false) (hp : s.phase = .encoding)
    (hs : s.encShift = 0#256) (h : ∀ b ∈ bs, (s.lutAt b.toNat).len ≠ 0#9) :
    runCommands (bs.map .encSym) s = .next { s with
      bout := s.bout ++ bs.flatMap (fun b => codeOf s.lut b.toNat)
      bitCount := s.bitCount + BitVec.ofNat 64 (bs.flatMap (fun b => codeOf s.lut b.toNat)).length } := by
  induction bs generalizing s with
  | nil => simp
  | cons b bs ih =>
    rw [List.map_cons, runCommands_cons (exec_encSym hf hp (h b (by simp))), emitCode_eq]
    refine (ih (s := { s with
      bout := s.bout ++ codeBits (s.lutAt b.toNat).len.toNat (s.lutAt b.toNat).pat, encShift := 0#256
      bitCount := s.bitCount + (s.lutAt b.toNat).len.setWidth 64 }) hf hp rfl (fun b' hb' => h b' (by simp [hb']))).trans ?_
    rw [setWidth_len]
    simp only [List.flatMap_cons, List.append_assoc, List.length_append, BitVec.ofNat_add, BitVec.add_assoc, hs]
    rfl

/-! ### Counting (R83, R87) -/

/-- One FM_COUNT below the bound. -/
theorem exec_fmCount {s : State} {b : Byte} (hf : s.faulted = false) (hp : s.phase = .counting) (ht : s.total ≠ 0xFFFFFFFE#32) :
    exec (.fmCount b) s = .next { s with
      numSyms := if s.freqAt b.toNat = 0#32 then s.numSyms + 1#9 else s.numSyms
      freq := Memory.write 0#32 s.freq b.toNat (s.freqAt b.toNat + 1#32)
      total := s.total + 1#32 } := by
  refine exec_done (by simp) hf rfl (by simp [legalPhases, hp]) ?_
  simp only [ruleOf, fmCountRule, literalSym_toNat]
  rw [if_neg ht]

/-- What FM_COUNT over bytes leaves, from an open model that holds the counts of the bytes done before. -/
structure Counted (s t : State) (done : List Byte) : Prop where
  frame : ∃ f n k, t = { s with freq := f, numSyms := n, total := k }
  wf : Memory.wf 0#32 Config.nSym t.freq = true
  count : ∀ v : Byte, (t.freqAt v.toNat).toNat = done.count v
  other : ∀ j, 256 ≤ j → t.freqAt j = 0#32
  numSyms : t.numSyms.toNat = (presentSyms t.freq).length
  total : t.total.toNat = done.length

theorem Counted.step {s t : State} {done : List Byte} (h : Counted s t done) (b : Byte) (hf : s.faulted = false)
    (hp : s.phase = .counting) (hlen : done.length + 1 ≤ 2 ^ 32 - 2) :
    ∃ u, exec (.fmCount b) t = .next u ∧ Counted s u (done ++ [b]) := by
  have hft : t.faulted = false := by obtain ⟨f, n, k, rfl⟩ := h.frame; exact hf
  have hpt : t.phase = .counting := by obtain ⟨f, n, k, rfl⟩ := h.frame; exact hp
  have ht : t.total ≠ 0xFFFFFFFE#32 := by
    intro h0
    have := h.total
    rw [h0] at this
    simp at this
    omega
  refine ⟨_, exec_fmCount hft hpt ht, ?_⟩
  have hb := byte_lt b
  have hc := h.count b
  have hcl : done.count b ≤ done.length := List.count_le_length
  have hadd : (t.freqAt b.toNat + 1#32).toNat = (t.freqAt b.toNat).toNat + 1 := by
    rw [BitVec.toNat_add, hc, show (1#32).toNat = 1 from rfl]
    exact Nat.mod_eq_of_lt (by omega)
  have hne : t.freqAt b.toNat + 1#32 ≠ 0#32 := by
    intro h0
    rw [h0] at hadd
    simp at hadd
  constructor
  · obtain ⟨f, n, k, rfl⟩ := h.frame
    exact ⟨_, _, _, rfl⟩
  · exact Memory.wf_write h.wf hb
  · intro v
    unfold State.freqAt
    dsimp only
    rw [Memory.read_write h.wf, List.count_append, List.count_singleton]
    by_cases hbv : b = v
    · subst hbv
      rw [if_pos rfl]
      refine hadd.trans ?_
      rw [hc]
      simp
    · rw [if_neg (fun h0 => hbv (BitVec.eq_of_toNat_eq h0))]
      have := h.count v
      unfold State.freqAt at this
      rw [this]
      simp [hbv]
  · intro j hj
    unfold State.freqAt
    dsimp only
    have : b.toNat ≠ j := by have := b.isLt; omega
    rw [Memory.read_write_other h.wf this]
    exact h.other j hj
  · dsimp only
    by_cases h0 : t.freqAt b.toNat = 0#32
    · have hle := presentSyms_length_le (Memory.write 0#32 t.freq b.toNat (t.freqAt b.toNat + 1#32))
      rw [if_pos h0, presentSyms_write_new h.wf hb h0 hne] at *
      rw [BitVec.toNat_add, h.numSyms, show (1#9).toNat = 1 from rfl]
      exact Nat.mod_eq_of_lt (by omega)
    · rw [if_neg h0, presentSyms_write_old h.wf h0 hne]
      exact h.numSyms
  · dsimp only
    rw [BitVec.toNat_add, h.total, show (1#32).toNat = 1 from rfl, List.length_append, List.length_singleton]
    exact Nat.mod_eq_of_lt (by omega)

theorem Counted.run {s t : State} {done : List Byte} (h : Counted s t done) (bs : List Byte) (hf : s.faulted = false)
    (hp : s.phase = .counting) (hlen : done.length + bs.length ≤ 2 ^ 32 - 2) :
    ∃ u, runCommands (bs.map .fmCount) t = .next u ∧ Counted s u (done ++ bs) := by
  induction bs generalizing t done with
  | nil => exact ⟨t, rfl, by simpa using h⟩
  | cons b bs ih =>
    simp only [List.length_cons] at hlen
    obtain ⟨u, hu, hcu⟩ := h.step b hf hp (by omega)
    obtain ⟨v, hv, hcv⟩ := ih hcu (by simp; omega)
    refine ⟨v, ?_, by simpa using hcv⟩
    rw [List.map_cons, runCommands_cons hu, hv]

/-! ### Decoding (R119, R124) -/

/-- The decoder at the root, fed the code of a literal of a tree of two or more leaves, emits the literal. -/
theorem runCommands_decCode {s : State} {n : Nat} {l r : HTree} {b : Byte} (h : Represents s.node n s.root (.node l r))
    (hn : n ≤ Config.maxNodes) (hb : b.toNat ∈ (HTree.node l r).leaves) (hf : s.faulted = false) (hp : s.phase = .decoding)
    (hd : s.dstate ≠ .done) (hi : s.decNode = s.root) :
    runCommands (((HTree.node l r).path b.toNat).map .decBit) s = .next { s with
      yout := s.yout ++ [b], decCount := s.decCount + 1#64, decNode := s.root, dstate := .atRoot } := by
  have hk : (s.nodeAt s.root.toNat).kind = .internal := by cases h; assumption
  have hlt := h.lt
  obtain ⟨j, h1, h2, h3⟩ := walk h hn hb hf hp (by omega) hk (by simp only [HTree.path]; split <;> simp) hi hd
  rw [h3]
  have hne : (s.nodeAt j.toNat).sym.toNat ≠ Config.eofId := by
    rw [h2]
    have := b.isLt
    show b.toNat ≠ 256
    omega
  have hsym : (s.nodeAt j.toNat).sym.extractLsb' 0 8 = b := by
    apply BitVec.eq_of_toNat_eq
    have := b.isLt
    simp only [BitVec.extractLsb'_toNat, h2, Nat.shiftRight_zero]
    omega
  unfold decLand
  simp only [h1, if_neg hne, hsym]
  rfl

/-- The same over bytes that are all leaves of the tree. -/
theorem runCommands_decCodes (bs : List Byte) {s : State} {n : Nat} {l r : HTree}
    (h : Represents s.node n s.root (.node l r)) (hn : n ≤ Config.maxNodes)
    (hb : ∀ b ∈ bs, b.toNat ∈ (HTree.node l r).leaves) (hf : s.faulted = false) (hp : s.phase = .decoding)
    (hd : s.dstate = .atRoot) (hi : s.decNode = s.root) :
    runCommands ((bs.flatMap (fun b => (HTree.node l r).path b.toNat)).map .decBit) s = .next { s with
      yout := s.yout ++ bs, decCount := s.decCount + BitVec.ofNat 64 bs.length } := by
  induction bs generalizing s with
  | nil => simp
  | cons b bs ih =>
    rw [List.flatMap_cons, List.map_append, runCommands_append
      (runCommands_decCode h hn (hb b (by simp)) hf hp (by rw [hd]; decide) hi)]
    refine (ih (s := { s with
      yout := s.yout ++ [b], decCount := s.decCount + 1#64, decNode := s.root, dstate := .atRoot }) h
        (fun b' hb' => hb b' (by simp [hb'])) hf hp rfl rfl).trans ?_
    simp only [hi, hd, List.append_assoc, List.singleton_append, List.length_cons, Nat.add_comm bs.length 1, BitVec.ofNat_add,
      BitVec.add_assoc]

/-- R121: bits after the EOF leaf change nothing. -/
theorem runCommands_decBit_done (ts : List Bool) {s : State} (hf : s.faulted = false) (hp : s.phase = .decoding)
    (hd : s.dstate = .done) : runCommands (ts.map .decBit) s = .next s := by
  induction ts with
  | nil => rfl
  | cons t ts ih =>
    have : exec (.decBit t) s = .next s := exec_done (by simp) hf rfl (by simp [legalPhases, hp]) (by simp [ruleOf, decBitRule, hd])
    rw [List.map_cons, runCommands_cons this, ih]

end Sys2Proof.Machine
end

