-- ==== Sys2Proof/Laws/HeaderRuns.lean ====
section
/-! SUPPORT. The header as it is received (R132 to R135): bytes shifted in, a record taken, and the records of a list of symbols one after
another. -/

namespace Sys2Proof.Machine

/-- One header byte into HP_BUF (R132). -/
def shiftIn (buf : BitVec 64) (b : Byte) : BitVec 64 := buf.extractLsb' 0 56 ++ b

theorem shiftIn_getLsbD (buf : BitVec 64) (b : Byte) (i : Nat) :
    (shiftIn buf b).getLsbD i = if i < 8 then b.getLsbD i else (decide (i < 64) && buf.getLsbD (i - 8)) := by
  unfold shiftIn
  rw [show (buf.extractLsb' 0 56 ++ b : BitVec 64).getLsbD i = _ from BitVec.getLsbD_append]
  by_cases h : i < 8
  · simp [h]
  · rw [if_neg h, if_neg h, BitVec.getLsbD_extractLsb', Nat.zero_add]
    by_cases h2 : i < 64
    · simp [h2, show i - 8 < 56 by omega]
    · simp [h2, show ¬ i - 8 < 56 by omega]

/-- R127, R49: the eight bytes of a record, shifted in, are its two fields. -/
theorem shiftIn_record (buf : BitVec 64) (v c : Word) : (be32 v ++ be32 c).foldl shiftIn buf = v ++ c := by
  apply BitVec.eq_of_getLsbD_eq
  intro i hi
  rw [show (v ++ c : BitVec 64).getLsbD i = _ from BitVec.getLsbD_append]
  simp only [be32, List.cons_append, List.nil_append, List.foldl_cons, List.foldl_nil, shiftIn_getLsbD,
    BitVec.getLsbD_extractLsb']
  interval_cases i <;> simp

/-- The fields of a record in HP_BUF. -/
theorem record_fields (v c : Word) :
    (v ++ c : BitVec 64).extractLsb' 32 32 = v ∧ (v ++ c : BitVec 64).extractLsb' 0 32 = c := by
  constructor
  · apply BitVec.eq_of_getLsbD_eq
    intro i hi
    rw [BitVec.getLsbD_extractLsb', show (v ++ c : BitVec 64).getLsbD (32 + i) = _ from BitVec.getLsbD_append]
    simp [hi]
  · apply BitVec.eq_of_getLsbD_eq
    intro i hi
    rw [BitVec.getLsbD_extractLsb', Nat.zero_add, show (v ++ c : BitVec 64).getLsbD i = _ from BitVec.getLsbD_append]
    simp [hi]

/-- A byte inside a record. -/
theorem exec_hdrByte_inside {s : State} {b : Byte} (hf : s.faulted = false) (hp : s.phase = .hdrLoading) (h2 : 2 ≤ s.hpBytes.toNat)
    (h7 : (s.hpBytes.toNat - 2) % 8 ≠ 7) :
    exec (.hdrByte b) s = .next { s with hpBuf := shiftIn s.hpBuf b, hpBytes := s.hpBytes + 1#12 } := by
  refine exec_done (by simp) hf rfl (by simp [legalPhases, hp]) ?_
  simp only [ruleOf, hdrByteRule]
  rw [if_neg (by omega), if_neg h7]
  rfl

/-- The last byte of a record. -/
theorem exec_hdrByte_last {s : State} {b : Byte} {t : State} (hf : s.faulted = false) (hp : s.phase = .hdrLoading)
    (h2 : 2 ≤ s.hpBytes.toNat) (h7 : (s.hpBytes.toNat - 2) % 8 = 7)
    (h : processRecord ((shiftIn s.hpBuf b).extractLsb' 32 32) ((shiftIn s.hpBuf b).extractLsb' 0 32) ((s.hpBytes.toNat - 2) / 8)
      { s with hpBuf := shiftIn s.hpBuf b, hpBytes := s.hpBytes + 1#12 } = .done t) :
    exec (.hdrByte b) s = .next t := by
  refine exec_done (by simp) hf rfl (by simp [legalPhases, hp]) ?_
  simp only [ruleOf, hdrByteRule]
  rw [if_neg (by omega), if_pos h7]
  exact h

/-- Bytes that stay inside a record. -/
theorem runCommands_inside (bs : List Byte) {s : State} (hf : s.faulted = false) (hp : s.phase = .hdrLoading)
    (h2 : 2 ≤ s.hpBytes.toNat) (h7 : (s.hpBytes.toNat - 2) % 8 + bs.length ≤ 7) (hb : s.hpBytes.toNat + bs.length < 4096) :
    runCommands (bs.map .hdrByte) s =
      .next { s with hpBuf := bs.foldl shiftIn s.hpBuf, hpBytes := s.hpBytes + BitVec.ofNat 12 bs.length } := by
  induction bs generalizing s with
  | nil => simp
  | cons b bs ih =>
    simp only [List.length_cons] at h7 hb
    have h1 : (s.hpBytes + 1#12).toNat = s.hpBytes.toNat + 1 := by
      rw [BitVec.toNat_add, show (1#12).toNat = 1 from rfl]
      exact Nat.mod_eq_of_lt (by omega)
    rw [List.map_cons, runCommands_cons (exec_hdrByte_inside hf hp h2 (by omega))]
    refine (ih (s := { s with hpBuf := shiftIn s.hpBuf b, hpBytes := s.hpBytes + 1#12 }) hf hp ?_ ?_ ?_).trans ?_
    · dsimp only
      omega
    · dsimp only
      rw [h1]
      omega
    · dsimp only
      omega
    · rw [List.foldl_cons, List.length_cons, Nat.add_comm bs.length 1, BitVec.ofNat_add, BitVec.add_assoc]

/-- The eight bytes of a record that is taken. -/
theorem runCommands_record {s t : State} {v c : Word} {j : Nat} (hf : s.faulted = false) (hp : s.phase = .hdrLoading)
    (hb : s.hpBytes.toNat = 2 + 8 * j) (hj : j < 257)
    (h : processRecord v c j { s with hpBuf := v ++ c, hpBytes := s.hpBytes + 8#12 } = .done t) :
    runCommands ((be32 v ++ be32 c).map .hdrByte) s = .next t := by
  have hsplit : be32 v ++ be32 c = (be32 v ++ [c.extractLsb' 24 8, c.extractLsb' 16 8, c.extractLsb' 8 8]) ++ [c.extractLsb' 0 8] :=
    rfl
  have hlen : (be32 v ++ [c.extractLsb' 24 8, c.extractLsb' 16 8, c.extractLsb' 8 8]).length = 7 := rfl
  have hbuf := shiftIn_record s.hpBuf v c
  rw [hsplit, List.foldl_append, List.foldl_cons, List.foldl_nil] at hbuf
  have h7 : (s.hpBytes + 7#12).toNat = 2 + 8 * j + 7 := by
    rw [BitVec.toNat_add, hb, show (7#12).toNat = 7 from rfl]
    exact Nat.mod_eq_of_lt (by omega)
  rw [hsplit, List.map_append, runCommands_append (runCommands_inside _ hf hp (by omega) (by rw [hlen]; omega) (by rw [hlen]; omega)),
    List.map_singleton]
  refine (runCommands_cons (exec_hdrByte_last
    (s := { s with
      hpBuf := (be32 v ++ [c.extractLsb' 24 8, c.extractLsb' 16 8, c.extractLsb' 8 8]).foldl shiftIn s.hpBuf
      hpBytes := s.hpBytes + BitVec.ofNat 12 (be32 v ++ [c.extractLsb' 24 8, c.extractLsb' 16 8, c.extractLsb' 8 8]).length })
    hf hp ?_ ?_ (t := t) ?_)).trans (runCommands_nil t)
  · dsimp only
    rw [hlen, show BitVec.ofNat 12 7 = 7#12 from rfl, h7]
    omega
  · dsimp only
    rw [hlen, show BitVec.ofNat 12 7 = 7#12 from rfl, h7]
    omega
  · dsimp only
    rw [hbuf, (record_fields v c).1, (record_fields v c).2, hlen, show BitVec.ofNat 12 7 = 7#12 from rfl, h7,
      show (2 + 8 * j + 7 - 2) / 8 = j by omega, BitVec.add_assoc, show (7#12 + 1#12 : BitVec 12) = 8#12 from rfl]
    exact h

/-- R133, R128: the record of a symbol names the symbol. -/
theorem recordSym_headerSym {p : Config.Params} (hp : p.legal) {x : Nat} (hx : x < Config.nSym) :
    recordSym p (headerSym p x) = some x := by
  have hx : x < 257 := hx
  unfold recordSym headerSym
  by_cases h : x = Config.eofId
  · rw [if_pos h, if_pos rfl, h]
  · have h : x ≠ 256 := h
    have hne : BitVec.ofNat 32 x ≠ p.hdrEofSym := by
      intro he
      have hm : p.hdrEofSym.msb = true := hp
      rw [← he, BitVec.msb_eq_decide] at hm
      simp only [BitVec.toNat_ofNat, decide_eq_true_eq] at hm
      omega
    have ht : (BitVec.ofNat 32 x).toNat = x := by
      rw [BitVec.toNat_ofNat]
      exact Nat.mod_eq_of_lt (by omega)
    rw [if_neg h, if_neg hne, ht, if_pos (by omega)]

/-- What the parser holds after the records of the symbols done: their counts of freq and no other. -/
structure Received (s t : State) (freq : Memory Word) (done : List Nat) : Prop where
  frame : ∃ f n k h b, t = { s with freq := f, numSyms := n, total := k, hpBytes := h, hpBuf := b }
  wf : Memory.wf 0#32 Config.nSym t.freq = true
  read : ∀ j, t.freqAt j = if j ∈ done then Memory.read 0#32 freq j else 0#32
  numSyms : t.numSyms.toNat = done.length
  total : t.total.toNat = (done.map (fun i => (Memory.read 0#32 freq i).toNat)).sum
  hpBytes : t.hpBytes.toNat = 2 + 8 * done.length

/-- One more record. -/
theorem Received.step {s t : State} {freq : Memory Word} {done : List Nat} (h : Received s t freq done) {x : Nat}
    (hx : x < Config.nSym) (hxd : x ∉ done) (hx0 : Memory.read 0#32 freq x ≠ 0#32) (hf : s.faulted = false)
    (hp : s.phase = .hdrLoading) (hleg : s.params.legal) (hN : s.hpN.toNat ≤ 257) (hlt : done.length < s.hpN.toNat)
    (hsum : (done.map (fun i => (Memory.read 0#32 freq i).toNat)).sum + (Memory.read 0#32 freq x).toNat ≤ Config.totalMax)
    (hlast : done.length + 1 = s.hpN.toNat → 256 ∈ done ∨ x = 256) (heof : Memory.read 0#32 freq 256 ≠ 0#32) :
    ∃ u, runCommands ((recordBytes s.params freq x).map .hdrByte) t
          = .next { u with phase := if done.length + 1 = s.hpN.toNat then .modelReady else .hdrLoading }
      ∧ Received s u freq (done ++ [x]) := by
  have hsum' : (done.map (fun i => (Memory.read 0#32 freq i).toNat)).sum + (Memory.read 0#32 freq x).toNat ≤ 2 ^ 32 - 1 := hsum
  obtain ⟨⟨f, n, k, hh, bb, rfl⟩, hwf, hread, hns, htot, hhp⟩ := h
  dsimp only at hwf hns htot hhp
  have hb : recordBytes s.params freq x = be32 (headerSym s.params x) ++ be32 (Memory.read 0#32 freq x) := by
    unfold recordBytes
    rw [if_neg hx0]
  have hreadx : Memory.read 0#32 f x = 0#32 := by
    have := hread x
    rw [if_neg hxd] at this
    exact this
  have htc : (k + Memory.read 0#32 freq x).toNat = k.toNat + (Memory.read 0#32 freq x).toNat := by
    rw [BitVec.toNat_add]
    exact Nat.mod_eq_of_lt (by omega)
  refine ⟨{ s with
    freq := Memory.write 0#32 f x (Memory.read 0#32 freq x), numSyms := n + 1#9, total := k + Memory.read 0#32 freq x
    hpBytes := hh + 8#12, hpBuf := headerSym s.params x ++ Memory.read 0#32 freq x }, ?_, ?_⟩
  · rw [hb]
    refine runCommands_record (j := done.length) hf hp hhp (by omega) ?_
    unfold processRecord
    dsimp only
    rw [recordSym_headerSym hleg hx]
    dsimp only
    rw [if_neg hx0, if_neg (by simpa [State.freqAt] using hreadx),
      if_neg (by show ¬ (k.toNat + (Memory.read 0#32 freq x).toNat > 2 ^ 32 - 1); omega)]
    by_cases hl : done.length + 1 = s.hpN.toNat
    · rw [if_pos hl, if_pos hl, if_neg]
      unfold State.freqAt
      dsimp only
      rw [Memory.read_write hwf]
      split
      · exact hx0
      · rcases hlast hl with h | h
        · have := hread 256
          rw [if_pos h] at this
          have this : Memory.read 0#32 f 256 = Memory.read 0#32 freq 256 := this
          show Memory.read 0#32 f 256 ≠ 0#32
          rw [this]
          exact heof
        · contradiction
    · rw [if_neg hl, if_neg hl, ← hp]
  · constructor
    · exact ⟨_, _, _, _, _, rfl⟩
    · exact Memory.wf_write hwf hx
    · intro j
      unfold State.freqAt
      dsimp only
      rw [Memory.read_write hwf]
      by_cases hj : x = j
      · subst hj
        simp
      · have := hread j
        unfold State.freqAt at this
        dsimp only at this
        rw [if_neg hj, this]
        simp [Ne.symm hj]
    · dsimp only
      rw [BitVec.toNat_add, hns, show (1#9).toNat = 1 from rfl, List.length_append, List.length_singleton]
      exact Nat.mod_eq_of_lt (by omega)
    · dsimp only
      rw [htc, htot]
      simp
    · dsimp only
      rw [BitVec.toNat_add, hhp, show (8#12).toNat = 8 from rfl, List.length_append, List.length_singleton]
      rw [Nat.mod_eq_of_lt (by omega)]
      omega

/-- The records of a list of symbols, the last of which completes the header. -/
theorem Received.run {s : State} {freq : Memory Word} (todo : List Nat) {t : State} {done : List Nat} (h : Received s t freq done)
    (hne : todo ≠ []) (hnd : (done ++ todo).Nodup) (hx : ∀ x ∈ todo, x < Config.nSym ∧ Memory.read 0#32 freq x ≠ 0#32)
    (hf : s.faulted = false) (hp : s.phase = .hdrLoading) (hleg : s.params.legal)
    (hN : s.hpN.toNat = done.length + todo.length) (hN257 : s.hpN.toNat ≤ 257)
    (hsum : ((done ++ todo).map (fun i => (Memory.read 0#32 freq i).toNat)).sum ≤ Config.totalMax) (heof : 256 ∈ done ++ todo)
    (heof0 : Memory.read 0#32 freq 256 ≠ 0#32) :
    ∃ u, runCommands ((todo.flatMap (recordBytes s.params freq)).map .hdrByte) t = .next { u with phase := .modelReady }
      ∧ Received s u freq (done ++ todo) := by
  induction todo generalizing t done with
  | nil => exact absurd rfl hne
  | cons x todo ih =>
    simp only [List.length_cons] at hN
    have hxd : x ∉ done := fun hd => (List.nodup_append.1 hnd).2.2 x hd x (by simp) rfl
    have hsum' : (done.map (fun i => (Memory.read 0#32 freq i).toNat)).sum + (Memory.read 0#32 freq x).toNat ≤ Config.totalMax := by
      simp only [List.map_append, List.map_cons, List.sum_append, List.sum_cons] at hsum
      omega
    obtain ⟨u, hu, hru⟩ := h.step (hx x (by simp)).1 hxd (hx x (by simp)).2 hf hp hleg hN257 (by omega) hsum'
      (fun hl => by
        have h0 : todo = [] := List.length_eq_zero_iff.1 (by omega)
        subst h0
        rcases List.mem_append.1 heof with h | h
        · exact .inl h
        · exact .inr (List.mem_singleton.1 h).symm) heof0
    rw [List.flatMap_cons, List.map_append, runCommands_append hu]
    cases todo with
    | nil =>
      rw [if_pos (by simpa using hN.symm)]
      exact ⟨u, by simp, hru⟩
    | cons y todo =>
      rw [if_neg (by simp at hN; omega)]
      have hup : ({ u with phase := .hdrLoading } : State) = u := by
        obtain ⟨f, n, k, h1, h2, rfl⟩ := hru.frame
        rw [← hp]
      rw [hup]
      have happ : done ++ [x] ++ (y :: todo) = done ++ x :: y :: todo := by simp
      obtain ⟨v, hv, hrv⟩ := ih hru (by simp) (by rw [happ]; exact hnd) (fun z hz => hx z (by simp [hz]))
        (by simp at hN ⊢; omega) (by rw [happ]; exact hsum) (by rw [happ]; exact heof)
      exact ⟨v, hv, by rw [← happ]; exact hrv⟩

end Sys2Proof.Machine
end

