-- ==== Sys2Proof/Laws/Merge.lean ====
section
/-! SUPPORT. The order of the queue (R93, R94) and the merges (R96): the two elements a merge pops, and which entries wait in the queue
when an entry is created. -/

namespace Sys2Proof.Machine

/-! ### The order -/

theorem keyLt_iff (node : Memory NodeEntry) (i j : NodeIdx) :
    keyLt node i j = true ↔ KeyBefore node i.toNat j.toNat := by
  unfold keyLt KeyBefore
  simp only [Bool.or_eq_true, Bool.and_eq_true, decide_eq_true_eq]
  rfl

theorem KeyBefore.trans {node : Memory NodeEntry} {i j k : Nat} (h : KeyBefore node i j) (h' : KeyBefore node j k) :
    KeyBefore node i k := by
  unfold KeyBefore at *
  rcases h with h | ⟨h, hi⟩ <;> rcases h' with h' | ⟨h', hj⟩
  · exact .inl (h.trans h')
  · exact .inl (h' ▸ h)
  · exact .inl (h ▸ h')
  · exact .inr ⟨h.trans h', hi.trans hj⟩

theorem KeyBefore.total (node : Memory NodeEntry) {i j : Nat} (h : ¬ KeyBefore node i j) : j = i ∨ KeyBefore node j i := by
  unfold KeyBefore at *
  rcases Nat.lt_trichotomy (Memory.read NodeEntry.zero node i).w.toNat (Memory.read NodeEntry.zero node j).w.toNat
    with hw | hw | hw
  · exact absurd (.inl hw) h
  · have hw := BitVec.eq_of_toNat_eq hw
    have hij : ¬ i < j := fun h0 => h (.inr ⟨hw, h0⟩)
    rcases Nat.lt_or_ge j i with h1 | h1
    · exact .inr (.inr ⟨hw.symm, h1⟩)
    · exact .inl (by omega)
  · exact .inr (.inl hw)

/-- Keys are compared by the entries they are of. -/
theorem KeyBefore.congr {node node' : Memory NodeEntry} {i j : Nat}
    (hi : Memory.read NodeEntry.zero node' i = Memory.read NodeEntry.zero node i)
    (hj : Memory.read NodeEntry.zero node' j = Memory.read NodeEntry.zero node j) :
    KeyBefore node' i j ↔ KeyBefore node i j := by
  unfold KeyBefore
  rw [hi, hj]

/-- No other element comes before the one leastKey answers. -/
theorem leastKey_before (node : Memory NodeEntry) (best : NodeIdx) (pq : List NodeIdx) :
    ∀ j ∈ best :: pq, j = leastKey node best pq ∨ KeyBefore node (leastKey node best pq).toNat j.toNat := by
  induction pq generalizing best with
  | nil =>
    intro j hj
    exact .inl (List.mem_singleton.1 hj)
  | cons i pq ih =>
    intro j hj
    simp only [leastKey]
    have hb := ih (if keyLt node i best then i else best)
    have step : ∀ x : NodeIdx, (x = (if keyLt node i best then i else best)
        ∨ KeyBefore node (if keyLt node i best then i else best).toNat x.toNat) →
        x = leastKey node (if keyLt node i best then i else best) pq
          ∨ KeyBefore node (leastKey node (if keyLt node i best then i else best) pq).toNat x.toNat := by
      intro x hx
      have h0 := hb _ List.mem_cons_self
      rcases hx with rfl | hx
      · exact h0
      · rcases h0 with h0 | h0
        · exact .inr (h0 ▸ hx)
        · exact .inr (h0.trans hx)
    rcases List.mem_cons.1 hj with rfl | hj
    · refine step j ?_
      split
      next h => exact .inr ((keyLt_iff _ _ _).1 h)
      next => exact .inl rfl
    · rcases List.mem_cons.1 hj with rfl | hj
      · refine step j ?_
        split
        next => exact .inl rfl
        next h =>
          rcases KeyBefore.total node (fun h0 => h ((keyLt_iff _ _ _).2 h0)) with h1 | h1
          · exact .inl (BitVec.eq_of_toNat_eq h1.symm)
          · exact .inr h1
      · exact hb j (List.mem_cons_of_mem _ hj)

/-! ### The merges -/

/-- A queue of two or more: the two elements of least key are popped, in order, and their parent is pushed. -/
theorem mergeOnce_least {b : TreeBuild} (h : 1 < b.pq.length) (hnd : b.pq.Nodup) :
    ∃ a c, a ∈ b.pq ∧ c ∈ b.pq ∧ a ≠ c
      ∧ (∀ j ∈ b.pq, j ≠ a → KeyBefore b.node a.toNat j.toNat)
      ∧ (∀ j ∈ b.pq, j ≠ a → j ≠ c → KeyBefore b.node c.toNat j.toNat)
      ∧ mergeOnce b =
        { node := Memory.write NodeEntry.zero b.node b.n
            { kind := .internal, sym := Config.nasId, w := weightOf b.node a + weightOf b.node c, l := a, r := c }
          pq := (b.pq.erase a).erase c ++ [BitVec.ofNat 10 b.n]
          n := b.n + 1 } := by
  obtain ⟨node, pq, n⟩ := b
  dsimp only at h hnd ⊢
  match pq, h with
  | i :: pq, h =>
    generalize ha : leastKey node i pq = a
    have hmem : a ∈ i :: pq := ha ▸ leastKey_mem node i pq
    have hleast : ∀ j ∈ i :: pq, j ≠ a → KeyBefore node a.toNat j.toNat := fun j hj hne => by
      have := leastKey_before node i pq j hj
      rw [ha] at this
      exact this.resolve_left hne
    have hlen : ((i :: pq).erase a).length = pq.length := List.length_erase_of_mem hmem
    cases hq : (i :: pq).erase a with
    | nil =>
      rw [hq] at hlen
      simp only [List.length_nil, List.length_cons] at hlen h
      omega
    | cons i' pq' =>
      generalize hc : leastKey node i' pq' = c
      have hmem' : c ∈ (i :: pq).erase a := by
        rw [hq, ← hc]
        exact leastKey_mem node i' pq'
      have hca := hnd.mem_erase_iff.1 hmem'
      refine ⟨a, c, hmem, hca.2, fun h0 => hca.1 h0.symm, hleast, fun j hj hja hjc => ?_, ?_⟩
      · have := leastKey_before node i' pq' j (hq ▸ hnd.mem_erase_iff.2 ⟨hja, hj⟩)
        rw [hc] at this
        exact this.resolve_left hjc
      · unfold mergeOnce
        simp only [popMin, ha, hq, hc]

/-- What holds while TREE_BUILD merges, after n leaves: the queue holds the entries that wait, and every merge so far popped the least
two of those that waited then. -/
structure Merged (n : Nat) (b : TreeBuild) : Prop where
  queue : ∀ i : NodeIdx, i ∈ b.pq ↔ Waiting b.node n b.n i.toNat
  left : ∀ k, n ≤ k → k < b.n → Waiting b.node n k (Memory.read NodeEntry.zero b.node k).l.toNat
  right : ∀ k, n ≤ k → k < b.n → Waiting b.node n k (Memory.read NodeEntry.zero b.node k).r.toNat
  first : ∀ k j, n ≤ k → k < b.n → Waiting b.node n k j → j ≠ (Memory.read NodeEntry.zero b.node k).l.toNat →
    KeyBefore b.node (Memory.read NodeEntry.zero b.node k).l.toNat j
  second : ∀ k j, n ≤ k → k < b.n → Waiting b.node n k j → j ≠ (Memory.read NodeEntry.zero b.node k).l.toNat →
    j ≠ (Memory.read NodeEntry.zero b.node k).r.toNat → KeyBefore b.node (Memory.read NodeEntry.zero b.node k).r.toNat j

/-- Which entries wait depends on the entries before k alone. -/
theorem Waiting.congr {node node' : Memory NodeEntry} {n k j : Nat}
    (h : ∀ m, m < k → Memory.read NodeEntry.zero node' m = Memory.read NodeEntry.zero node m) :
    Waiting node' n k j ↔ Waiting node n k j := by
  unfold Waiting
  refine and_congr_right fun _ => forall_congr' fun m => imp_congr_right fun _ => forall_congr' fun hm => ?_
  rw [h m hm]

/-- One merge keeps the order. -/
theorem Merged.merge {freq : Memory Word} {b : TreeBuild} {ts : List (NodeIdx × HTree)} (hF : Forest freq b ts)
    (h : Merged (presentSyms freq).length b) (hn : (presentSyms freq).length ≤ b.n) (hlen : 1 < b.pq.length) :
    Merged (presentSyms freq).length (mergeOnce b) := by
  obtain ⟨a, c, ha, hc, hac, hfirst, hsecond, hm⟩ := mergeOnce_least hlen hF.nodup
  have hb : b.n ≤ 512 := by
    have := hF.count
    have := presentSyms_length_le freq
    have := hF.pq.length_eq
    simp only [List.length_map] at this
    omega
  have hidx : (BitVec.ofNat 10 b.n).toNat = b.n := idx_toNat (by omega)
  have hwf : Memory.wf NodeEntry.zero (b.n + 1) b.node = true := Memory.wf_of_le (Nat.le_succ _) hF.wf
  generalize he : ({ kind := .internal, sym := Config.nasId, w := weightOf b.node a + weightOf b.node c, l := a, r := c }
    : NodeEntry) = e at hm
  have hl : e.l = a := by rw [← he]
  have hr : e.r = c := by rw [← he]
  have hold : ∀ j, j < b.n → Memory.read NodeEntry.zero (Memory.write NodeEntry.zero b.node b.n e) j
      = Memory.read NodeEntry.zero b.node j := fun j hj => by
    rw [Memory.read_write hwf, if_neg (by omega)]
  have hnew : Memory.read NodeEntry.zero (Memory.write NodeEntry.zero b.node b.n e) b.n = e := by
    rw [Memory.read_write hwf, if_pos rfl]
  have hwait : ∀ {k j}, k ≤ b.n → (Waiting (Memory.write NodeEntry.zero b.node b.n e) (presentSyms freq).length k j
      ↔ Waiting b.node (presentSyms freq).length k j) := fun hk => Waiting.congr fun m hm => hold m (by omega)
  have hq := h.queue
  have hkey : ∀ {i j}, i < b.n → j < b.n → (KeyBefore (Memory.write NodeEntry.zero b.node b.n e) i j ↔ KeyBefore b.node i j) :=
    fun hi hj => KeyBefore.congr (hold _ hi) (hold _ hj)
  have hmemOf : ∀ j, Waiting b.node (presentSyms freq).length b.n j → BitVec.ofNat 10 j ∈ b.pq ∧ (BitVec.ofNat 10 j).toNat = j :=
    fun j hj => by
      have hj' : (BitVec.ofNat 10 j).toNat = j := idx_toNat (by have := hj.1; omega)
      exact ⟨(hq _).2 (hj'.symm ▸ hj), hj'⟩
  rw [hm]
  constructor
  · intro i
    simp only [List.mem_append, List.mem_singleton, (hF.nodup.erase a).mem_erase_iff, hF.nodup.mem_erase_iff, hq]
    constructor
    · rintro (⟨hic, hia, hi⟩ | rfl)
      · refine ⟨by have := hi.1; omega, fun m hm hm' => ?_⟩
        rcases Nat.lt_or_ge m b.n with hlt | hge
        · rw [hold m hlt]
          exact hi.2 m hm hlt
        · have : m = b.n := by omega
          subst this
          rw [hnew, hl, hr]
          exact ⟨fun h0 => hia (BitVec.eq_of_toNat_eq h0.symm), fun h0 => hic (BitVec.eq_of_toNat_eq h0.symm)⟩
      · refine ⟨by omega, fun m hm hm' => ?_⟩
        rw [hidx]
        have hal := ((hq a).1 ha).1
        have hcl := ((hq c).1 hc).1
        rcases Nat.lt_or_ge m b.n with hlt | hge
        · rw [hold m hlt]
          have := (h.left m hm hlt).1
          have := (h.right m hm hlt).1
          omega
        · have : m = b.n := by omega
          subst this
          rw [hnew, hl, hr]
          omega
    · rintro ⟨hi, hw⟩
      rcases Nat.lt_or_ge i.toNat b.n with hlt | hge
      · have hnb := hw b.n hn (Nat.lt_succ_self _)
        rw [hnew, hl, hr] at hnb
        refine .inl ⟨fun h0 => hnb.2 (h0 ▸ rfl), fun h0 => hnb.1 (h0 ▸ rfl), hlt, fun m hm hm' => ?_⟩
        have := hw m hm (by omega)
        rwa [hold m hm'] at this
      · exact .inr (BitVec.eq_of_toNat_eq (by rw [hidx]; omega))
  · intro k hk hk'
    rcases Nat.lt_or_ge k b.n with hlt | hge
    · rw [hold k hlt]
      exact (hwait hlt.le).2 (h.left k hk hlt)
    · have : k = b.n := by dsimp only at hk'; omega
      subst this
      rw [hnew, hl]
      exact (hwait le_rfl).2 ((hq a).1 ha)
  · intro k hk hk'
    rcases Nat.lt_or_ge k b.n with hlt | hge
    · rw [hold k hlt]
      exact (hwait hlt.le).2 (h.right k hk hlt)
    · have : k = b.n := by dsimp only at hk'; omega
      subst this
      rw [hnew, hr]
      exact (hwait le_rfl).2 ((hq c).1 hc)
  · intro k j hk hk' hj hne
    rcases Nat.lt_or_ge k b.n with hlt | hge
    · rw [hold k hlt] at hne ⊢
      have hj := (hwait hlt.le).1 hj
      have := (h.left k hk hlt).1
      exact (hkey (by omega) (by have := hj.1; omega)).2 (h.first k j hk hlt hj hne)
    · have : k = b.n := by dsimp only at hk'; omega
      subst this
      rw [hnew, hl] at hne ⊢
      have hj := (hwait le_rfl).1 hj
      obtain ⟨hjm, hje⟩ := hmemOf j hj
      rw [hkey ((hq a).1 ha).1 hj.1, ← hje]
      exact hfirst _ hjm (fun h0 => hne (by rw [← hje, h0]))
  · intro k j hk hk' hj hne hne'
    rcases Nat.lt_or_ge k b.n with hlt | hge
    · rw [hold k hlt] at hne hne' ⊢
      have hj := (hwait hlt.le).1 hj
      have := (h.right k hk hlt).1
      exact (hkey (by omega) (by have := hj.1; omega)).2 (h.second k j hk hlt hj hne hne')
    · have : k = b.n := by dsimp only at hk'; omega
      subst this
      rw [hnew] at hne hne' ⊢
      rw [hl] at hne
      rw [hr] at hne' ⊢
      have hj := (hwait le_rfl).1 hj
      obtain ⟨hjm, hje⟩ := hmemOf j hj
      rw [hkey ((hq c).1 hc).1 hj.1, ← hje]
      exact hsecond _ hjm (fun h0 => hne (by rw [← hje, h0])) (fun h0 => hne' (by rw [← hje, h0]))

/-- Merging keeps the order to the end. -/
theorem Merged.mergeAll {freq : Memory Word} (k : Nat) {b : TreeBuild} {ts : List (NodeIdx × HTree)} (hF : Forest freq b ts)
    (h : Merged (presentSyms freq).length b) (hn : (presentSyms freq).length ≤ b.n) :
    Merged (presentSyms freq).length (mergeAll k b) := by
  induction k generalizing b ts with
  | zero => exact h
  | succ k ih =>
    unfold Machine.mergeAll
    split
    next hlen =>
      obtain ⟨ts', hF', -⟩ := hF.merge hlen
      obtain ⟨_, _, -, -, -, -, -, hm⟩ := mergeOnce_least hlen hF.nodup
      exact ih hF' (Merged.merge hF h hn hlen) (by rw [hm]; exact hn.trans (Nat.le_succ _))
    next => exact h

/-- R92, R96: the tree TREE_BUILD leaves is merged in the order of the keys. -/
theorem buildTree_merged (freq : Memory Word) (hP : presentSyms freq ≠ []) :
    Merged (presentSyms freq).length (buildTree freq) := by
  obtain ⟨hn, hpq, -, -⟩ := insertLeaf_fold freq (List.range Config.nSym)
  change (insertLeaves freq).n = (presentSyms freq).length at hn
  change (insertLeaves freq).pq = (List.range (presentSyms freq).length).map (BitVec.ofNat 10) at hpq
  have hle := presentSyms_length_le freq
  refine Merged.mergeAll _ (insertLeaves_forest freq hP) ?_ hn.ge
  constructor
  · intro i
    rw [hpq, hn]
    simp only [List.mem_map, List.mem_range]
    constructor
    · rintro ⟨j, hj, rfl⟩
      exact ⟨by rw [idx_toNat (by omega)]; exact hj, fun m hm hm' => by omega⟩
    · rintro ⟨hi, -⟩
      exact ⟨i.toNat, hi, by simp⟩
  all_goals
    intros
    omega

end Sys2Proof.Machine
end

