-- ==== Sys2Proof/Laws/PerInstr.lean ====
section
/-! SUPPORT. Statements made for every command, one lemma per constructor: what the fields of its word hold. -/

namespace Sys2Proof.Laws.EncodedFields

/-- R63 to R68: OPC of the command's word is its opcode, the bits above it are its operand, and no reserved bit of its format is
set in the word of a well-formed command. -/
def Statement (i : Instr) : Prop :=
  opcField (encode i) = i.opcode ∧ (encode i).extractLsb' 8 24 = i.operand
    ∧ encode i &&& i.format.reserved = 0#32

/-- The word's two halves, for any operand and opcode. -/
theorem halves (a : BitVec 24) (b : Byte) :
    (a ++ b : Word).extractLsb' 0 8 = b ∧ (a ++ b : Word).extractLsb' 8 24 = a := by
  constructor
  · apply BitVec.eq_of_getLsbD_eq
    intro i hi
    rw [BitVec.getLsbD_extractLsb', Nat.zero_add, show (a ++ b : Word).getLsbD i = _ from BitVec.getLsbD_append]
    simp [hi]
  · apply BitVec.eq_of_getLsbD_eq
    intro i hi
    rw [BitVec.getLsbD_extractLsb', show (a ++ b : Word).getLsbD (8 + i) = _ from BitVec.getLsbD_append]
    simp [hi]

/-- An operand of n bits with zeros above it leaves the bits above the operand of the word clear. -/
theorem reserved_clear {n : Nat} (x : BitVec n) (op : Byte) (m : Word)
    (h : ∀ i, i < 8 + n → i < 32 → m.getLsbD i = false) : (x.setWidth 24 ++ op : Word) &&& m = 0#32 := by
  apply BitVec.eq_of_getLsbD_eq
  intro i hi
  simp only [BitVec.getLsbD_and, BitVec.getLsbD_append, BitVec.getLsbD_setWidth, BitVec.getLsbD_zero]
  by_cases hin : i < 8 + n
  · simp [h i hin hi]
  · have : x.getLsbD (i - 8) = false := BitVec.getLsbD_of_ge _ _ (by omega)
    simp [this, show ¬ i < 8 by omega]

theorem byte_mask : ∀ i, i < 8 + 8 → i < 32 → (0xFFFF0000#32).getLsbD i = false := by decide
theorem sym_mask : ∀ i, i < 8 + 9 → i < 32 → (0xFFFE0000#32).getLsbD i = false := by decide
theorem bit_mask : ∀ i, i < 8 + 1 → i < 32 → (0xFFFFFE00#32).getLsbD i = false := by decide

theorem nop : Statement .nop := by unfold Statement; decide
theorem fmClear : Statement .fmClear := by unfold Statement; decide
theorem fmCount (b : Byte) : Statement (.fmCount b) := ⟨(halves _ _).1, (halves _ _).2, reserved_clear b _ _ byte_mask⟩
theorem fmClose : Statement .fmClose := by unfold Statement; decide
theorem fmQuery (sym : SymId) : Statement (.fmQuery sym) := ⟨(halves _ _).1, (halves _ _).2, reserved_clear sym _ _ sym_mask⟩
theorem hdrBegin : Statement .hdrBegin := by unfold Statement; decide
theorem hdrByte (b : Byte) : Statement (.hdrByte b) := ⟨(halves _ _).1, (halves _ _).2, reserved_clear b _ _ byte_mask⟩
theorem hdrEmit : Statement .hdrEmit := by unfold Statement; decide
theorem treeBuild : Statement .treeBuild := by unfold Statement; decide
theorem lutQuery (sym : SymId) : Statement (.lutQuery sym) := ⟨(halves _ _).1, (halves _ _).2, reserved_clear sym _ _ sym_mask⟩
theorem encStart : Statement .encStart := by unfold Statement; decide
theorem encSym (b : Byte) : Statement (.encSym b) := ⟨(halves _ _).1, (halves _ _).2, reserved_clear b _ _ byte_mask⟩
theorem encEnd : Statement .encEnd := by unfold Statement; decide
theorem decStart : Statement .decStart := by unfold Statement; decide
theorem decBit (t : Bool) : Statement (.decBit t) := ⟨(halves _ _).1, (halves _ _).2, reserved_clear _ _ _ bit_mask⟩
theorem decEnd : Statement .decEnd := by unfold Statement; decide
theorem softReset : Statement .softReset := by unfold Statement; decide

end Sys2Proof.Laws.EncodedFields
end

