-- ==== Sys2Proof/Machine/Assembly.lean ====
section
/-! DEFINITION. The assembler syntax (spec/30_encoding.md R78 to R80): one command or pseudo-command a line.  It says which command
words a line of text stands for; the machine runs words and never sees the text. -/

namespace Sys2Proof.Machine

/-- Why a line is no command.  R79: an operand out of range is an error, never a silent truncation. -/
inductive AsmError where
  | unknownMnemonic | operandCount | operandSyntax | operandRange | literalSyntax
  deriving DecidableEq, Repr

/-- A line's tokens: words, character literals, and the bytes of string literals. -/
inductive AsmToken where
  | word (cs : List Char)
  | char (c : Char)
  | str (bs : List Byte)
  deriving DecidableEq, Repr

/-- The value of a digit, letters in either case. -/
def digitValue (c : Char) : Option Nat :=
  if '0' ≤ c ∧ c ≤ '9' then some (c.toNat - 48)
  else if 'a' ≤ c ∧ c ≤ 'f' then some (c.toNat - 87)
  else if 'A' ≤ c ∧ c ≤ 'F' then some (c.toNat - 55)
  else none

/-- Digits in a base, most significant first; none where one is no digit of the base. -/
def digitsValue (base : Nat) : Nat → List Char → Option Nat
  | acc, [] => some acc
  | acc, c :: cs =>
    match digitValue c with
    | some d => if d < base then digitsValue base (acc * base + d) cs else none
    | none => none

/-- R79: a number in decimal, or in hexadecimal with prefix 0x. -/
def numberValue : List Char → Option Nat
  | [] => none
  | '0' :: 'x' :: [] => none
  | '0' :: 'x' :: cs => digitsValue 16 0 cs
  | cs => digitsValue 10 0 cs

/-- C's simple escapes (R80; log entry 9). -/
def simpleEscape (c : Char) : Option Byte :=
  if c = 'a' then some 7#8 else if c = 'b' then some 8#8 else if c = 't' then some 9#8 else if c = 'n' then some 10#8
  else if c = 'v' then some 11#8 else if c = 'f' then some 12#8 else if c = 'r' then some 13#8
  else if c = '\\' ∨ c = '\'' ∨ c = '"' ∨ c = '?' then some (BitVec.ofNat 8 c.toNat)
  else none

/-- Whether c is a digit of the base. -/
def isDigitOf (base : Nat) (c : Char) : Bool :=
  match digitValue c with
  | some d => decide (d < base)
  | none => false

/-- The byte of an escape after its backslash, and what follows it: simple, octal of up to three digits, or x and hexadecimal
digits. -/
def escapeByte : List Char → Option (Byte × List Char)
  | [] => none
  | 'x' :: cs =>
    match cs.takeWhile (isDigitOf 16) with
    | [] => none
    | ds =>
      match digitsValue 16 0 ds with
      | some v => if v ≤ 255 then some (BitVec.ofNat 8 v, cs.dropWhile (isDigitOf 16)) else none
      | none => none
  | c :: cs =>
    match simpleEscape c with
    | some b => some (b, cs)
    | none =>
      match ((c :: cs).take 3).takeWhile (isDigitOf 8) with
      | [] => none
      | ds =>
        match digitsValue 8 0 ds with
        | some v => if v ≤ 255 then some (BitVec.ofNat 8 v, (c :: cs).drop ds.length) else none
        | none => none

/-- The bytes of a string literal after its opening quote, and what follows its closing quote (R80).  DESIGN CHOICE, log entry 9: R80
does not say which bytes a raw character of code 128 or above stands for, and the line is rejected; such a byte is written as a C
escape.  The first argument bounds the characters left. -/
def stringBytes : Nat → List Char → Option (List Byte × List Char)
  | 0, _ => none
  | _ + 1, [] => none
  | _ + 1, '"' :: cs => some ([], cs)
  | k + 1, '\\' :: cs =>
    match escapeByte cs with
    | none => none
    | some (b, rest) =>
      match stringBytes k rest with
      | none => none
      | some (bs, after) => some (b :: bs, after)
  | k + 1, c :: cs =>
    if c.toNat < 128 then
      match stringBytes k cs with
      | none => none
      | some (bs, after) => some (BitVec.ofNat 8 c.toNat :: bs, after)
    else none

/-- A word read so far, its characters in reverse, put before the tokens that follow it. -/
def flushWord (cur : List Char) (ts : List AsmToken) : List AsmToken :=
  if cur.isEmpty then ts else .word cur.reverse :: ts

/-- The tokens of a line (R78: text after a semicolon that is in no literal is a comment).  The first argument bounds the
characters left. -/
def lexLine : Nat → List Char → List Char → Except AsmError (List AsmToken)
  | 0, cur, _ => .ok (flushWord cur [])
  | _ + 1, cur, [] => .ok (flushWord cur [])
  | _ + 1, cur, ';' :: _ => .ok (flushWord cur [])
  | k + 1, cur, ' ' :: cs => (lexLine k [] cs).map (flushWord cur)
  | k + 1, cur, '\t' :: cs => (lexLine k [] cs).map (flushWord cur)
  | k + 1, [], '\'' :: c :: '\'' :: cs => (lexLine k [] cs).map (.char c :: ·)
  | k + 1, [], '"' :: cs =>
    match stringBytes k cs with
    | none => .error .literalSyntax
    | some (bs, rest) => (lexLine k [] rest).map (.str bs :: ·)
  | k + 1, cur, c :: cs =>
    if c = '\'' ∨ c = '"' then .error .literalSyntax else lexLine k (c :: cur) cs

/-- R79: a B-format operand. -/
def byteOperand : AsmToken → Except AsmError Byte
  | .word cs =>
    match numberValue cs with
    | none => .error .operandSyntax
    | some v => if v ≤ 255 then .ok (BitVec.ofNat 8 v) else .error .operandRange
  | .char c => if c.toNat < 128 then .ok (BitVec.ofNat 8 c.toNat) else .error .operandRange
  | .str _ => .error .operandSyntax

/-- R79: an S-format operand: a B-format operand, or EOF. -/
def symOperand (t : AsmToken) : Except AsmError SymId :=
  if t = .word ['E', 'O', 'F'] then .ok 256#9 else (byteOperand t).map (·.setWidth 9)

/-- R79: a T-format operand. -/
def bitOperand : AsmToken → Except AsmError Bool
  | .word ['0'] => .ok false
  | .word ['1'] => .ok true
  | _ => .error .operandSyntax

/-- How a mnemonic's operands make commands (R78, R80). -/
inductive AsmShape where
  | plain (i : Instr)
  | byte (f : Byte → Instr)
  | sym (f : SymId → Instr)
  | bit (f : Bool → Instr)
  | string (f : Byte → Instr)
  | bitString
  | byteList

/-- The mnemonics of R69 and the pseudo-commands of R80, upper case as R78 says. -/
def asmTable : List (List Char × AsmShape) :=
  [ (['N', 'O', 'P'], .plain .nop),
    (['F', 'M', '_', 'C', 'L', 'E', 'A', 'R'], .plain .fmClear),
    (['F', 'M', '_', 'C', 'O', 'U', 'N', 'T'], .byte .fmCount),
    (['F', 'M', '_', 'C', 'L', 'O', 'S', 'E'], .plain .fmClose),
    (['F', 'M', '_', 'Q', 'U', 'E', 'R', 'Y'], .sym .fmQuery),
    (['H', 'D', 'R', '_', 'B', 'E', 'G', 'I', 'N'], .plain .hdrBegin),
    (['H', 'D', 'R', '_', 'B', 'Y', 'T', 'E'], .byte .hdrByte),
    (['H', 'D', 'R', '_', 'E', 'M', 'I', 'T'], .plain .hdrEmit),
    (['T', 'R', 'E', 'E', '_', 'B', 'U', 'I', 'L', 'D'], .plain .treeBuild),
    (['L', 'U', 'T', '_', 'Q', 'U', 'E', 'R', 'Y'], .sym .lutQuery),
    (['E', 'N', 'C', '_', 'S', 'T', 'A', 'R', 'T'], .plain .encStart),
    (['E', 'N', 'C', '_', 'S', 'Y', 'M'], .byte .encSym),
    (['E', 'N', 'C', '_', 'E', 'N', 'D'], .plain .encEnd),
    (['D', 'E', 'C', '_', 'S', 'T', 'A', 'R', 'T'], .plain .decStart),
    (['D', 'E', 'C', '_', 'B', 'I', 'T'], .bit .decBit),
    (['D', 'E', 'C', '_', 'E', 'N', 'D'], .plain .decEnd),
    (['S', 'O', 'F', 'T', '_', 'R', 'E', 'S', 'E', 'T'], .plain .softReset),
    (['F', 'M', '_', 'B', 'Y', 'T', 'E', 'S'], .string .fmCount),
    (['E', 'N', 'C', '_', 'B', 'Y', 'T', 'E', 'S'], .string .encSym),
    (['D', 'E', 'C', '_', 'B', 'I', 'T', 'S'], .bitString),
    (['H', 'D', 'R', '_', 'B', 'Y', 'T', 'E', 'S'], .byteList) ]

/-- The shape of a mnemonic. -/
def asmLookup (cs : List Char) : List (List Char × AsmShape) → Option AsmShape
  | [] => none
  | (m, sh) :: rest => if m = cs then some sh else asmLookup cs rest

/-- The commands of DEC_BITS: one DEC_BIT per character, each 0 or 1 (R80). -/
def bitStringInstrs : List Byte → Except AsmError (List Instr)
  | [] => .ok []
  | b :: bs =>
    if b = 0x30#8 then (bitStringInstrs bs).map (.decBit false :: ·)
    else if b = 0x31#8 then (bitStringInstrs bs).map (.decBit true :: ·)
    else .error .operandSyntax

/-- The commands of HDR_BYTES: one HDR_BYTE per listed byte (R80). -/
def byteListInstrs : List AsmToken → Except AsmError (List Instr)
  | [] => .ok []
  | t :: ts =>
    match byteOperand t with
    | .error e => .error e
    | .ok b => (byteListInstrs ts).map (.hdrByte b :: ·)

/-- The commands of a mnemonic with its operands. -/
def shapeInstrs : AsmShape → List AsmToken → Except AsmError (List Instr)
  | .plain i, [] => .ok [i]
  | .byte f, [t] => (byteOperand t).map (fun b => [f b])
  | .sym f, [t] => (symOperand t).map (fun b => [f b])
  | .bit f, [t] => (bitOperand t).map (fun b => [f b])
  | .string f, [.str bs] => .ok (bs.map f)
  | .bitString, [.str bs] => bitStringInstrs bs
  | .byteList, ts => byteListInstrs ts
  | .string _, [_] => .error .operandSyntax
  | .bitString, [_] => .error .operandSyntax
  | _, _ => .error .operandCount

/-- The commands a line stands for; none for a blank line or a comment. -/
def assembleLine (line : List Char) : Except AsmError (List Instr) :=
  match lexLine (line.length + 1) [] line with
  | .error e => .error e
  | .ok [] => .ok []
  | .ok (.word cs :: ts) =>
    match asmLookup cs asmTable with
    | none => .error .unknownMnemonic
    | some sh => shapeInstrs sh ts
  | .ok (_ :: _) => .error .unknownMnemonic

/-- The commands of a program, line by line; the first line that is wrong is the program's error. -/
def assemble : List (List Char) → Except AsmError (List Instr)
  | [] => .ok []
  | line :: rest =>
    match assembleLine line with
    | .error e => .error e
    | .ok is => (assemble rest).map (is ++ ·)

end Sys2Proof.Machine
end

