-- ==== Sys2Proof/Tests/Slice0.lean ====
section
/-! SUPPORT. Tests, each on one command or one step, with the expected result taken from spec/95_test_vectors.md or worked out by hand from
the rule named; and for every statement with hypotheses a witness that meets them, at the ends of their ranges. -/

namespace Sys2Proof.Tests

open Sys2Proof Sys2Proof.Machine

/-- The outcome is a next state with a property. -/
def nextIs (o : Host.Outcome State Fault Refusal) (p : State → Bool) : Bool :=
  match o with
  | .next t => p t
  | .fault _ => false
  | .refused _ => false

/-- The outcome is a stop with this fault. -/
def faultIs (o : Host.Outcome State Fault Refusal) (f : Fault) : Bool :=
  match o with
  | .next _ => false
  | .fault g => decide (g = f)
  | .refused _ => false

/-! ### States -/

/-- R83's example: COUNTING with FREQ[0x61] = 2, NUM_SYMS = 1, TOTAL = 2. -/
def counting : State := { State.reset with phase := .counting, freq := [(0x61, 2#32)], numSyms := 1#9, total := 2#32 }

/-- The model of S1, a:3 b:2 c:1 EOF:1. -/
def s1Model : State :=
  { State.reset with
    phase := .modelReady, freq := [(0x61, 3#32), (0x62, 2#32), (0x63, 1#32), (256, 1#32)], numSyms := 4#9, total := 7#32 }

/-- The state after S1's TREE_BUILD, arena and codes as spec/95 lists them. -/
def s1Tree : State :=
  { s1Model with
    phase := .treeReady
    node :=
      [ (0, { kind := .leaf, sym := 0x61#9, w := 3#32, l := 0#10, r := 0#10 }),
        (1, { kind := .leaf, sym := 0x62#9, w := 2#32, l := 0#10, r := 0#10 }),
        (2, { kind := .leaf, sym := 0x63#9, w := 1#32, l := 0#10, r := 0#10 }),
        (3, { kind := .leaf, sym := 256#9, w := 1#32, l := 0#10, r := 0#10 }),
        (4, { kind := .internal, sym := 0x1FF#9, w := 2#32, l := 2#10, r := 3#10 }),
        (5, { kind := .internal, sym := 0x1FF#9, w := 4#32, l := 1#10, r := 4#10 }),
        (6, { kind := .internal, sym := 0x1FF#9, w := 7#32, l := 0#10, r := 5#10 }) ]
    nodeCount := 7#10, root := 6#10, rootWeight := 7#32
    lut :=
      [ (0x61, { len := 1#9, pat := 0#256 }), (0x62, { len := 2#9, pat := 2#256 }),
        (0x63, { len := 3#9, pat := 6#256 }), (256, { len := 3#9, pat := 7#256 }) ] }

/-- N1: after S1's TREE_BUILD and ENC_START. -/
def encoding : State := { s1Tree with phase := .encoding }

/-- D1: after S1's TREE_BUILD and DEC_START. -/
def decoding : State := { s1Tree with phase := .decoding, decNode := 6#10 }

/-- D3: the decoder after the bits 111. -/
def decodeDone : State := { decoding with dstate := .done, decNode := 3#10 }

/-- S2: the one-entry model, EOF:1. -/
def s2Model : State :=
  { State.reset with phase := .modelReady, freq := [(256, 1#32)], numSyms := 1#9, total := 1#32 }

/-- S2 after TREE_BUILD. -/
def s2Tree : State :=
  { s2Model with
    phase := .treeReady
    node := [(0, { kind := .leaf, sym := 256#9, w := 1#32, l := 0#10, r := 0#10 })]
    nodeCount := 1#10, rootWeight := 1#32, lut := [(256, { len := 1#9, pat := 0#256 })] }

/-- After HDR_BEGIN. -/
def hdr0 : State := { State.reset with phase := .hdrLoading }

/-- HDR_LOADING with the count field in, seven bytes of record j in HP_BUF, and a model so far. -/
def hdrRecord (n : BitVec 16) (j : Nat) (seven : BitVec 64) (freq : Memory Word) (total : Word) : State :=
  { hdr0 with
    hpN := n, hpBytes := BitVec.ofNat 12 (9 + 8 * j), hpBuf := seven, freq := freq, numSyms := BitVec.ofNat 9 j
    total := total }

/-- A faulted state with a bit and a byte still in the streams. -/
def faulted : State :=
  { State.reset with
    faulted := true, faultCause := .tableMismatch, faultCmd := 0x00007A19#32, phase := .encoding, bout := [true]
    yout := [0x61#8] }

/-! ### WellFormed: each check, with a term it refuses -/

theorem test_wf_fmQuery_257 : (Instr.fmQuery 257#9).wf = false := by decide
theorem test_wf_fmQuery_256 : (Instr.fmQuery 256#9).wf = true := by decide
theorem test_wf_lutQuery_511 : (Instr.lutQuery 511#9).wf = false := by decide
theorem test_wf_lutQuery_256 : (Instr.lutQuery 256#9).wf = true := by decide
theorem test_ill_formed_is_not_encodable : decode (encode (.fmQuery 257#9)) = .error .symbolRange := by decide
theorem test_ill_formed_raises :
    nextIs (exec (.lutQuery 257#9) s1Tree) (fun t => t.status = 0x00000124#32 && t.faultCmd = 0x00010111#32) = true := by
  decide +kernel

/-! ### Decode: every constructor, its word written bit by bit from R64 to R67 and R69 -/

theorem test_decode_nop : decode 0b00000000000000000000000000000000#32 = .ok .nop := by decide
theorem test_decode_fmClear : decode 0b00000000000000000000000000000001#32 = .ok .fmClear := by decide
theorem test_decode_fmCount : decode 0b00000000000000000110000100000010#32 = .ok (.fmCount 0x61#8) := by decide
theorem test_decode_fmClose : decode 0b00000000000000000000000000000011#32 = .ok .fmClose := by decide
theorem test_decode_fmQuery : decode 0b00000000000000010000000000000100#32 = .ok (.fmQuery 256#9) := by decide
theorem test_decode_hdrBegin : decode 0b00000000000000000000000000001000#32 = .ok .hdrBegin := by decide
theorem test_decode_hdrByte : decode 0b00000000000000001111111100001001#32 = .ok (.hdrByte 0xFF#8) := by decide
theorem test_decode_hdrEmit : decode 0b00000000000000000000000000001010#32 = .ok .hdrEmit := by decide
theorem test_decode_treeBuild : decode 0b00000000000000000000000000010000#32 = .ok .treeBuild := by decide
theorem test_decode_lutQuery : decode 0b00000000000000000110001100010001#32 = .ok (.lutQuery 0x63#9) := by decide
theorem test_decode_encStart : decode 0b00000000000000000000000000011000#32 = .ok .encStart := by decide
theorem test_decode_encSym : decode 0b00000000000000000110001000011001#32 = .ok (.encSym 0x62#8) := by decide
theorem test_decode_encEnd : decode 0b00000000000000000000000000011010#32 = .ok .encEnd := by decide
theorem test_decode_decStart : decode 0b00000000000000000000000000100000#32 = .ok .decStart := by decide
theorem test_decode_decBit_0 : decode 0b00000000000000000000000000100001#32 = .ok (.decBit false) := by decide
theorem test_decode_decBit_1 : decode 0b00000000000000000000000100100001#32 = .ok (.decBit true) := by decide
theorem test_decode_decEnd : decode 0b00000000000000000000000000100010#32 = .ok .decEnd := by decide
theorem test_decode_softReset : decode 0b00000000000000000000000011111111#32 = .ok .softReset := by decide

/-- R70's ranges of unassigned opcodes, at their ends. -/
theorem test_decode_unassigned :
    ([0x05#32, 0x07#32, 0x0B#32, 0x0F#32, 0x12#32, 0x17#32, 0x1B#32, 0x1F#32, 0x23#32, 0xFE#32].all
      (fun w => decide (decode w = .error .unassignedOpcode))) = true := by decide

/-- R71, at the lowest and the highest reserved bit of each format. -/
theorem test_decode_reserved :
    ([0x00000100#32, 0x80000000#32, 0x00016102#32, 0x80000002#32, 0x00020004#32, 0x80000004#32, 0x00000221#32, 0x80000021#32,
      0x000001FF#32].all (fun w => decide (decode w = .error .reservedBits))) = true := by decide

/-- R72, at the ends of 257..511 and at 256. -/
theorem test_decode_symbol_range :
    decode 0x00010104#32 = .error .symbolRange ∧ decode 0x0001FF11#32 = .error .symbolRange
      ∧ decode 0x00010011#32 = .ok (.lutQuery 256#9) := by decide

theorem test_decodeTableWord : decodeTableWord 32 0x00006319 = some (.encSym 0x63#8) := by decide
theorem test_decodeTableWord_illegal : decodeTableWord 32 0x00000005 = none := by decide

/-! ### The step -/

/-- F1, run as the host's probe runs it. -/
theorem test_step_withFetchWord :
    nextIs (step (State.reset.withFetchWord 32 0x00000001)) (fun t => t.status = 0x00000001#32 && t.hostIn = []) = true := by
  decide +kernel

/-- E1. -/
theorem test_step_illegal_word :
    nextIs (step (State.reset.withFetchWord 32 0x00000100))
      (fun t => t.status = 0x00000120#32 && t.faultCmd = 0x00000100#32 && t.irq) = true := by decide +kernel

/-- E6: the decode check comes before the phase check. -/
theorem test_step_decode_before_phase :
    nextIs (step (State.reset.withFetchWord 32 0x00000221)) (fun t => t.status = 0x00000120#32) = true := by decide +kernel

/-- X1: while faulted an unassigned word is ignored. -/
theorem test_step_faulted_ignores :
    nextIs (step (faulted.withFetchWord 32 0x00000005)) (fun t => t = faulted) = true := by decide +kernel

/-- C3. -/
theorem test_step_faulted_soft_reset :
    nextIs (step (faulted.withFetchWord 32 0x000000FF)) (fun t => t = State.reset) = true := by decide +kernel

/-- Z2, Z3: the ID register at 0x3D to 0x3F, zero at 0x60 and 0xFC. -/
theorem test_read_port :
    [0x3D#8, 0x3E#8, 0x3F#8, 0x60#8, 0xFC#8].map State.reset.portRead
      = [0x48554631#32, 0x48554631#32, 0x48554631#32, 0#32, 0#32] := by decide +kernel

/-- R39's example: TREE_READY, Done, no fault, a tree of two or more leaves. -/
theorem test_status_example : ({ s1Tree with dstate := .done } : State).status = 0x00000084#32 := by decide +kernel

/-- R44: the valid outputs. -/
theorem test_stream_valid :
    faulted.boutValid = true ∧ faulted.youtValid = true ∧ State.reset.boutValid = false ∧ State.reset.youtValid = false := by
  decide

/-- R163: while rst = 1 the block accepts and offers nothing. -/
theorem test_outputs_at_rst :
    let s : State := { faulted with hostIn := [.rst] }
    s.cmdReady = false ∧ s.boutValid = false ∧ s.youtValid = false ∧ faulted.cmdReady = true := by decide

/-- R128: the default of HDR_EOF_SYM is a legal one. -/
theorem test_default_params_legal : Config.Params.default.legal := by decide

/-! ### One or two per command -/

/-- C1. -/
theorem test_nop : nextIs (exec .nop s1Tree) (fun t => t = s1Tree) = true := by decide +kernel

/-- F10. -/
theorem test_fmClear :
    nextIs (exec .fmClear s1Tree)
      (fun t => t.status = 0x00000001#32 && t.numSyms = 0#9 && t.nodeCount = 0#10 && t.root = 0#10 && t.lut = []) = true := by
  decide +kernel

/-- R83's example. -/
theorem test_fmCount :
    nextIs (exec (.fmCount 0x61#8) counting) (fun t => t.freqAt 0x61 = 3#32 && t.numSyms = 1#9 && t.total = 3#32) = true := by
  decide +kernel

/-- F8. -/
theorem test_fmCount_overflow :
    nextIs (exec (.fmCount 0x00#8) { counting with total := 0xFFFFFFFE#32 })
      (fun t => t.status = 0x00000721#32 && t.total = 0xFFFFFFFE#32) = true := by decide +kernel

/-- F5. -/
theorem test_fmClose :
    nextIs (exec .fmClose { State.reset with phase := .counting }) (fun t => t = s2Model) = true := by decide +kernel

/-- F9's second command. -/
theorem test_fmClose_at_the_bound :
    nextIs (exec .fmClose { counting with total := 0xFFFFFFFE#32 })
      (fun t => t.total = 0xFFFFFFFF#32 && t.status = 0x00000002#32) = true := by decide +kernel

/-- F4. -/
theorem test_fmQuery :
    nextIs (exec (.fmQuery 0x61#9) s1Model) (fun t => t.qCount = 3#32) = true
      ∧ nextIs (exec (.fmQuery 256#9) s1Model) (fun t => t.qCount = 1#32) = true := by decide +kernel

/-- H15. -/
theorem test_hdrBegin :
    nextIs (exec .hdrBegin { hdr0 with hpN := 2#16, hpBytes := 2#12 }) (fun t => t = hdr0 && t.hdrPos = 0#32) = true := by
  decide +kernel

/-- H1 after byte 33: the last record, EOF:1, closes the model. -/
theorem test_hdrByte_last :
    nextIs
      (exec (.hdrByte 0x01#8)
        (hdrRecord 4#16 3 0x00FFFFFFFF000000#64 [(0x61, 3#32), (0x62, 2#32), (0x63, 1#32)] 6#32))
      (fun t => t.status = 0x00000002#32 && t.hdrPos = 0x00040022#32 && t.freq = s1Model.freq && t.total = 7#32) = true := by
  decide +kernel

/-- H11: the total goes above 2^32 - 1 (the record's symbol is EOF, its count 1). -/
theorem test_hdrByte_overflow :
    nextIs (exec (.hdrByte 0x01#8) (hdrRecord 2#16 1 0x00FFFFFFFF000000#64 [(0x61, 0xFFFFFFFF#32)] 0xFFFFFFFF#32))
      (fun t => t.status = 0x00000723#32 && t.hdrPos = 0x00020011#32) = true := by decide +kernel

/-- H14: S1's 34 bytes. -/
theorem test_hdrEmit :
    nextIs (exec .hdrEmit s1Model)
      (fun t => t.yout
        = [0x00#8, 0x04#8, 0x00#8, 0x00#8, 0x00#8, 0x61#8, 0x00#8, 0x00#8, 0x00#8, 0x03#8, 0x00#8, 0x00#8, 0x00#8, 0x62#8, 0x00#8,
            0x00#8, 0x00#8, 0x02#8, 0x00#8, 0x00#8, 0x00#8, 0x63#8, 0x00#8, 0x00#8, 0x00#8, 0x01#8, 0xFF#8, 0xFF#8, 0xFF#8, 0xFF#8,
            0x00#8, 0x00#8, 0x00#8, 0x01#8]) = true := by decide +kernel

/-- S1: arena, registers and codes. -/
theorem test_treeBuild : nextIs (exec .treeBuild s1Model) (fun t => t = s1Tree) = true := by decide +kernel

/-- T-TREE-2: equal weights, the lower index first. -/
theorem test_treeBuild_ties :
    nextIs
      (exec .treeBuild
        { s1Model with
          freq := [(0x61, 1#32), (0x62, 1#32), (0x63, 1#32), (0x64, 1#32), (256, 1#32)], numSyms := 5#9, total := 5#32 })
      (fun t => t.root = 8#10 && t.lut
        = [ (0x61, { len := 3#9, pat := 6#256 }), (0x62, { len := 3#9, pat := 7#256 }), (0x63, { len := 2#9, pat := 0#256 }),
            (0x64, { len := 2#9, pat := 1#256 }), (256, { len := 2#9, pat := 2#256 }) ]) = true := by decide +kernel

/-- Z4. -/
theorem test_lutQuery :
    nextIs (exec (.lutQuery 0x63#9) s1Tree)
      (fun t => t.portRead 0x20#8 = 3#32 && t.portRead 0x40#8 = 6#32 && t.portRead 0x44#8 = 0#32) = true := by decide +kernel

/-- T-TREE-5, LUT_QUERY 0x00: a pattern across the first word boundary. -/
theorem test_lutQuery_long :
    nextIs (exec (.lutQuery 0x00#9) { s1Tree with lut := [(0, { len := 40#9, pat := 0xFFFFFFFFFE#256 })] })
      (fun t => t.lutLenR = 40#9 && t.lutBitsR.r0 = 0xFFFFFFFE#32 && t.lutBitsR.r1 = 0xFF#32 && t.lutBitsR.r2 = 0#32) = true := by
  decide +kernel

/-- N7: BITCOUNT is cleared, earlier bits stay. -/
theorem test_encStart :
    nextIs (exec .encStart { s1Tree with bitCount := 13#64, bout := [true] })
      (fun t => t.bitCount = 0#64 && t.bout = [true] && t.status = 0x00000005#32) = true := by decide +kernel

/-- N2. -/
theorem test_encSym :
    nextIs (exec (.encSym 0x63#8) encoding) (fun t => t.bout = [true, true, false] && t.bitCount = 3#64) = true := by
  decide +kernel

/-- N3. -/
theorem test_encSym_mismatch :
    nextIs (exec (.encSym 0x7A#8) { encoding with bitCount := 3#64 })
      (fun t => t.status = 0x00000425#32 && t.faultCmd = 0x00007A19#32 && t.bitCount = 3#64 && t.bout = []) = true := by
  decide +kernel

/-- N4. -/
theorem test_encEnd :
    nextIs (exec .encEnd encoding)
      (fun t => t.bout = [true, true, true] && t.bitCount = 3#64 && t.status = 0x00000004#32) = true := by decide +kernel

/-- D1, from a decoder left in Done. -/
theorem test_decStart :
    nextIs (exec .decStart { s1Tree with dstate := .done, decNode := 3#10, decCount := 6#64 })
      (fun t => t = decoding && t.status = 0x00000006#32) = true := by decide +kernel

/-- D2's second bit: node 5 on a 0 emits b. -/
theorem test_decBit :
    nextIs (exec (.decBit false) { decoding with dstate := .descending, decNode := 5#10 })
      (fun t => t.yout = [0x62#8] && t.decNode = 6#10 && t.decCount = 1#64 && t.dstate = .atRoot) = true := by decide +kernel

/-- D6: the degenerate root, on a 1. -/
theorem test_decBit_degenerate :
    nextIs (exec (.decBit true) { s2Tree with phase := .decoding })
      (fun t => t.decNode = 0#10 && t.status = 0x00010086#32 && t.yout = []) = true := by decide +kernel

/-- The end of P2. -/
theorem test_decEnd : nextIs (exec .decEnd decodeDone) (fun t => t.status = 0x00000084#32) = true := by decide +kernel

/-- D4. -/
theorem test_decEnd_malformed : nextIs (exec .decEnd decoding) (fun t => t.status = 0x00000526#32) = true := by decide +kernel

/-- C2. -/
theorem test_softReset :
    nextIs (exec .softReset { s1Tree with bout := [true], yout := [0x61#8] }) (fun t => t = State.reset) = true := by
  decide +kernel

/-! ### The assembler (R78 to R80) -/

theorem test_asm_char : assembleLine "FM_COUNT 'a'".toList = .ok [.fmCount 0x61#8] := by decide +kernel
theorem test_asm_eof : assembleLine "FM_QUERY EOF ; count of EOF".toList = .ok [.fmQuery 256#9] := by decide +kernel
theorem test_asm_range : assembleLine "FM_COUNT 256".toList = .error .operandRange := by decide +kernel
theorem test_asm_bits : assembleLine "DEC_BITS \"10\"".toList = .ok [.decBit true, .decBit false] := by decide +kernel
theorem test_asm_bytes : assembleLine "HDR_BYTES 0x00 4".toList = .ok [.hdrByte 0#8, .hdrByte 4#8] := by decide +kernel

/-! ### Witnesses: states and operands that meet a statement's hypotheses, each clause at the ends of its range -/

theorem witness_DecodeInvertsEncode : (Instr.fmQuery 256#9).wf = true ∧ (Instr.hdrByte 0xFF#8).wf = true := by decide

theorem witness_AcceptedWordIsItsEncoding : decode 0x00010011#32 = .ok (.lutQuery 256#9) := by decide

theorem witness_IllegalWords_opcode :
    State.reset.faulted = false
      ∧ (0x00000005#32).extractLsb' 0 8 ∉ [0x00#8, 0x01#8, 0x02#8, 0x03#8, 0x04#8, 0x08#8, 0x09#8, 0x0A#8, 0x10#8, 0x11#8, 0x18#8,
          0x19#8, 0x1A#8, 0x20#8, 0x21#8, 0x22#8, 0xFF#8] := by decide

theorem witness_IllegalWords_reserved :
    ((0x00000100#32).extractLsb' 0 8 = 0x00#8 ∧ 0x00000100#32 &&& 0xFFFFFF00#32 ≠ 0#32)
      ∧ ((0x00010002#32).extractLsb' 0 8 = 0x02#8 ∧ 0x00010002#32 &&& 0xFFFF0000#32 ≠ 0#32)
      ∧ ((0x00020004#32).extractLsb' 0 8 = 0x04#8 ∧ 0x00020004#32 &&& 0xFFFE0000#32 ≠ 0#32)
      ∧ ((0x00000221#32).extractLsb' 0 8 = 0x21#8 ∧ 0x00000221#32 &&& 0xFFFFFE00#32 ≠ 0#32) := by decide

theorem witness_IllegalWords_symbol :
    ((0x00010104#32).extractLsb' 0 8 = 0x04#8 ∧ ((0x00010104#32).extractLsb' 8 9).toNat = 257)
      ∧ ((0x0001FF11#32).extractLsb' 0 8 = 0x11#8 ∧ ((0x0001FF11#32).extractLsb' 8 9).toNat = 511) := by decide

theorem witness_StepRunsTheDecodedCommand :
    let s := presentNext 0x00000001#32 State.reset
    s.busy = false ∧ s.hostIn = .command 0x00000001#32 :: [] ∧ decode 0x00000001#32 = .ok .fmClear := by decide

theorem witness_FaultedState_command :
    let s := presentNext 0x000001FF#32 faulted
    s.busy = false ∧ s.faulted = true ∧ s.hostIn = .command 0x000001FF#32 :: [] ∧ 0x000001FF#32 ≠ 0x000000FF#32 := by decide

theorem witness_FaultedState_others :
    faulted.busy = false ∧ faulted.faulted = true ∧ faulted.bout = true :: [] ∧ faulted.yout = 0x61#8 :: []
      ∧ ({ faulted with hostIn := [.readReg 0#8] } : State).hostIn = .readReg 0#8 :: []
      ∧ ({ faulted with hostIn := [.takeBit] } : State).hostIn = .takeBit :: []
      ∧ ({ faulted with hostIn := [.takeByte] } : State).hostIn = .takeByte :: [] := by decide

theorem witness_NothingAccepted :
    State.reset.hostIn = []
      ∧ ({ presentNext 0#32 State.reset with busy := true } : State).busy = true
      ∧ ({ presentNext 0#32 State.reset with busy := true } : State).hostIn = .command 0#32 :: [] := by decide

theorem witness_HostActions :
    ({ faulted with faulted := false, hostIn := [.takeBit] } : State).hostIn = .takeBit :: [] ∧ faulted.bout = true :: []
      ∧ ({ faulted with hostIn := [.takeByte] } : State).hostIn = .takeByte :: [] ∧ faulted.yout = 0x61#8 :: []
      ∧ ({ s1Tree with hostIn := [.readReg 0x3F#8] } : State).hostIn = .readReg 0x3F#8 :: [] ∧ s1Tree.busy = false := by decide

theorem witness_RstInputResets : ({ faulted with hostIn := [.rst] } : State).hostIn = .rst :: [] := by decide

theorem witness_RegisterMap : s1Tree.busy = false ∧ 0x60 ≤ (0x60#8).toNat ∧ 0x60 ≤ (0xFF#8).toNat := by decide

theorem witness_RootIsLeafFlag :
    s2Tree.busy = false ∧ s2Tree.phase = .treeReady ∧ (s2Tree.nodeAt s2Tree.root.toNat).kind = .leaf
      ∧ s1Tree.busy = false ∧ (s1Tree.nodeAt s1Tree.root.toNat).kind = .internal := by decide

theorem witness_FmClearStartsAModel : s1Tree.faulted = false := by decide

theorem witness_FmCountCountsOneByte :
    counting.faulted = false ∧ counting.phase = .counting ∧ Memory.wf 0#32 257 counting.freq = true
      ∧ ({ counting with total := 0xFFFFFFFD#32 } : State).total ≠ 0xFFFFFFFE#32
      ∧ ({ counting with total := 0xFFFFFFFE#32 } : State).total = 0xFFFFFFFE#32
      ∧ counting.freqAt (0x61#8).toNat ≠ 0#32 ∧ counting.freqAt (0xFF#8).toNat = 0#32 := by decide

theorem witness_FmCloseAddsEof :
    counting.faulted = false ∧ counting.phase = .counting ∧ Memory.wf 0#32 257 counting.freq = true := by decide

theorem witness_FmQueryReadsACount : s1Model.faulted = false ∧ (256#9).toNat ≤ 256 := by decide

theorem witness_ModelHoldsTheCounts :
    State.reset.faulted = false ∧ [0x61#8, 0x61#8, 0x62#8].length ≤ 2 ^ 32 - 2 := by decide

theorem witness_ModelIgnoresByteOrder :
    [0x61#8, 0x62#8].Perm [0x62#8, 0x61#8]
      ∧ nextIs (runCommands (.fmClear :: [0x61#8, 0x62#8].map .fmCount ++ [.fmClose]) State.reset)
          (fun t => !t.faulted) = true := by decide +kernel

theorem witness_HdrBeginStartsAHeader : encoding.faulted = false := by decide

theorem witness_HdrByteTakesTheRecordCount :
    hdr0.faulted = false ∧ hdr0.phase = .hdrLoading ∧ hdr0.hpBytes = 0#12
      ∧ ({ hdr0 with hpBytes := 1#12 } : State).hpBytes = 1#12 ∧ ((0#16).extractLsb' 0 8 ++ 1#8).toNat = 1
      ∧ ((1#16).extractLsb' 0 8 ++ 1#8).toNat = 257 ∧ ((0#16).extractLsb' 0 8 ++ 0#8).toNat = 0
      ∧ ((1#16).extractLsb' 0 8 ++ 2#8).toNat = 258 := by
  refine ⟨by decide, by decide, by decide, by decide, ?_⟩
  simp

theorem witness_HdrByteShiftsARecordByte :
    ∀ k ∈ [2#12, 8#12, 10#12, 2056#12],
      ({ hdr0 with hpBytes := k } : State).phase = .hdrLoading ∧ 2 ≤ k.toNat ∧ (k.toNat - 2) % 8 ≠ 7 := by decide

/-- A literal record that is not the last, at the highest total. -/
theorem witness_HdrByteAcceptsARecord_literal :
    let s := hdrRecord 2#16 0 0x00000000FFFFFFFF#64 [] 0#32
    s.faulted = false ∧ s.phase = .hdrLoading ∧ Memory.wf 0#32 257 s.freq = true ∧ 2 ≤ s.hpBytes.toNat
      ∧ (s.hpBytes.toNat - 2) % 8 = 7 ∧ 0x000000FF#32 ++ 0xFFFFFFFF#32 = s.hpBuf.extractLsb' 0 56 ++ 0xFF#8
      ∧ 0x000000FF#32 ≠ s.params.hdrEofSym ∧ (0x000000FF#32).toNat ≤ 255 ∧ 0xFFFFFFFF#32 ≠ 0#32 ∧ s.freqAt 0xFF = 0#32
      ∧ s.total.toNat + (0xFFFFFFFF#32).toNat ≤ 2 ^ 32 - 1 ∧ (s.hpBytes.toNat - 2) / 8 + 1 ≠ s.hpN.toNat := by decide

/-- The EOF record as the last one (H1), and a literal one as the last with EOF already in (H10). -/
theorem witness_HdrByteAcceptsARecord_last :
    (let s := hdrRecord 4#16 3 0x00FFFFFFFF000000#64 [(0x61, 3#32), (0x62, 2#32), (0x63, 1#32)] 6#32;
      (s.hpBytes.toNat - 2) % 8 = 7 ∧ s.params.hdrEofSym ++ 1#32 = s.hpBuf.extractLsb' 0 56 ++ 0x01#8
        ∧ s.freqAt 256 = 0#32 ∧ s.total.toNat + (1#32).toNat ≤ 2 ^ 32 - 1 ∧ (s.hpBytes.toNat - 2) / 8 + 1 = s.hpN.toNat
        ∧ Memory.wf 0#32 257 s.freq = true)
      ∧ (let s := hdrRecord 2#16 1 0x0000000061000000#64 [(256, 1#32)] 1#32;
      (s.hpBytes.toNat - 2) % 8 = 7 ∧ 0x61#32 ++ 4#32 = s.hpBuf.extractLsb' 0 56 ++ 0x04#8 ∧ 0x61#32 ≠ s.params.hdrEofSym
        ∧ s.freqAt 0x61 = 0#32 ∧ s.total.toNat + (4#32).toNat ≤ 2 ^ 32 - 1 ∧ (s.hpBytes.toNat - 2) / 8 + 1 = s.hpN.toNat
        ∧ s.freqAt 256 ≠ 0#32 ∧ Memory.wf 0#32 257 s.freq = true) := by decide

/-- H5 (symbol 0x100) and H7 (count 0). -/
theorem witness_HdrByteReportsTheFirstFault_record :
    (let s := hdrRecord 1#16 0 0x0000000100000000#64 [] 0#32;
      s.faulted = false ∧ s.phase = .hdrLoading ∧ (s.hpBytes.toNat - 2) % 8 = 7
        ∧ 0x100#32 ++ 1#32 = s.hpBuf.extractLsb' 0 56 ++ 0x01#8 ∧ 0x100#32 ≠ s.params.hdrEofSym ∧ 255 < (0x100#32).toNat)
      ∧ (let s := hdrRecord 1#16 0 0x00FFFFFFFF000000#64 [] 0#32;
      (s.hpBytes.toNat - 2) % 8 = 7 ∧ s.params.hdrEofSym ++ 0#32 = s.hpBuf.extractLsb' 0 56 ++ 0x00#8) := by decide

/-- H8 (a symbol twice), H11 (the total) and H9 (no EOF). -/
theorem witness_HdrByteReportsTheFirstFault_model :
    (let s := hdrRecord 3#16 1 0x0000000061000000#64 [(0x61, 1#32)] 1#32;
      (s.hpBytes.toNat - 2) % 8 = 7 ∧ 0x61#32 ++ 2#32 = s.hpBuf.extractLsb' 0 56 ++ 0x02#8 ∧ s.freqAt 0x61 ≠ 0#32)
      ∧ (let s := hdrRecord 2#16 1 0x00FFFFFFFF000000#64 [(0x61, 0xFFFFFFFF#32)] 0xFFFFFFFF#32;
      (s.hpBytes.toNat - 2) % 8 = 7 ∧ s.params.hdrEofSym ++ 1#32 = s.hpBuf.extractLsb' 0 56 ++ 0x01#8 ∧ s.freqAt 256 = 0#32
        ∧ 2 ^ 32 - 1 < s.total.toNat + (1#32).toNat)
      ∧ (let s := hdrRecord 1#16 0 0x0000000061000000#64 [] 0#32;
      (s.hpBytes.toNat - 2) % 8 = 7 ∧ 0x61#32 ++ 5#32 = s.hpBuf.extractLsb' 0 56 ++ 0x05#8 ∧ s.freqAt 0x61 = 0#32
        ∧ s.total.toNat + (5#32).toNat ≤ 2 ^ 32 - 1 ∧ (s.hpBytes.toNat - 2) / 8 + 1 = s.hpN.toNat ∧ s.freqAt 256 = 0#32
        ∧ Memory.wf 0#32 257 s.freq = true) := by decide

theorem witness_HdrEmitSerializesTheModel :
    s1Model.faulted = false ∧ s1Model.phase = .modelReady ∧ s1Tree.faulted = false ∧ s1Tree.phase = .treeReady := by decide

/-- S1's model meets R20 to R23. -/
theorem s1Model_modelOk : s1Model.ModelOk := by
  constructor <;> decide +kernel

theorem witness_HeaderLength : s1Model.faulted = false ∧ s1Model.phase = .modelReady ∧ s1Model.ModelOk :=
  ⟨by decide, by decide, s1Model_modelOk⟩

/-- S1's model meets the invariant. -/
theorem s1Model_inv : s1Model.Inv where
  params := by decide
  memory := by constructor <;> decide
  quiet := by constructor <;> decide
  faultRegs := by constructor <;> decide
  model := s1Model_modelOk
  header := by constructor <;> decide
  tree := ⟨by decide, by decide⟩
  decoder := by constructor <;> decide

theorem witness_HeaderRoundTrip :
    s1Model.Inv ∧ s1Model.faulted = false ∧ s1Model.phase = .modelReady
      ∧ nextIs (exec .hdrEmit s1Model) (fun t => t.yout = s1Model.yout ++ headerBytes s1Model.params s1Model.numSyms s1Model.freq)
        = true
      ∧ faulted.applyReset.faulted = false ∧ faulted.applyReset.params = s1Model.params :=
  ⟨s1Model_inv, by decide, by decide, by decide +kernel, by decide, by decide⟩

/-- The hypotheses of TreeBuildCompletes, TreeHasTwiceTheLeavesLessOne, LutCoversThePresentSymbols and CodesArePrefixFree, for four
symbols, for one, and for a rebuild. -/
theorem witness_TreeBuild :
    (s1Model.faulted = false ∧ s1Model.phase = .modelReady ∧ s1Model.freqAt 256 ≠ 0#32 ∧ 2 ≤ (presentSyms s1Model.freq).length)
      ∧ (s2Model.faulted = false ∧ s2Model.phase = .modelReady ∧ s2Model.freqAt 256 ≠ 0#32
        ∧ (presentSyms s2Model.freq).length = 1)
      ∧ (s1Tree.faulted = false ∧ s1Tree.phase = .treeReady ∧ s1Tree.freqAt 256 ≠ 0#32) := by decide +kernel

theorem witness_TreeWeightsAddUp :
    s1Model.faulted = false ∧ s1Model.phase = .modelReady ∧ s1Model.freqAt 256 ≠ 0#32
      ∧ s1Model.total.toNat = sumCounts s1Model.freq := by decide +kernel

/-- Two elements of equal weight: entries 2 and 3 of S1. -/
theorem witness_PopMinTakesTheLeastKey :
    [3#10, 2#10] ≠ [] ∧ popMin s1Tree.node [3#10, 2#10] = some (2#10, [3#10]) := by decide +kernel

theorem witness_DegenerateTree :
    s2Model.faulted = false ∧ s2Model.phase = .modelReady ∧ 1#32 ≠ 0#32
      ∧ ∀ i, i ≤ 256 → s2Model.freqAt i = if i = 256 then 1#32 else 0#32 := by
  refine ⟨by decide, by decide, by decide, fun i _ => ?_⟩
  unfold State.freqAt
  by_cases h : i = 256 <;> simp [s2Model, Memory.read, h, Ne.symm]

/-- A first build and a rebuild of one model. -/
theorem witness_TreeDependsOnCountsAlone :
    s1Model.faulted = false ∧ s1Model.phase = .modelReady ∧ s1Tree.faulted = false ∧ s1Tree.phase = .treeReady
      ∧ s1Model.freq = s1Tree.freq
      ∧ nextIs (exec .treeBuild s1Model) (fun _ => true) = true ∧ nextIs (exec .treeBuild s1Tree) (fun _ => true) = true := by
  decide +kernel

theorem witness_LutQueryReadsACode :
    s1Tree.faulted = false ∧ (256#9).toNat ≤ 256 ∧ s1Tree.phase = .treeReady ∧ encoding.phase = .encoding
      ∧ decoding.phase = .decoding := by decide

theorem witness_EncStartBeginsAnEncode : s1Tree.faulted = false ∧ s1Tree.phase = .treeReady := by decide

theorem witness_EncSymEmitsTheCode :
    encoding.faulted = false ∧ encoding.phase = .encoding ∧ encoding.encShift = 0#256
      ∧ (encoding.lutAt (0x63#8).toNat).len ≠ 0#9 ∧ (encoding.lutAt (0x7A#8).toNat).len = 0#9 := by decide

theorem witness_EncEndEmitsTheEofCode :
    encoding.faulted = false ∧ encoding.phase = .encoding ∧ encoding.encShift = 0#256 := by decide

theorem witness_EncodedStreamIsTheCodes :
    s1Tree.faulted = false ∧ s1Tree.phase = .treeReady ∧ s1Tree.encShift = 0#256
      ∧ ∀ b ∈ [0x61#8, 0x62#8, 0x63#8], (s1Tree.lutAt b.toNat).len ≠ 0#9 := by decide

theorem witness_DecStartBeginsADecode : s1Tree.faulted = false ∧ s1Tree.phase = .treeReady := by decide

/-- At the root a 1 leads to node 5, which is internal; in node 4 a 1 leads to the EOF leaf and a 0 to a literal leaf. -/
theorem witness_DecBitWalksTheTree :
    decoding.faulted = false ∧ decoding.phase = .decoding ∧ decodeDone.dstate = .done ∧ decoding.dstate ≠ .done
      ∧ decoding.root.toNat < 513 ∧ (decoding.nodeAt decoding.root.toNat).kind = .internal
      ∧ (decoding.nodeAt 6).r = 5#10 ∧ (decoding.nodeAt 5).kind = .internal
      ∧ (decoding.nodeAt 4).r = 3#10 ∧ (decoding.nodeAt 3).kind = .leaf ∧ (decoding.nodeAt 3).sym = 256#9
      ∧ (decoding.nodeAt 4).l = 2#10 ∧ (decoding.nodeAt 2).kind = .leaf ∧ (decoding.nodeAt 2).sym ≠ 256#9 := by decide

/-- The root that is a leaf. -/
theorem witness_DecBitWalksTheTree_degenerate :
    let s : State := { s2Tree with phase := .decoding }
    s.faulted = false ∧ s.dstate ≠ .done ∧ s.root.toNat < 513 ∧ (s.nodeAt s.root.toNat).kind = .leaf
      ∧ (s.nodeAt s.root.toNat).sym = 256#9 := by decide

theorem witness_DecEndChecksTheEnd :
    decodeDone.faulted = false ∧ decodeDone.phase = .decoding ∧ decodeDone.dstate = .done ∧ decoding.faulted = false
      ∧ decoding.phase = .decoding ∧ decoding.dstate ≠ .done := by decide

theorem witness_EncodeThenDecodeGivesBack :
    State.reset.faulted = false ∧ ([] : List Byte).length ≤ 2 ^ 32 - 2 ∧ [0x61#8, 0x62#8].length ≤ 2 ^ 32 - 2 := by decide

theorem witness_CompressThenDecompressGivesBack :
    State.reset.faulted = false ∧ State.reset.params.legal ∧ [0x61#8, 0x62#8].length ≤ 2 ^ 32 - 2
      ∧ s1Tree.faulted = false ∧ s1Tree.params = State.reset.params := by decide

/-- Every clause of OutOfPhaseCommandsFault at a phase outside its list. -/
theorem witness_OutOfPhaseCommandsFault :
    State.reset.faulted = false ∧ State.reset.phase ≠ .counting ∧ State.reset.phase ≠ .hdrLoading
      ∧ State.reset.phase ≠ .modelReady ∧ State.reset.phase ≠ .treeReady ∧ State.reset.phase ≠ .encoding
      ∧ State.reset.phase ≠ .decoding ∧ State.reset.numSyms = 0#9 ∧ (256#9).toNat ≤ 256
      ∧ counting.faulted = false ∧ counting.phase ≠ .modelReady ∧ counting.phase ≠ .treeReady ∧ counting.numSyms ≠ 0#9 := by
  decide

theorem witness_FaultsArePrecise :
    State.reset.faulted = false ∧ nextIs (exec .decEnd decoding) (fun t => t.faulted) = true := by decide +kernel

theorem witness_FaultIsStickyUntilReset :
    (presentNext 0x00000000#32 faulted).faulted = true
      ∧ nextIs (step (presentNext 0x00000000#32 faulted)) (fun t => t.faulted) = true
      ∧ nextIs (step (presentNext 0x000000FF#32 faulted)) (fun t => !t.faulted) = true := by decide +kernel

theorem witness_PhaseChangesOnlyAsListed :
    nextIs (exec .decEnd decodeDone) (fun t => t.phase ≠ decodeDone.phase) = true := by decide +kernel

theorem witness_OnlyTheNamedCommandsWrite :
    nextIs (exec (.encSym 0x61#8) encoding) (fun _ => true) = true ∧ Instr.encSym 0x61#8 ≠ .softReset := by decide +kernel

theorem witness_StreamsAreAppendOnly :
    nextIs (exec (.encSym 0x61#8) encoding) (fun t => t.bout ≠ encoding.bout) = true
      ∧ nextIs (exec .hdrEmit s1Model) (fun t => t.yout ≠ s1Model.yout) = true := by decide +kernel

/-- The decoder of S1 in the middle of a code, with a bit to come, meets the invariant. -/
def inDecode : State := { decoding with dstate := .descending, decNode := 5#10, hostIn := [.command 0x00000021#32] }

theorem inDecode_inv : inDecode.Inv where
  params := by decide
  memory := by constructor <;> decide
  quiet := by constructor <;> decide
  faultRegs := by constructor <;> decide
  model := by constructor <;> decide +kernel
  header := by constructor <;> decide
  tree := ⟨by decide +kernel, by decide⟩
  decoder := by constructor <;> decide

theorem witness_StepKeepsInv :
    inDecode.Inv ∧ nextIs (step inDecode) (fun t => t.yout = [0x62#8]) = true := ⟨inDecode_inv, by decide +kernel⟩

theorem witness_EveryStepAnswersNext : inDecode.Inv := inDecode_inv

/-- Each clause of WhereTheModelStops, at index 513 and at 1023. -/
theorem witness_WhereTheModelStops :
    faultIs (exec .treeBuild { State.reset with phase := .modelReady }) .noRootElement = true
      ∧ faultIs (exec (.decBit true) { decoding with root := 513#10 }) (.nodeIndexOutOfRange 513) = true
      ∧ faultIs (exec (.decBit false) { decoding with decNode := 1023#10 }) (.nodeIndexOutOfRange 1023) = true
      ∧ (let bad : NodeEntry := { kind := .internal, sym := 0x1FF#9, w := 1#32, l := 513#10, r := 1023#10 }
      faultIs (exec (.decBit false) { decoding with node := [(6, bad)] }) (.nodeIndexOutOfRange 513) = true
        ∧ faultIs (exec (.decBit true) { decoding with node := [(6, bad)] }) (.nodeIndexOutOfRange 1023) = true) := by
  decide +kernel

/-- The phase clause of FmCount, FmClose, HdrEmit, EncStart, EncSym, EncEnd, DecStart, DecBit, DecEnd and LutQuery: in IDLE. -/
theorem witness_phase_clauses :
    State.reset.faulted = false ∧ State.reset.phase ≠ .counting ∧ State.reset.phase ≠ .modelReady
      ∧ State.reset.phase ≠ .treeReady ∧ State.reset.phase ≠ .encoding ∧ State.reset.phase ≠ .decoding
      ∧ (256#9).toNat ≤ 256 := by decide

/-- The word clause of NopChangesNothing and of SoftResetResetsEverything. -/
theorem witness_reserved_word_clauses :
    (0x00000100#32).extractLsb' 0 8 = 0x00#8 ∧ 0x00000100#32 ≠ 0x00000000#32
      ∧ (0x000001FF#32).extractLsb' 0 8 = 0xFF#8 ∧ 0x000001FF#32 ≠ 0x000000FF#32
      ∧ State.reset.faulted = false ∧ faulted.faulted = true := by decide

/-- The range clause of FmQueryReadsACount and of LutQueryReadsACode, at 257 and at 511. -/
theorem witness_symbol_range_clauses :
    s1Model.faulted = false ∧ 256 < (257#9).toNat ∧ 256 < (511#9).toNat := by decide

/-- The last clause of OutOfPhaseCommandsFault: FM_COUNT in IDLE. -/
theorem witness_OutOfPhaseCommandsFault_cause :
    nextIs (exec (.fmCount 0x61#8) State.reset) (fun t => t.faulted && t.faultCause = .seqError) = true
      ∧ nextIs (exec .treeBuild State.reset) (fun t => t.faulted && t.faultCause = .emptyModel) = true := by decide +kernel

/-- The word clause of FaultsArePrecise: a word that is no command. -/
theorem witness_FaultsArePrecise_word :
    State.reset.faulted = false ∧ nextIs (acceptWord 0x00000005#32 State.reset) (fun t => t.faulted) = true := by decide +kernel

/-- The other clauses of PhaseChangesOnlyAsListed: done, reset, and faulted; the last byte of the last record. -/
theorem witness_PhaseChangesOnlyAsListed_more :
    nextIs (exec .encStart s1Tree) (fun t => !t.faulted) = true
      ∧ nextIs (exec .softReset s1Tree) (fun _ => true) = true
      ∧ nextIs (step { s1Tree with hostIn := [.rst] }) (fun _ => true) = true
      ∧ nextIs (exec .decEnd decoding) (fun t => t.faulted) = true
      ∧ 2 ≤ (9#12).toNat ∧ ((9#12).toNat - 2) % 8 = 7 ∧ ((9#12).toNat - 2) / 8 + 1 = (1#16).toNat := by decide +kernel

/-- The last clause of FaultedStateIgnoresCommands: the two ways out. -/
theorem witness_FaultedState_reset :
    nextIs (step { faulted with hostIn := [.rst] }) (fun t => !t.faulted) = true
      ∧ nextIs (step { faulted with hostIn := [.command 0x000000FF#32] }) (fun t => !t.faulted) = true := by decide +kernel

/-- The empty-stream clauses of HostActionsTouchNothingElse, and a word that is accepted. -/
theorem witness_HostActions_more :
    ({ State.reset with hostIn := [.takeBit] } : State).hostIn = .takeBit :: [] ∧ State.reset.bout = []
      ∧ ({ State.reset with hostIn := [.takeByte] } : State).hostIn = .takeByte :: [] ∧ State.reset.yout = []
      ∧ (presentNext 0#32 State.reset).hostIn = .command 0#32 :: [] ∧ (presentNext 0#32 State.reset).busy = false := by decide

/-- Both levels of rst in StatusShowsBusy: rst to come, and a word to come. -/
theorem witness_StatusShowsBusy :
    (∃ rest, ({ faulted with hostIn := [.rst] } : State).hostIn = .rst :: rest)
      ∧ ∀ rest, (presentNext 0#32 faulted).hostIn ≠ .rst :: rest :=
  ⟨⟨[], rfl⟩, fun _ h => by cases h⟩

/-- The tree of S1 has three merges: entry 4 of EOF and c, 5 of entry 4 and b, 6 of a and entry 5. -/
theorem witness_MergeTakesTheTwoLeast :
    s1Model.faulted = false ∧ s1Model.phase = .modelReady ∧ s1Model.freqAt 256 ≠ 0#32
      ∧ (presentSyms s1Model.freq).length = 4 ∧ s1Tree.nodeCount = 7#10 ∧ (s1Tree.nodeAt 6).l = 0#10
      ∧ (s1Tree.nodeAt 6).r = 5#10 := by decide +kernel

/-- The tree clause of HeaderRoundTrip. -/
theorem witness_HeaderRoundTrip_tree : nextIs (exec .treeBuild s1Model) (fun _ => true) = true := by decide +kernel

end Sys2Proof.Tests
end

section
/-! PROOF. How a command completes: every way its rule can be done, with the state it leaves and what held before, said once. -/

namespace Sys2Proof.Machine

/-- R134: symbol sym enters the model with count c. -/
def State.addSym (s : State) (sym : Nat) (c : Word) : State :=
  { s with freq := Memory.write 0#32 s.freq sym c, numSyms := s.numSyms + 1#9, total := s.total + c }

/-- R133 to R136: a record of symbol sym and count c passes the checks. -/
structure State.NewRecord (s : State) (sym : Nat) (c : Word) : Prop where
  named : ∃ v, recordSym s.params v = some sym
  count : c ≠ 0#32
  absent : s.freqAt sym = 0#32
  room : s.total.toNat + c.toNat ≤ Config.totalMax

/-- How each command but SOFT_RESET completes, where its rule does not fault: the state it leaves, and what held before. -/
inductive Completes (s : State) : Instr → State → Prop
  | nop : Completes s .nop s
  | fmClear : Completes s .fmClear { s.modelReset with phase := .counting }
  | fmCount (b : Byte) (hmax : s.total ≠ 0xFFFFFFFE#32) : Completes s (.fmCount b) { s with
      numSyms := if s.freqAt b.toNat = 0#32 then s.numSyms + 1#9 else s.numSyms
      freq := Memory.write 0#32 s.freq b.toNat (s.freqAt b.toNat + 1#32)
      total := s.total + 1#32 }
  | fmClose : Completes s .fmClose { s.addSym Config.eofId 1#32 with phase := .modelReady }
  | fmQuery (sym : SymId) : Completes s (.fmQuery sym) { s with qCount := s.freqAt sym.toNat }
  | hdrBegin : Completes s .hdrBegin { s.modelReset with phase := .hdrLoading }
  | hdrCount (b : Byte) (n : BitVec 16) (hlt : s.hpBytes.toNat < 2)
      (hn : s.hpBytes.toNat = 1 → n ≠ 0#16 ∧ n.toNat ≤ Config.nSym) :
      Completes s (.hdrByte b) { s with hpN := n, hpBytes := s.hpBytes + 1#12 }
  | hdrInside (b : Byte) (buf : BitVec 64) (h2 : 2 ≤ s.hpBytes.toNat) (h7 : (s.hpBytes.toNat - 2) % 8 ≠ 7) :
      Completes s (.hdrByte b) { s with hpBuf := buf, hpBytes := s.hpBytes + 1#12 }
  | hdrRecord (b : Byte) (buf : BitVec 64) (sym : Nat) (c : Word) (h2 : 2 ≤ s.hpBytes.toNat)
      (h7 : (s.hpBytes.toNat - 2) % 8 = 7) (hnew : s.NewRecord sym c)
      (hmore : (s.hpBytes.toNat - 2) / 8 + 1 ≠ s.hpN.toNat) :
      Completes s (.hdrByte b) { s.addSym sym c with hpBuf := buf, hpBytes := s.hpBytes + 1#12 }
  | hdrLast (b : Byte) (buf : BitVec 64) (sym : Nat) (c : Word) (h2 : 2 ≤ s.hpBytes.toNat)
      (h7 : (s.hpBytes.toNat - 2) % 8 = 7) (hnew : s.NewRecord sym c)
      (hlast : (s.hpBytes.toNat - 2) / 8 + 1 = s.hpN.toNat) (heof : (s.addSym sym c).freqAt Config.eofId ≠ 0#32) :
      Completes s (.hdrByte b) { s.addSym sym c with hpBuf := buf, hpBytes := s.hpBytes + 1#12, phase := .modelReady }
  | hdrEmit : Completes s .hdrEmit (s.emitBytes (headerBytes s.params s.numSyms s.freq))
  | treeBuild (hP : presentSyms s.freq ≠ []) : Completes s .treeBuild { s with
      node := (buildTree s.freq).node
      root := builtRoot s.freq
      pq := []
      nodeCount := BitVec.ofNat 10 (buildTree s.freq).n
      rootWeight := weightOf (buildTree s.freq).node (builtRoot s.freq)
      travStack := []
      lut := (deriveLut (buildTree s.freq).node (builtRoot s.freq)).2
      phase := .treeReady }
  | lutQuery (sym : SymId) : Completes s (.lutQuery sym) { s with
      lutLenR := (s.lutAt sym.toNat).len, lutBitsR := LutBits.ofPattern (s.lutAt sym.toNat).pat }
  | encStart : Completes s .encStart { s with bitCount := 0#64, phase := .encoding }
  | encSym (b : Byte) (hlen : (s.lutAt (literalSym b).toNat).len ≠ 0#9) :
      Completes s (.encSym b) (emitCode (s.lutAt (literalSym b).toNat) s)
  | encEnd : Completes s .encEnd { emitCode (s.lutAt Config.eofId) s with phase := .treeReady }
  | decStart : Completes s .decStart { s with dstate := .atRoot, decNode := s.root, decCount := 0#64, phase := .decoding }
  | decDropped (b : Bool) (hd : s.dstate = .done) : Completes s (.decBit b) s
  | decInternal (b : Bool) (n : NodeIdx) (hd : s.dstate ≠ .done) (hn : decTarget b s = .ok n)
      (hk : (s.nodeAt n.toNat).kind = .internal) :
      Completes s (.decBit b) { s with decNode := n, dstate := .descending }
  | decEof (b : Bool) (n : NodeIdx) (hd : s.dstate ≠ .done) (hn : decTarget b s = .ok n)
      (hk : (s.nodeAt n.toNat).kind = .leaf) (he : (s.nodeAt n.toNat).sym.toNat = Config.eofId) :
      Completes s (.decBit b) { s with decNode := n, dstate := .done }
  | decLiteral (b : Bool) (n : NodeIdx) (hd : s.dstate ≠ .done) (hn : decTarget b s = .ok n)
      (hk : (s.nodeAt n.toNat).kind = .leaf) (he : (s.nodeAt n.toNat).sym.toNat ≠ Config.eofId) :
      Completes s (.decBit b) { s with
        yout := s.yout ++ [(s.nodeAt n.toNat).sym.extractLsb' 0 8]
        decCount := s.decCount + 1#64, decNode := s.root, dstate := .atRoot }
  | decEnd (hd : s.dstate = .done) : Completes s .decEnd { s with phase := .treeReady }

/-! ### The frequency counter and the header parser -/

theorem fmCountRule_completes {b : Byte} {s t : State} (h : fmCountRule b s = .done t) : Completes s (.fmCount b) t := by
  simp only [fmCountRule, literalSym_toNat] at h
  split at h
  · cases h
  · next hmax =>
    cases h
    exact .fmCount b hmax

/-- R133 to R136: a record that is accepted brings a new symbol, and the last one closes the model. -/
theorem processRecord_done_eq {v c : Word} {j : Nat} {s t : State} (h : processRecord v c j s = .done t) :
    ∃ sym, s.NewRecord sym c
      ∧ ((j + 1 ≠ s.hpN.toNat ∧ t = s.addSym sym c)
        ∨ (j + 1 = s.hpN.toNat ∧ (s.addSym sym c).freqAt Config.eofId ≠ 0#32
          ∧ t = { s.addSym sym c with phase := .modelReady })) := by
  unfold processRecord at h
  split at h
  · cases h
  next sym hsym =>
  dsimp only at h
  split_ifs at h with hc hf ht hj he
  all_goals cases h
  all_goals refine ⟨sym, ⟨⟨v, hsym⟩, hc, not_not.1 hf, not_lt.1 ht⟩, ?_⟩
  · exact .inr ⟨hj, he, rfl⟩
  · exact .inl ⟨hj, rfl⟩

theorem hdrByteRule_completes {b : Byte} {s t : State} (h : hdrByteRule b s = .done t) : Completes s (.hdrByte b) t := by
  simp only [hdrByteRule] at h
  split_ifs at h with hk hn hm
  · cases h
    exact .hdrCount b _ hk fun h1 => by simpa [h1] using hn
  · obtain ⟨sym, ⟨hnamed, hc, h0, hroom⟩, ⟨hmore, rfl⟩ | ⟨hlast, heof, rfl⟩⟩ := processRecord_done_eq h
    · exact .hdrRecord b _ sym _ (not_lt.1 hk) hm ⟨hnamed, hc, h0, hroom⟩ hmore
    · exact .hdrLast b _ sym _ (not_lt.1 hk) hm ⟨hnamed, hc, h0, hroom⟩ hlast heof
  · cases h
    exact .hdrInside b _ (not_lt.1 hk) hm

/-- R133: a SYMBOL field names a symbol of the alphabet. -/
theorem recordSym_lt {p : Config.Params} {v : Word} {sym : Nat} (h : recordSym p v = some sym) : sym < Config.nSym := by
  unfold recordSym at h
  split_ifs at h with h1 h2
  · cases h
    decide
  · cases h
    exact Nat.lt_of_le_of_lt h2 (by decide)

/-! ### The tree builder, the encoder and the decoder -/

/-- R91: TREE_BUILD is done only for a model with a present symbol. -/
theorem treeBuildRule_completes {s t : State} (h : treeBuildRule s = .done t) : Completes s .treeBuild t := by
  by_cases hP : presentSyms s.freq = []
  · rw [treeBuildRule_stop hP] at h
    cases h
  · rw [treeBuildRule_done hP] at h
    cases h
    exact .treeBuild hP

theorem encSymRule_completes {b : Byte} {s t : State} (h : encSymRule b s = .done t) : Completes s (.encSym b) t := by
  simp only [encSymRule] at h
  split at h
  · cases h
  · next hlen =>
    cases h
    exact .encSym b hlen

theorem decEndRule_completes {s t : State} (h : decEndRule s = .done t) : Completes s .decEnd t := by
  unfold decEndRule at h
  split at h
  · cases h
  · next hd =>
    cases h
    exact .decEnd (not_not.1 hd)

theorem nodeChecked_eq_ok {s : State} {i : NodeIdx} {nd : NodeEntry} (h : s.nodeChecked i = .ok nd) :
    nd = s.nodeAt i.toNat := by
  unfold State.nodeChecked at h
  split_ifs at h
  exact (Except.ok.inj h).symm

/-- R119, R120: the entry a bit leads to. -/
theorem decTarget_ok {b : Bool} {s : State} {n : NodeIdx} (h : decTarget b s = .ok n) :
    ((s.nodeAt s.root.toNat).kind = .leaf ∧ n = s.root)
      ∨ ((s.nodeAt s.root.toNat).kind = .internal
        ∧ n = if b then (s.nodeAt s.decNode.toNat).r else (s.nodeAt s.decNode.toNat).l) := by
  unfold decTarget at h
  split at h
  · cases h
  next r hr =>
  rw [← nodeChecked_eq_ok hr]
  split at h
  · next hk => exact .inl ⟨hk, (Except.ok.inj h).symm⟩
  next hk =>
  split at h
  · cases h
  next d hd =>
  rw [← nodeChecked_eq_ok hd]
  exact .inr ⟨hk, (Except.ok.inj h).symm⟩

/-- R119, R121: the decoder lands on an internal entry, on the leaf of EOF, or on the leaf of a literal. -/
theorem decLand_completes {b : Bool} {n : NodeIdx} {s : State} (hd : s.dstate ≠ .done) (hn : decTarget b s = .ok n) :
    Completes s (.decBit b) (decLand n (s.nodeAt n.toNat) s) := by
  unfold decLand
  split
  · next hk =>
    split
    · next he => exact .decEof b n hd hn hk he
    · next he => exact .decLiteral b n hd hn hk he
  · next hk => exact .decInternal b n hd hn hk

theorem decBitRule_completes {b : Bool} {s t : State} (h : decBitRule b s = .done t) : Completes s (.decBit b) t := by
  unfold decBitRule at h
  split at h
  · next hd =>
    cases h
    exact .decDropped b hd
  next hd =>
  split at h
  · cases h
  next n hn =>
  split at h
  · cases h
  next nd hnd =>
  cases h
  rw [nodeChecked_eq_ok hnd]
  exact decLand_completes hd hn

/-! ### Every command -/

/-- A rule that is done completes its command in one of these ways. -/
theorem ruleOf_completes {i : Instr} {s t : State} (hi : i ≠ .softReset) (h : ruleOf i s = .done t) : Completes s i t := by
  cases i
  case fmCount b => exact fmCountRule_completes h
  case hdrByte b => exact hdrByteRule_completes h
  case treeBuild => exact treeBuildRule_completes h
  case encSym b => exact encSymRule_completes h
  case decBit b => exact decBitRule_completes h
  case decEnd => exact decEndRule_completes h
  case softReset => exact absurd rfl hi
  all_goals
    cases h
    constructor

/-- How a command other than SOFT_RESET comes to a next state: ignored, faulted, or completed in a phase it is legal in. -/
theorem exec_completes {i : Instr} {s t : State} (hi : i ≠ .softReset) (h : exec i s = .next t) :
    (s.faulted = true ∧ t = s) ∨ (∃ c w, t = s.enterFault c w) ∨ (s.phase ∈ legalPhases i ∧ Completes s i t) := by
  rcases exec_next_cases h with ⟨hr, -⟩ | ⟨-, hf, ht⟩ | ⟨-, -, c, -, ht⟩ | ⟨-, -, -, hp, hr⟩
  · exact absurd hr hi
  · exact .inl ⟨hf, ht⟩
  · exact .inr (.inl ⟨c, _, ht⟩)
  · exact .inr (.inr ⟨hp, ruleOf_completes hi hr⟩)

end Sys2Proof.Machine
end

section
/-! PROOF. O54 and O55: the invariant holds at reset, and every command, every other host action and so every step keeps it. -/

namespace Sys2Proof.Machine

/-! ### Which fields each part of the invariant reads -/

section
variable {s t : State}

theorem State.MemoryOk.congr (h : s.MemoryOk) (hf : t.freq = s.freq := by rfl) (hn : t.node = s.node := by rfl)
    (hl : t.lut = s.lut := by rfl) : t.MemoryOk :=
  ⟨hf ▸ h.freq, hn ▸ h.node, hl ▸ h.lut⟩

theorem State.Quiet.congr (h : s.Quiet) (hp : t.pq = s.pq := by rfl) (ht : t.travStack = s.travStack := by rfl)
    (he : t.encShift = s.encShift := by rfl) (hb : t.busy = s.busy := by rfl) : t.Quiet :=
  ⟨hp ▸ h.pq, ht ▸ h.travStack, he ▸ h.encShift, hb ▸ h.busy⟩

theorem State.FaultRegsOk.congr (h : s.FaultRegsOk) (hf : t.faulted = s.faulted := by rfl)
    (hc : t.faultCause = s.faultCause := by rfl) (hw : t.faultCmd = s.faultCmd := by rfl) : t.FaultRegsOk := by
  obtain ⟨h1, h2⟩ := h
  constructor <;> simpa only [hf, hc, hw]

theorem State.ModelOk.congr (h : s.ModelOk) (hp : t.phase = s.phase := by rfl) (hf : t.freq = s.freq := by rfl)
    (hn : t.numSyms = s.numSyms := by rfl) (ht : t.total = s.total := by rfl) : t.ModelOk := by
  obtain ⟨h1, h2, h3, h4, h5⟩ := h
  unfold State.freqAt at h4 h5
  constructor <;> simp only [State.freqAt, hp, hf, hn, ht] <;> assumption

theorem State.HeaderOk.congr (h : s.HeaderOk) (hp : t.phase = s.phase := by rfl) (hf : t.freq = s.freq := by rfl)
    (hn : t.numSyms = s.numSyms := by rfl) (hb : t.hpBytes = s.hpBytes := by rfl) (hc : t.hpN = s.hpN := by rfl) :
    t.HeaderOk := by
  obtain ⟨h1, h2, h3⟩ := h
  constructor <;> simpa only [hp, hf, hn, hb, hc]

theorem State.TreeOk.congr (h : s.TreeOk) (hp : t.phase.treeValid = s.phase.treeValid := by rfl)
    (hf : t.freq = s.freq := by rfl) (hn : t.node = s.node := by rfl) (hc : t.nodeCount = s.nodeCount := by rfl)
    (hr : t.root = s.root := by rfl) (hw : t.rootWeight = s.rootWeight := by rfl) (hl : t.lut = s.lut := by rfl) :
    t.TreeOk := by
  obtain ⟨h1, h2⟩ := h
  constructor <;> simpa only [hp, hf, hn, hc, hr, hw, hl]

theorem State.DecoderOk.congr (h : s.DecoderOk) (hp : t.phase = s.phase := by rfl) (hd : t.dstate = s.dstate := by rfl)
    (hm : t.decNode = s.decNode := by rfl) (hr : t.root = s.root := by rfl) (hn : t.node = s.node := by rfl)
    (hc : t.nodeCount = s.nodeCount := by rfl) : t.DecoderOk := by
  obtain ⟨h1, h2, h3⟩ := h
  unfold State.nodeAt at h2 h3
  constructor <;> simpa only [State.nodeAt, hp, hd, hm, hr, hn, hc]

theorem Phase.ne_of_treeValid {p q : Phase} (h : p.treeValid ≠ q.treeValid) : p ≠ q := fun he => h (congrArg _ he)

/-- The parts about a phase hold in the other phases. -/
theorem State.HeaderOk.of_ne (h : t.phase ≠ .hdrLoading) : t.HeaderOk :=
  ⟨fun hp => absurd hp h, fun hp => absurd hp h, fun hp => absurd hp h⟩

theorem State.DecoderOk.of_ne (h : t.phase ≠ .decoding) : t.DecoderOk :=
  ⟨fun hp => absurd hp h, fun hp => absurd hp h, fun hp => absurd hp h⟩

/-- A state with every field that Inv does not read set to its reset value. -/
def State.invPart (s : State) : State :=
  { s with
    bitCount := 0#64, decCount := 0#64, hpBuf := 0#64, qCount := 0#32, lutLenR := 0#9, lutBitsR := LutBits.zero
    bout := [], yout := [], hostIn := [], takenBits := [], takenBytes := [], regReads := [], draws := 0 }

/-- The invariant reads no other field than those of invPart. -/
theorem State.Inv.congr (h : s.Inv) (he : t.invPart = s.invPart := by rfl) : t.Inv := by
  have hs : s.invPart.Inv :=
    ⟨h.params, h.memory.congr, h.quiet.congr, h.faultRegs.congr, h.model.congr, h.header.congr, h.tree.congr,
      h.decoder.congr⟩
  rw [← he] at hs
  exact ⟨hs.params, hs.memory.congr, hs.quiet.congr, hs.faultRegs.congr, hs.model.congr, hs.header.congr, hs.tree.congr,
    hs.decoder.congr⟩

/-! ### Reset and fault entry -/

/-- R164: a reset makes the invariant true whatever held before, the parameter being legal. -/
theorem State.inv_applyReset (h : s.params.legal) : s.applyReset.Inv where
  params := h
  memory := ⟨rfl, rfl, rfl⟩
  quiet := ⟨rfl, rfl, rfl, rfl⟩
  faultRegs := ⟨fun _ => ⟨rfl, rfl⟩, nofun⟩
  model :=
    { numSyms := by simp [presentSyms_nil]
      total := by simp [sumCounts_nil]
      idle := fun _ => rfl
      counting := nofun
      closed := by simp [Phase.treeValid] }
  header := .of_ne nofun
  tree := ⟨nofun, fun _ => ⟨rfl, rfl, rfl, rfl, rfl⟩⟩
  decoder := .of_ne nofun

/-- R145, R146: a fault with a cause leaves all but the fault registers alone. -/
theorem State.Inv.after_fault (h : s.Inv) {c : Cause} (hc : c ≠ .none) (w : Word) : (s.enterFault c w).Inv :=
  ⟨h.params, h.memory.congr, h.quiet.congr, ⟨nofun, fun _ => hc⟩, h.model.congr, h.header.congr, h.tree.congr,
    h.decoder.congr⟩

/-! ### The model (R20 to R23, R81 to R85, R131 to R135) -/

/-- R81: a model that is begun, by FM_CLEAR or HDR_BEGIN, is empty. -/
theorem State.Inv.after_modelReset (h : s.Inv) {p : Phase} (hp : p = .counting ∨ p = .hdrLoading) :
    ({ s.modelReset with phase := p } : State).Inv where
  params := h.params
  memory := ⟨rfl, rfl, rfl⟩
  quiet := h.quiet.congr
  faultRegs := h.faultRegs.congr
  model :=
    { numSyms := by simp [presentSyms_nil]
      total := by simp [sumCounts_nil]
      idle := fun _ => rfl
      counting := fun _ => ⟨rfl, by simp⟩
      closed := by rcases hp with rfl | rfl <;> simp [Phase.treeValid] }
  header := ⟨fun _ _ => rfl, fun _ _ => rfl, fun _ h2 => by simp at h2⟩
  tree := ⟨by rcases hp with rfl | rfl <;> nofun, fun _ => ⟨rfl, rfl, rfl, rfl, rfl⟩⟩
  decoder := .of_ne (by rcases hp with rfl | rfl <;> nofun)

/-- What a command that writes the model keeps, from a phase without a tree to a phase without a tree: it has only the model and the
parser to answer for. -/
theorem State.Inv.writeModel (h : s.Inv)
    (hframe : ∃ p f n k b c u, t = { s with
      phase := p, freq := f, numSyms := n, total := k, hpBytes := b, hpN := c, hpBuf := u })
    (hs : s.phase.treeValid = false) (ht : t.phase.treeValid = false) (hf : Memory.wf 0#32 Config.nSym t.freq = true)
    (hm : t.ModelOk) (hh : t.HeaderOk) : t.Inv := by
  obtain ⟨p, f, n, k, b, c, u, rfl⟩ := hframe
  exact
    { params := h.params
      memory := ⟨hf, h.memory.node, h.memory.lut⟩
      quiet := h.quiet.congr
      faultRegs := h.faultRegs.congr
      model := hm
      header := hh
      tree := ⟨fun hv => by simp [ht] at hv, fun _ => h.tree.cleared hs⟩
      decoder := .of_ne (Phase.ne_of_treeValid (by rw [ht]; decide)) }

/-- R21: NUM_SYMS still counts the model after a new symbol gets a count. -/
theorem numSyms_of_new {f : Memory Word} (hf : Memory.wf 0#32 Config.nSym f = true) {n : BitVec 9} {v : Word} {i : Nat}
    (hi : i < Config.nSym) (hn : n.toNat = (presentSyms f).length) (h0 : Memory.read 0#32 f i = 0#32) (hv : v ≠ 0#32) :
    (n + 1#9).toNat = (presentSyms (Memory.write 0#32 f i v)).length := by
  have hlen := presentSyms_write_new hf hi h0 hv
  have hle := presentSyms_length_le (Memory.write 0#32 f i v)
  rw [BitVec.toNat_add, hn, hlen, show (1#9).toNat = 1 from rfl]
  exact Nat.mod_eq_of_lt (by omega)

/-- R22: TOTAL still counts the model after a count grows by c, where TOTAL has room for it. -/
theorem total_of_grow {f : Memory Word} (hf : Memory.wf 0#32 Config.nSym f = true) {k c v : Word} {i : Nat}
    (hi : i < Config.nSym) (hk : k.toNat = sumCounts f) (hmax : k.toNat + c.toNat ≤ 2 ^ 32 - 1)
    (hv : v.toNat = (Memory.read 0#32 f i).toNat + c.toNat) : (k + c).toNat = sumCounts (Memory.write 0#32 f i v) := by
  have hsum := sumCounts_write hf hi v
  have hlt : k.toNat + c.toNat < 2 ^ 32 := by omega
  rw [BitVec.toNat_add, Nat.mod_eq_of_lt hlt]
  omega

/-- R83: FM_COUNT. -/
theorem State.Inv.after_fmCount (h : s.Inv) (hp : s.phase = .counting) {b : Byte} (hc : Completes s (.fmCount b) t) :
    t.Inv := by
  cases hc
  next hmax =>
  obtain ⟨heof, hle⟩ := h.model.counting hp
  have hne : s.total.toNat ≠ 2 ^ 32 - 2 := fun h0 => hmax (BitVec.eq_of_toNat_eq h0)
  have hb := byte_lt b
  have hcount : (s.freqAt b.toNat).toNat ≤ s.total.toNat := h.model.total ▸ read_le_sumCounts s.freq hb
  have hv : (s.freqAt b.toNat + 1#32).toNat = (s.freqAt b.toNat).toNat + 1 := by
    rw [BitVec.toNat_add]
    exact Nat.mod_eq_of_lt (by simp; omega)
  have hv0 : s.freqAt b.toNat + 1#32 ≠ 0#32 := fun h0 => by simp [h0] at hv
  have htotal : (s.total + 1#32).toNat = s.total.toNat + 1 := by
    rw [BitVec.toNat_add]
    exact Nat.mod_eq_of_lt (by simp; omega)
  have hopen : s.phase.treeValid = false := by simp [hp, Phase.treeValid]
  refine h.writeModel ⟨_, _, _, _, _, _, _, rfl⟩ hopen hopen (Memory.wf_write h.memory.freq hb) ?_ (.of_ne (by simp [hp]))
  constructor
  · dsimp only
    split
    · next h0 => exact numSyms_of_new h.memory.freq hb h.model.numSyms h0 hv0
    · next h0 => rw [presentSyms_write_old h.memory.freq h0 hv0, h.model.numSyms]
  · exact total_of_grow h.memory.freq hb h.model.total (by simp; omega) hv
  · simp [hp]
  · intro _
    have : b.toNat ≠ Config.eofId := Nat.ne_of_lt b.isLt
    refine ⟨?_, by dsimp only; omega⟩
    unfold State.freqAt
    exact (Memory.read_write_other h.memory.freq this).trans heof
  · simp [hp, Phase.treeValid]

/-- A symbol that enters the model leaves NUM_SYMS and TOTAL counting it. -/
theorem State.ModelOk.addSym (h : s.ModelOk) (hf : Memory.wf 0#32 Config.nSym s.freq = true) {i : Nat} {c : Word}
    (hi : i < Config.nSym) (h0 : s.freqAt i = 0#32) (hc : c ≠ 0#32) (hmax : s.total.toNat + c.toNat ≤ 2 ^ 32 - 1)
    {p : Phase} (hp : p = .hdrLoading ∨ p = .modelReady ∧ (s.addSym i c).freqAt Config.eofId ≠ 0#32) :
    ({ s.addSym i c with phase := p } : State).ModelOk where
  numSyms := numSyms_of_new hf hi h.numSyms h0 hc
  total := total_of_grow hf hi h.total hmax (by
    rw [show Memory.read 0#32 s.freq i = 0#32 from h0]
    simp)
  idle := by rcases hp with rfl | ⟨rfl, -⟩ <;> nofun
  counting := by rcases hp with rfl | ⟨rfl, -⟩ <;> nofun
  closed := by
    rcases hp with rfl | ⟨-, he⟩
    · simp [Phase.treeValid]
    · exact fun _ => he

/-- R85: FM_CLOSE. -/
theorem State.Inv.after_fmClose (h : s.Inv) (hp : s.phase = .counting) (hc : Completes s .fmClose t) : t.Inv := by
  cases hc
  obtain ⟨heof, hle⟩ := h.model.counting hp
  have hlt : Config.eofId < Config.nSym := by decide
  refine h.writeModel ⟨_, _, _, _, _, _, _, rfl⟩ (by simp [hp, Phase.treeValid]) rfl (Memory.wf_write h.memory.freq hlt) ?_
    (.of_ne nofun)
  refine h.model.addSym h.memory.freq hlt heof (by decide) (by simp; omega) (.inr ⟨rfl, ?_⟩)
  unfold State.freqAt State.addSym
  dsimp only
  rw [Memory.read_write_same h.memory.freq]
  decide

theorem State.NewRecord.lt {i : Nat} {c : Word} (h : s.NewRecord i c) : i < Config.nSym :=
  h.named.elim fun _ hv => recordSym_lt hv

/-- R31: HP_BYTES does not wrap while a header is received. -/
theorem State.HeaderOk.hpBytes_succ (h : s.HeaderOk) (hp : s.phase = .hdrLoading) :
    (s.hpBytes + 1#12).toNat = s.hpBytes.toNat + 1 := by
  have hlt : s.hpBytes.toNat < 2 + 8 * 257 := by
    by_cases h2 : 2 ≤ s.hpBytes.toNat
    · obtain ⟨-, hn, hlast, -⟩ := h.records hp h2
      exact Nat.lt_of_lt_of_le hlast (Nat.add_le_add_left (Nat.mul_le_mul_left 8 hn) 2)
    · omega
  simp
  omega

/-- R132 to R135: HDR_BYTE. -/
theorem State.Inv.after_hdrByte (h : s.Inv) (hp : s.phase = .hdrLoading) {b : Byte} (hc : Completes s (.hdrByte b) t) :
    t.Inv := by
  have hs : s.phase.treeValid = false := by simp [hp, Phase.treeValid]
  have hbytes := h.header.hpBytes_succ hp
  cases hc with
  | hdrCount _ n hlt hn =>
    have hfreq := h.header.second hp hlt
    have hsyms : s.numSyms.toNat = 0 := by rw [h.model.numSyms, hfreq, presentSyms_nil]; rfl
    refine h.writeModel ⟨_, _, _, _, _, _, _, rfl⟩ hs hs h.memory.freq h.model.congr ?_
    constructor
    · dsimp only
      omega
    · exact fun _ _ => hfreq
    · intro _ h2
      dsimp only at h2 ⊢
      obtain ⟨hn0, hn257⟩ := hn (by omega)
      have : n.toNat ≠ 0 := fun h0 => hn0 (BitVec.eq_of_toNat_eq h0)
      omega
  | hdrInside _ buf h2 h7 =>
    obtain ⟨h1, hn, hlast, hsyms⟩ := h.header.records hp h2
    refine h.writeModel ⟨_, _, _, _, _, _, _, rfl⟩ hs hs h.memory.freq h.model.congr ?_
    constructor <;> dsimp only <;> omega
  | hdrRecord _ buf sym c h2 h7 hnew hmore =>
    obtain ⟨h1, hn, hlast, hsyms⟩ := h.header.records hp h2
    have hnum : (s.numSyms + 1#9).toNat = s.numSyms.toNat + 1 := by simp; omega
    have hm := h.model.addSym h.memory.freq hnew.lt hnew.absent hnew.count hnew.room (.inl rfl)
    refine h.writeModel ⟨_, _, _, _, _, _, _, rfl⟩ hs hs (Memory.wf_write h.memory.freq hnew.lt) (hm.congr hp) ?_
    constructor <;> dsimp only [State.addSym] <;> omega
  | hdrLast _ buf sym c h2 h7 hnew hlast heof =>
    have hm := h.model.addSym h.memory.freq hnew.lt hnew.absent hnew.count hnew.room (.inr ⟨rfl, heof⟩)
    exact h.writeModel ⟨_, _, _, _, _, _, _, rfl⟩ hs rfl (Memory.wf_write h.memory.freq hnew.lt) hm.congr (.of_ne nofun)

/-! ### The tree (R91, R43) -/

theorem State.Inv.after_treeBuild (h : s.Inv) (hp : s.phase = .modelReady ∨ s.phase = .treeReady)
    (hc : Completes s .treeBuild t) : t.Inv := by
  cases hc
  next hP =>
  obtain ⟨_, hb⟩ := built s.freq hP
  have heof : s.freqAt Config.eofId ≠ 0#32 := h.model.closed (hp.imp_right fun hp => by simp [hp, Phase.treeValid])
  exact
    { params := h.params
      memory := ⟨h.memory.freq, hb.wf, hb.lutWf⟩
      quiet := ⟨rfl, rfl, h.quiet.encShift, h.quiet.busy⟩
      faultRegs := h.faultRegs.congr
      model := ⟨h.model.numSyms, h.model.total, nofun, nofun, fun _ => heof⟩
      header := .of_ne nofun
      tree := ⟨fun _ => ⟨hb.pq, rfl, rfl, rfl, rfl⟩, nofun⟩
      decoder := .of_ne nofun }

/-- What a command of the encoder or the decoder keeps, from a phase with a tree to a phase with a tree: it has only the decoder's
position to answer for. -/
theorem State.Inv.withTree (h : s.Inv)
    (hframe : ∃ p d n k b y, t = { s with
      phase := p, dstate := d, decNode := n, decCount := k, bitCount := b, yout := y })
    (hs : s.phase.treeValid = true) (ht : t.phase.treeValid = true) (hd : t.DecoderOk) : t.Inv := by
  have hidle : t.phase ≠ .idle := Phase.ne_of_treeValid (by rw [ht]; decide)
  have hcounting : t.phase ≠ .counting := Phase.ne_of_treeValid (by rw [ht]; decide)
  have hloading : t.phase ≠ .hdrLoading := Phase.ne_of_treeValid (by rw [ht]; decide)
  obtain ⟨p, d, n, k, b, y, rfl⟩ := hframe
  exact
    { params := h.params
      memory := h.memory.congr
      quiet := h.quiet.congr
      faultRegs := h.faultRegs.congr
      model := ⟨h.model.numSyms, h.model.total, fun hp => absurd hp hidle, fun hp => absurd hp hcounting,
        fun _ => h.model.closed (.inr hs)⟩
      header := .of_ne hloading
      tree := h.tree.congr (ht.trans hs.symm)
      decoder := hd }

/-- R110 to R112: emitting a code leaves the shift register at rest. -/
theorem State.Inv.after_emitCode (h : s.Inv) (e : LutEntry) : (emitCode e s).Inv :=
  h.congr (by simp [emitCode_eq, State.invPart, h.quiet.encShift])

/-! ### The decoder (R117 to R121) -/

/-- R43: where the tree is valid it is the one TREE_BUILD makes of the model. -/
theorem State.Inv.built (h : s.Inv) (hv : s.phase.treeValid = true) :
    ∃ u, Built s.freq u ∧ s.root = builtRoot s.freq ∧ s.node = (buildTree s.freq).node
      ∧ s.nodeCount.toNat = (buildTree s.freq).n := by
  obtain ⟨hpq, hnode, hcount, -, -⟩ := h.tree.valid hv
  obtain ⟨u, hu⟩ := Machine.built s.freq (presentSyms_ne_nil (by decide) (h.model.closed (.inr hv)))
  have hroot : s.root = builtRoot s.freq := by simpa [hu.pq] using hpq.symm
  refine ⟨u, hu, hroot, hnode, ?_⟩
  rw [hcount]
  exact idx_toNat (Nat.lt_of_le_of_lt hu.n_le (by decide))

/-- R117: while more bits can follow, DEC_NODE is an entry of the arena, and an internal one unless the root is a leaf. -/
theorem State.Inv.decNode_internal (h : s.Inv) (hp : s.phase = .decoding) (hd : s.dstate ≠ .done)
    (hk : (s.nodeAt s.root.toNat).kind = .internal) :
    s.decNode.toNat < s.nodeCount.toNat ∧ (s.nodeAt s.decNode.toNat).kind = .internal := by
  obtain ⟨u, hu, hroot, -, hcount⟩ := h.built (by simp [hp, Phase.treeValid])
  cases hds : s.dstate with
  | atRoot =>
    rw [h.decoder.atRoot hp hds, hcount, ← hu.root, hroot]
    exact ⟨Nat.lt_succ_self _, hroot ▸ hk⟩
  | descending =>
    obtain ⟨hlt, -, hint⟩ := h.decoder.descending hp hds
    exact ⟨hlt, hint⟩
  | done => exact absurd hds hd

/-- R119, R120: a bit leads to an entry of the arena, and to the root only where that is a leaf. -/
theorem State.Inv.decTarget_lt (h : s.Inv) (hp : s.phase = .decoding) (hd : s.dstate ≠ .done) {b : Bool} {n : NodeIdx}
    (hn : decTarget b s = .ok n) : n < s.nodeCount ∧ ((s.nodeAt n.toNat).kind = .internal → n ≠ s.root) := by
  obtain ⟨u, hu, hroot, hnode, hcount⟩ := h.built (by simp [hp, Phase.treeValid])
  have hlast := hu.root
  rw [← hroot] at hlast
  rw [BitVec.lt_def]
  rcases decTarget_ok hn with ⟨hk, rfl⟩ | ⟨hk, hchild⟩
  · exact ⟨by omega, fun hi => by rw [hk] at hi; cases hi⟩
  · obtain ⟨hlt, hint⟩ := h.decNode_internal hp hd hk
    obtain ⟨hl, hr⟩ := hu.child_lt (k := s.decNode.toNat) (by omega) (by rw [← hnode]; exact hint)
    rw [← hnode] at hl hr
    have hn' : n.toNat < s.decNode.toNat := by
      rw [hchild]
      cases b
      · exact hl
      · exact hr
    refine ⟨by omega, ?_⟩
    rintro - rfl
    omega

/-- R119 to R121: DEC_BIT. -/
theorem State.Inv.after_decBit (h : s.Inv) (hp : s.phase = .decoding) {b : Bool} (hc : Completes s (.decBit b) t) : t.Inv := by
  have hv : s.phase.treeValid = true := by simp [hp, Phase.treeValid]
  cases hc with
  | decDropped => exact h
  | decInternal _ n hd hn hk =>
    obtain ⟨hlt, hroot⟩ := h.decTarget_lt hp hd hn
    exact h.withTree ⟨_, _, _, _, _, _, rfl⟩ hv hv ⟨nofun, fun _ _ => ⟨hlt, hroot hk, hk⟩, nofun⟩
  | decEof _ n hd hn hk he =>
    obtain ⟨hlt, -⟩ := h.decTarget_lt hp hd hn
    exact h.withTree ⟨_, _, _, _, _, _, rfl⟩ hv hv ⟨nofun, nofun, fun _ _ => ⟨hlt, hk, he⟩⟩
  | decLiteral _ n hd hn hk he => exact h.withTree ⟨_, _, _, _, _, _, rfl⟩ hv hv ⟨fun _ _ => rfl, nofun, nofun⟩

/-! ### Every command and every step -/

/-- A command that completes keeps the invariant. -/
theorem State.Inv.after_completes (h : s.Inv) {i : Instr} (hp : s.phase ∈ legalPhases i) (hc : Completes s i t) : t.Inv := by
  cases i <;> simp only [legalPhases, List.mem_cons, List.not_mem_nil, or_false] at hp
  case fmCount b => exact h.after_fmCount hp hc
  case fmClose => exact h.after_fmClose hp hc
  case hdrByte b => exact h.after_hdrByte hp hc
  case treeBuild => exact h.after_treeBuild hp hc
  case decBit b => exact h.after_decBit hp hc
  all_goals obtain ⟨⟩ := hc
  case nop => exact h
  case fmClear => exact h.after_modelReset (.inl rfl)
  case hdrBegin => exact h.after_modelReset (.inr rfl)
  case fmQuery sym => exact h.congr
  case lutQuery sym => exact h.congr
  case hdrEmit => exact h.congr
  case encStart => exact h.withTree ⟨_, _, _, _, _, _, rfl⟩ (by simp [hp, Phase.treeValid]) rfl (.of_ne nofun)
  case encSym b => exact h.after_emitCode _
  case encEnd =>
    have he := h.after_emitCode (s.lutAt Config.eofId)
    exact he.withTree ⟨_, _, _, _, _, _, rfl⟩ (by simp [emitCode_eq, hp, Phase.treeValid]) rfl (.of_ne nofun)
  case decStart =>
    exact h.withTree ⟨_, _, _, _, _, _, rfl⟩ (by simp [hp, Phase.treeValid]) rfl ⟨fun _ _ => rfl, nofun, nofun⟩
  case decEnd => exact h.withTree ⟨_, _, _, _, _, _, rfl⟩ (by simp [hp, Phase.treeValid]) rfl (.of_ne nofun)

/-- Every command keeps the invariant, whether it is done, faults or is ignored. -/
theorem State.Inv.after_exec (h : s.Inv) {i : Instr} (he : exec i s = .next t) : t.Inv := by
  rcases exec_next_cases he with ⟨-, rfl⟩ | ⟨-, -, rfl⟩ | ⟨-, -, c, hc, rfl⟩ | ⟨hi, -, -, hp, hr⟩
  · exact State.inv_applyReset h.params
  · exact h
  · exact h.after_fault hc _
  · exact h.after_completes hp (ruleOf_completes hi hr)

theorem State.Inv.after_acceptWord (h : s.Inv) {w : Word} (ha : acceptWord w s = .next t) : t.Inv := by
  rcases acceptWord_next_cases ha with ⟨i, -, he⟩ | ⟨-, ⟨-, rfl⟩ | ⟨-, rfl⟩⟩
  · exact h.after_exec he
  · exact h
  · exact h.after_fault (by decide) _

theorem takeBit_invPart (s : State) : (takeBit s).invPart = s.invPart := by
  unfold takeBit
  split <;> rfl

theorem takeByte_invPart (s : State) : (takeByte s).invPart = s.invPart := by
  unfold takeByte
  split <;> rfl

end

/-- Settles O54: the values are those of State.reset, and a reset makes the invariant true. -/
theorem resetMeetsTheInvariant : Obligations.ResetMeetsTheInvariant := by
  refine ⟨?_, State.inv_applyReset (s := .reset) rfl⟩
  constructor <;> intros <;> rfl

/-- Settles O55, by the cases of a step: a command keeps the invariant, a reset makes it true, and the host's other actions touch
nothing it reads. -/
theorem stepKeepsInv : Obligations.StepKeepsInv := by
  intro s t h hstep
  rcases step_next_cases hstep with ⟨-, rfl⟩ | ⟨w, rest, -, -, rfl⟩ | ⟨w, rest, -, -, ha⟩ | ⟨a, rest, -, rfl⟩
    | ⟨rest, -, rfl⟩ | ⟨rest, -, rfl⟩ | ⟨rest, -, rfl⟩
  · exact h
  · exact h
  · have h' : ({ s with hostIn := rest } : State).Inv := h.congr
    exact h'.after_acceptWord ha
  · exact h.congr
  · exact h.congr (takeBit_invPart _)
  · exact h.congr (takeByte_invPart _)
  · exact State.inv_applyReset h.params

end Sys2Proof.Machine
end

section
/-! PROOF. O51, O52, O53: what a command leaves unchanged, read off the ways it can complete. -/

namespace Sys2Proof.Machine

/-! ### PHASE (R19) -/

theorem emitCode_phase (e : LutEntry) (s : State) : (emitCode e s).phase = s.phase := by
  rw [emitCode_eq]

/-- R163: a clock edge with rst = 1. -/
theorem step_rst {s : State} {rest : List HostEvent} (h : s.hostIn = .rst :: rest) :
    step s = .next ({ s with hostIn := rest } : State).applyReset := by
  simp [step, nextEvent, h, hostStep]

/-- Settles O51, by the ways a command completes: each names the phase it leaves; a fault and an ignored command leave PHASE alone. -/
theorem phaseChangesOnlyAsListed : Obligations.PhaseChangesOnlyAsListed := by
  refine ⟨fun i s t h hne => ?_, fun i s t hf h ht => ?_, fun s t h => ?_, fun s t rest hrst h => ?_,
    fun i s t hf h ht => ?_⟩
  · by_cases hi : i = .softReset
    · subst hi
      obtain rfl : s.applyReset = t := Host.Outcome.next.inj h
      simp
    rcases exec_completes hi h with ⟨-, rfl⟩ | ⟨c, w, rfl⟩ | ⟨hp, hc⟩
    · exact absurd rfl hne
    · exact absurd rfl hne
    · simp only [legalPhases] at hp
      cases hc
      case fmClear => simp
      case hdrBegin => simp
      case treeBuild hP =>
        have hready : s.phase = .modelReady := by
          simp only [List.mem_cons, List.not_mem_nil, or_false] at hp
          exact hp.resolve_right hne.symm
        simp [hready]
      case encSym b hlen => exact absurd (emitCode_phase _ _) hne
      case fmClose | hdrLast | encStart | encEnd | decStart | decEnd => simp_all
      all_goals exact absurd rfl hne
  · by_cases hi : i = .softReset
    · simp [hi]
    rcases exec_completes hi h with ⟨hs, -⟩ | ⟨c, w, rfl⟩ | ⟨-, hc⟩
    · simp [hf] at hs
    · cases ht
    · cases hc
      case hdrCount | hdrInside | hdrRecord =>
        simp
        omega
      all_goals simp
  · obtain rfl : s.applyReset = t := Host.Outcome.next.inj h
    rfl
  · rw [step_rst hrst] at h
    cases h
    rfl
  · rcases exec_next_cases h with ⟨rfl, rfl⟩ | ⟨-, hs, -⟩ | ⟨-, -, c, -, rfl⟩ | ⟨hi, -, -, -, hr⟩
    · cases ht
    · simp [hf] at hs
    · rfl
    · simp [ruleOf_done_faulted hi hr, hf] at ht

/-! ### Registers, memories and streams (R18, R20 to R22, R24, R25, R28 to R32, R35) -/

/-- Settles O52: each way to complete writes only the fields that its command is named for. -/
theorem onlyTheNamedCommandsWrite : Obligations.OnlyTheNamedCommandsWrite := by
  intro i s t h hi
  rcases exec_completes hi h with ⟨-, rfl⟩ | ⟨c, w, rfl⟩ | ⟨-, hc⟩
  · simp
  · simp
  · cases hc <;> simp [emitCode_eq, State.addSym]

/-- Settles O53: each way to complete appends to at most one stream. -/
theorem streamsAreAppendOnly : Obligations.StreamsAreAppendOnly := by
  intro i s t h hi
  rcases exec_completes hi h with ⟨-, rfl⟩ | ⟨c, w, rfl⟩ | ⟨-, hc⟩
  · simp
  · simp
  · cases hc <;> simp [emitCode_eq, State.addSym]

end Sys2Proof.Machine
end

section
/-! PROOF. O10 to O13: the register read port and the output levels. -/

namespace Sys2Proof.Machine

/-! ### Reading while BUSY = 0 and while BUSY = 1 -/

theorem State.portRead_of_idle {s : State} (h : s.busy = false) (a : Byte) : s.portRead a = s.regRead a := by
  simp [State.portRead, h]

theorem State.portRead_of_busy {s : State} (h : s.busy = true) (a : Byte) : s.portRead a = s.busyRead a := by
  simp [State.portRead, h]

/-- R41: a read depends on the address only through its word slot. -/
theorem State.portRead_congr (s : State) {a a' : Byte} (h : a.toNat / 4 = a'.toNat / 4) : s.portRead a = s.portRead a' := by
  simp only [State.portRead, State.busyRead, State.regRead, h]

/-- R41: there is no register from 0x60 on. -/
theorem State.portRead_above (s : State) {a : Byte} (h : 0x60 ≤ a.toNat) : s.portRead a = 0#32 := by
  have hslot : 24 ≤ a.toNat / 4 := by omega
  cases hb : s.busy with
  | false =>
    obtain ⟨k, hk⟩ := Nat.exists_eq_add_of_le' hslot
    rw [s.portRead_of_idle hb]
    unfold State.regRead
    rw [hk]
    rfl
  | true =>
    rw [s.portRead_of_busy hb]
    exact if_pos hslot

/-! ### STATUS (R39) -/

theorem State.status_busy (s : State) : s.status.getLsbD 4 = s.busy := by
  refine BitVec.getLsbD_append.trans ?_
  simp only [BitVec.getLsbD_append]
  simp

theorem State.status_faulted (s : State) : s.status.getLsbD 5 = s.faulted := by
  refine BitVec.getLsbD_append.trans ?_
  simp only [BitVec.getLsbD_append]
  simp

theorem State.status_rootIsLeaf (s : State) : s.status.getLsbD 16 = s.rootIsLeaf := by
  refine BitVec.getLsbD_append.trans ?_
  simp only [BitVec.getLsbD_append]
  simp

/-- R39, R172: STATUS[4] reads BUSY at any time. -/
theorem State.portRead_status_busy (s : State) : (s.portRead 0x00#8).getLsbD 4 = s.busy := by
  cases hb : s.busy with
  | false =>
    rw [s.portRead_of_idle hb]
    exact s.status_busy.trans hb
  | true =>
    rw [s.portRead_of_busy hb]
    simp [State.busyRead]

/-- R43: the phases in which the tree is valid. -/
theorem Phase.treeValid_iff (p : Phase) : p.treeValid = true ↔ p = .treeReady ∨ p = .encoding ∨ p = .decoding := by
  cases p <;> decide

/-- Settles O10, register by register. -/
theorem registerMap : Obligations.RegisterMap := by
  intro s hb
  simp only [s.portRead_of_idle hb]
  refine ⟨?_, rfl, rfl, rfl, rfl, rfl, rfl, rfl, rfl, ?_, ?_, rfl, rfl, rfl, rfl, fun a ha => ?_⟩
  · rw [show s.regRead 0x00#8 = s.status from rfl]
    unfold State.status
    rw [hb]
    rfl
  · exact BitVec.extractLsb'_append_extractLsb' (w := 32)
  · exact BitVec.extractLsb'_append_extractLsb' (w := 32)
  · rw [← s.portRead_of_idle hb]
    exact s.portRead_above ha

/-- Settles O11: clearing bits [1:0] keeps the word slot. -/
theorem readAddressIsWordAligned : Obligations.ReadAddressIsWordAligned := by
  intro s a
  have hslot : ∀ a : Byte, a.toNat / 4 = (a &&& 0xFC#8).toNat / 4 := by decide
  exact ⟨s.portRead_congr (hslot a), s.portRead_above⟩

/-- Settles O12. -/
theorem statusShowsBusy : Obligations.StatusShowsBusy := by
  refine fun s => ⟨s.portRead_status_busy, rfl, fun ⟨rest, hrst⟩ => ?_, fun hne => ?_⟩
  · have hin : s.rstIn = true := by rw [State.rstIn_cons hrst]; rfl
    simp [State.cmdReady, State.boutValid, State.youtValid, hin]
  · have hin : s.rstIn = false := by
      cases hh : s.hostIn with
      | nil => simp [State.rstIn, hh]
      | cons e rest =>
        rw [State.rstIn_cons hh]
        exact decide_eq_false fun he => hne rest (he ▸ hh)
    simp [State.cmdReady, State.boutValid, State.youtValid, hin]

/-- Settles O13. -/
theorem rootIsLeafFlag : Obligations.RootIsLeafFlag := by
  intro s hb
  rw [s.portRead_of_idle hb, show s.regRead 0x00#8 = s.status from rfl, s.status_rootIsLeaf]
  refine ⟨s.status_busy, s.status_faulted, ?_⟩
  rw [State.rootIsLeaf, Bool.and_eq_true, Phase.treeValid_iff, decide_eq_true_iff]

end Sys2Proof.Machine
end

section
/-! PROOF. O8 and O57: what each host action comes to, and where a command stops on an entry that is not there. -/

namespace Sys2Proof.Machine

/-! ### The host's actions (R41, R44, R56, R77) -/

section
variable {s : State} {rest : List HostEvent}

theorem step_cons {e : HostEvent} (h : s.hostIn = e :: rest) : step s = hostStep e s { s with hostIn := rest } := by
  simp only [step, nextEvent, h]

/-- R77: a word presented while BUSY = 0 is accepted. -/
theorem step_command {w : Word} (h : s.hostIn = .command w :: rest) (hb : s.busy = false) :
    step s = acceptWord w { s with hostIn := rest } := by
  rw [step_cons h]
  exact if_pos (by rw [State.cmdReady_command h, hb]; rfl)

theorem step_readReg {a : Byte} (h : s.hostIn = .readReg a :: rest) :
    step s = .next (readRegister a { s with hostIn := rest }) := step_cons h

theorem step_takeBit (h : s.hostIn = .takeBit :: rest) : step s = .next (takeBit { s with hostIn := rest }) :=
  (step_cons h).trans (congrArg _ (takeBit_valid h))

theorem step_takeByte (h : s.hostIn = .takeByte :: rest) : step s = .next (takeByte { s with hostIn := rest }) :=
  (step_cons h).trans (congrArg _ (takeByte_valid h))

end

theorem takeBit_nil {s : State} (h : s.bout = []) : takeBit s = s := by
  simp only [takeBit, h]

theorem takeBit_cons {s : State} {b : Bool} {bs : List Bool} (h : s.bout = b :: bs) :
    takeBit s = { s with bout := bs, takenBits := s.takenBits ++ [b] } := by
  simp only [takeBit, h]

theorem takeByte_nil {s : State} (h : s.yout = []) : takeByte s = s := by
  simp only [takeByte, h]

theorem takeByte_cons {s : State} {b : Byte} {bs : List Byte} (h : s.yout = b :: bs) :
    takeByte s = { s with yout := bs, takenBytes := s.takenBytes ++ [b] } := by
  simp only [takeByte, h]

/-- R172: a read made while BUSY = 0 draws no free value. -/
theorem readRegister_of_idle {s : State} (h : s.busy = false) (a : Byte) :
    readRegister a s = { s with regReads := s.regReads ++ [(a, s.portRead a)] } := by
  simp [readRegister, h]

/-- The read port does not depend on what the host has yet to do. -/
theorem State.portRead_hostIn (s : State) (rest : List HostEvent) (a : Byte) :
    ({ s with hostIn := rest } : State).portRead a = s.portRead a := rfl

/-- Settles O8, action by action. -/
theorem hostActionsTouchNothingElse : Obligations.HostActionsTouchNothingElse := by
  intro s rest
  refine ⟨fun b bs h hs => ?_, fun b bs h hs => ?_, fun a h hb => ?_, fun w h hb => step_command h hb,
    fun h hs => ?_, fun h hs => ?_⟩
  · exact (step_takeBit h).trans (congrArg _ (takeBit_cons hs))
  · exact (step_takeByte h).trans (congrArg _ (takeByte_cons hs))
  · rw [← s.portRead_hostIn rest]
    exact (step_readReg h).trans (congrArg _ (readRegister_of_idle (s := { s with hostIn := rest }) hb a))
  · exact (step_takeBit h).trans (congrArg _ (takeBit_nil hs))
  · exact (step_takeByte h).trans (congrArg _ (takeByte_nil hs))

/-! ### Where a rule stops (R46, R91, R119, log entry 7) -/

theorem exec_stop {i : Instr} {s : State} {f : Fault} (hi : i ≠ .softReset) (hf : s.faulted = false) (hw : i.wf = true)
    (hp : s.phase ∈ legalPhases i) (hr : ruleOf i s = .stop f) : exec i s = .fault f := by
  rw [exec_eq_perform hi]
  exact perform_stop hf hw hp hr

theorem presentSyms_eq_nil {freq : Memory Word} (h : ∀ i, i ≤ 256 → Memory.read 0#32 freq i = 0#32) :
    presentSyms freq = [] :=
  List.eq_nil_iff_forall_not_mem.2 fun x hx => by
    obtain ⟨hlt, hne⟩ := mem_presentSyms.1 hx
    exact hne (h x (Nat.le_of_lt_succ hlt))

section
variable {s : State} {b : Bool}

theorem decTarget_root_error (hr : Config.maxNodes ≤ s.root.toNat) :
    decTarget b s = .error (.nodeIndexOutOfRange s.root.toNat) := by
  simp only [decTarget, nodeChecked_error hr]

theorem decTarget_decNode_error (hr : s.root.toNat < Config.maxNodes) (hk : (s.nodeAt s.root.toNat).kind = .internal)
    (hd : Config.maxNodes ≤ s.decNode.toNat) : decTarget b s = .error (.nodeIndexOutOfRange s.decNode.toNat) := by
  simp only [decTarget, nodeChecked_ok hr, hk, nodeChecked_error hd]

/-- R119: below an internal root a bit names a child of DEC_NODE. -/
theorem decTarget_child (hr : s.root.toNat < Config.maxNodes) (hk : (s.nodeAt s.root.toNat).kind = .internal)
    (hd : s.decNode.toNat < Config.maxNodes) :
    decTarget b s = .ok (if b then (s.nodeAt s.decNode.toNat).r else (s.nodeAt s.decNode.toNat).l) := by
  simp only [decTarget, nodeChecked_ok hr, hk, nodeChecked_ok hd]

theorem decBitRule_stop_of_target {f : Fault} (hd : s.dstate ≠ .done) (ht : decTarget b s = .error f) :
    decBitRule b s = .stop f := by
  simp only [decBitRule, if_neg hd, ht]

theorem decBitRule_stop_of_landing {n : NodeIdx} (hd : s.dstate ≠ .done) (ht : decTarget b s = .ok n)
    (hn : Config.maxNodes ≤ n.toNat) : decBitRule b s = .stop (.nodeIndexOutOfRange n.toNat) := by
  simp only [decBitRule, if_neg hd, ht, nodeChecked_error hn]

theorem exec_decBit_stop {f : Fault} (hf : s.faulted = false) (hp : s.phase = .decoding) (hr : decBitRule b s = .stop f) :
    exec (.decBit b) s = .fault f :=
  exec_stop nofun hf rfl (by simp [hp, legalPhases]) hr

end

/-- Settles O57: TREE_BUILD stops with an empty queue, and DEC_BIT at the first of the root, DEC_NODE and the child that is read
above index 512. -/
theorem whereTheModelStops : Obligations.WhereTheModelStops := by
  refine fun s hf => ⟨fun hp h0 => ?_, fun hp hd hr b => ?_, fun hp hd hr hk hn b => ?_, fun hp hd hr hk hn hc => ?_,
    fun hp hd hr hk hn hc => ?_⟩
  · exact exec_stop nofun hf rfl (by simpa [legalPhases] using hp) (treeBuildRule_stop (presentSyms_eq_nil h0))
  · exact exec_decBit_stop hf hp (decBitRule_stop_of_target hd (decTarget_root_error hr))
  · exact exec_decBit_stop hf hp (decBitRule_stop_of_target hd (decTarget_decNode_error hr hk hn))
  · exact exec_decBit_stop hf hp (decBitRule_stop_of_landing hd (decTarget_child hr hk hn) hc)
  · exact exec_decBit_stop hf hp (decBitRule_stop_of_landing hd (decTarget_child hr hk hn) hc)

end Sys2Proof.Machine
end

section
/-! PROOF. O1, O2, O4: the decoder and the encoder undo each other on well-formed commands and on the words that are accepted. -/

namespace Sys2Proof

/-! ### The tables of R64 to R69, by format -/

/-- R64 to R67: how many bits above OPC the operand of a format takes. -/
def Format.operandWidth : Format → Nat
  | .n => 0
  | .b => 8
  | .s => 9
  | .t => 1

/-- R69: the opcodes of each format. -/
def Format.opcodes : Format → List Byte
  | .n => [0x00#8, 0x01#8, 0x03#8, 0x08#8, 0x0A#8, 0x10#8, 0x18#8, 0x1A#8, 0x20#8, 0x22#8, 0xFF#8]
  | .b => [0x02#8, 0x09#8, 0x19#8]
  | .s => [0x04#8, 0x11#8]
  | .t => [0x21#8]

/-- The reserved bits of a format are all those above its operand. -/
theorem Format.getLsbD_reserved (f : Format) : ∀ k, k < 32 → f.reserved.getLsbD k = decide (8 + f.operandWidth ≤ k) := by
  cases f <;> decide

theorem Instr.opcode_mem_opcodes (i : Instr) : i.opcode ∈ i.format.opcodes := by
  cases i <;> simp [Instr.opcode, Instr.format, Format.opcodes]

/-- R69: no opcode is in two formats. -/
theorem Format.eq_of_mem_opcodes {f g : Format} : ∀ op ∈ f.opcodes, op ∈ g.opcodes → f = g := by
  cases f <;> cases g <;> decide

theorem Instr.format_eq_of_opcode {i : Instr} {f : Format} (h : i.opcode ∈ f.opcodes) : i.format = f :=
  Format.eq_of_mem_opcodes _ i.opcode_mem_opcodes h

/-- R69: the opcode of every command is in the opcode map. -/
theorem Instr.opcode_assigned (i : Instr) :
    i.opcode ∈ [0x00#8, 0x01#8, 0x02#8, 0x03#8, 0x04#8, 0x08#8, 0x09#8, 0x0A#8, 0x10#8, 0x11#8, 0x18#8, 0x19#8, 0x1A#8,
      0x20#8, 0x21#8, 0x22#8, 0xFF#8] := by
  cases i <;> simp [Instr.opcode]

/-! ### The operand bits of a word -/

/-- An operand is read back from the word it is put in. -/
theorem extractLsb'_operand {n : Nat} (hn : n ≤ 24) (x : BitVec n) (op : Byte) :
    (x.setWidth 24 ++ op : Word).extractLsb' 8 n = x := by
  apply BitVec.eq_of_getLsbD_eq
  intro k hk
  rw [BitVec.getLsbD_extractLsb', show (x.setWidth 24 ++ op : Word).getLsbD (8 + k) = _ from BitVec.getLsbD_append]
  simp [hk, show k < 24 by omega]

/-- Where no reserved bit of the format is set, the bits above OPC are the operand and zeros. -/
theorem setWidth_operand {w : Word} {f : Format} (h : w &&& f.reserved = 0#32) :
    (w.extractLsb' 8 f.operandWidth).setWidth 24 = w.extractLsb' 8 24 := by
  apply BitVec.eq_of_getLsbD_eq
  intro k hk
  have hbit := congrArg (·.getLsbD (8 + k)) h
  simp only [BitVec.getLsbD_and, f.getLsbD_reserved (8 + k) (by omega), BitVec.getLsbD_zero] at hbit
  simp only [BitVec.getLsbD_setWidth, BitVec.getLsbD_extractLsb', hk, decide_true, Bool.true_and]
  by_cases hlt : k < f.operandWidth
  · simp [hlt]
  · simpa [hlt, show f.operandWidth ≤ k by omega] using hbit

/-- R68: BIT is the one bit above OPC. -/
theorem ofBool_bitField (w : Word) : BitVec.ofBool (bitField w) = w.extractLsb' 8 1 := by
  apply BitVec.eq_of_getLsbD_eq
  intro k hk
  obtain rfl : k = 0 := by omega
  simp [bitField]

/-- A word is its bits above OPC and its OPC. -/
theorem word_eq_append (w : Word) : w = w.extractLsb' 8 24 ++ opcField w :=
  (BitVec.extractLsb'_append_extractLsb' (w := 24) (len := 8)).symm

/-! ### What the decoder answers -/

/-- The fields of a command's word (R63 to R68). -/
theorem encodedFields : ∀ i : Instr, Laws.EncodedFields.Statement i
  | .nop => Laws.EncodedFields.nop
  | .fmClear => Laws.EncodedFields.fmClear
  | .fmCount b => Laws.EncodedFields.fmCount b
  | .fmClose => Laws.EncodedFields.fmClose
  | .fmQuery sym => Laws.EncodedFields.fmQuery sym
  | .hdrBegin => Laws.EncodedFields.hdrBegin
  | .hdrByte b => Laws.EncodedFields.hdrByte b
  | .hdrEmit => Laws.EncodedFields.hdrEmit
  | .treeBuild => Laws.EncodedFields.treeBuild
  | .lutQuery sym => Laws.EncodedFields.lutQuery sym
  | .encStart => Laws.EncodedFields.encStart
  | .encSym b => Laws.EncodedFields.encSym b
  | .encEnd => Laws.EncodedFields.encEnd
  | .decStart => Laws.EncodedFields.decStart
  | .decBit t => Laws.EncodedFields.decBit t
  | .decEnd => Laws.EncodedFields.decEnd
  | .softReset => Laws.EncodedFields.softReset

/-- R70 to R73: the decoder accepts a word with an assigned opcode, no reserved bit set and a symbol in range. -/
theorem decode_eq_ok_iff {w : Word} {i : Instr} :
    decode w = .ok i ↔ opcodeInstr w = some i ∧ w &&& i.format.reserved = 0#32 ∧ i.wf = true := by
  unfold decode
  cases opcodeInstr w with
  | none => simp
  | some j =>
    constructor
    · dsimp only
      intro h
      split_ifs at h with hr hw
      cases h
      exact ⟨rfl, not_not.1 hr, hw⟩
    · rintro ⟨hj, hr, hw⟩
      cases hj
      simp [hr, hw]

/-- R68, R69: the opcode of a command's word names the command, and its fields give back the operand. -/
theorem opcodeInstr_encode (i : Instr) : opcodeInstr (encode i) = some i := by
  obtain ⟨hop, -, -⟩ := encodedFields i
  unfold opcodeInstr
  rw [hop]
  cases i
  case fmCount b => exact congrArg (some ∘ Instr.fmCount) (extractLsb'_operand (by decide) b _)
  case fmQuery sym => exact congrArg (some ∘ Instr.fmQuery) (extractLsb'_operand (by decide) sym _)
  case hdrByte b => exact congrArg (some ∘ Instr.hdrByte) (extractLsb'_operand (by decide) b _)
  case lutQuery sym => exact congrArg (some ∘ Instr.lutQuery) (extractLsb'_operand (by decide) sym _)
  case encSym b => exact congrArg (some ∘ Instr.encSym) (extractLsb'_operand (by decide) b _)
  case decBit t => cases t <;> rfl
  all_goals rfl

/-- R68, R69: the command a word names has the word's opcode and, as its operand, the bits its format reads. -/
theorem opcodeInstr_some {w : Word} {i : Instr} (h : opcodeInstr w = some i) :
    opcField w = i.opcode ∧ i.operand = (w.extractLsb' 8 i.format.operandWidth).setWidth 24 := by
  unfold opcodeInstr at h
  split at h <;> cases h
  all_goals
    next hop =>
    refine ⟨BitVec.eq_of_toNat_eq hop, ?_⟩
    simp [Instr.operand, Instr.format, Format.operandWidth, byteField, symField, ofBool_bitField]

/-- R73: a word that is accepted is the word of the command. -/
theorem encode_of_decode {w : Word} {i : Instr} (h : decode w = .ok i) : encode i = w := by
  obtain ⟨hi, hres, -⟩ := decode_eq_ok_iff.1 h
  obtain ⟨hop, harg⟩ := opcodeInstr_some hi
  calc encode i = w.extractLsb' 8 24 ++ opcField w := by rw [encode, harg, setWidth_operand hres, hop]
    _ = w := (word_eq_append w).symm

theorem decode_encode {i : Instr} (h : i.wf = true) : decode (encode i) = .ok i := by
  obtain ⟨-, -, hres⟩ := encodedFields i
  exact decode_eq_ok_iff.2 ⟨opcodeInstr_encode i, hres, h⟩

theorem wf_of_decode {w : Word} {i : Instr} (h : decode w = .ok i) : i.wf = true := by
  obtain ⟨-, -, hwf⟩ := decode_eq_ok_iff.1 h
  exact hwf

/-- R72: SYM of an accepted word names a symbol. -/
theorem symField_of_decode {w : Word} {i : Instr} (h : decode w = .ok i) (hs : i.format = .s) :
    (symField w).toNat ≤ Config.eofId := by
  have hw := wf_of_decode h
  rw [← encode_of_decode h]
  cases i <;> cases hs
  case fmQuery sym => simpa [Instr.wf, symField, encode, Instr.operand, extractLsb'_operand] using hw
  case lutQuery sym => simpa [Instr.wf, symField, encode, Instr.operand, extractLsb'_operand] using hw

/-- Settles O1: the opcode of the word names the command, its fields hold the operand, and its reserved bits are clear. -/
theorem decodeInvertsEncode : Obligations.DecodeInvertsEncode :=
  fun _ => decode_encode

/-- Settles O2: an accepted word has the command's opcode, its operand, and nothing else. -/
theorem acceptedWordIsItsEncoding : Obligations.AcceptedWordIsItsEncoding :=
  fun _ _ h => ⟨wf_of_decode h, encode_of_decode h⟩

/-- Settles O4: each word is the encoding of its command. -/
theorem sampleWordsDecode : Obligations.SampleWordsDecode :=
  ⟨decode_encode (i := .nop) rfl, decode_encode (i := .fmCount 0x61#8) rfl, decode_encode (i := .fmQuery 256#9) rfl,
    decode_encode (i := .hdrByte 0xFF#8) rfl, decode_encode (i := .treeBuild) rfl, decode_encode (i := .lutQuery 0x63#9) rfl,
    decode_encode (i := .encSym 0xFF#8) rfl, decode_encode (i := .decBit true) rfl, decode_encode (i := .softReset) rfl⟩

end Sys2Proof
end

section
/-! PROOF. O3, O5, O48: what the dispatch of R74 answers to a word that is no command, to one that is, and to a command that is not
legal in the phase. -/

namespace Sys2Proof.Machine

/-! ### Words (R70 to R74) -/

/-- R70 to R72: a word that names no command raises ILLEGAL_CMD. -/
theorem acceptWord_rejected {w : Word} {s : State} (h : ∀ i, decode w ≠ .ok i) (hf : s.faulted = false) :
    acceptWord w s = .next (s.enterFault .illegalCmd w) := by
  unfold acceptWord
  split
  next i hi => exact absurd hi (h i)
  next => simp [hf]

theorem acceptWord_decoded {w : Word} {i : Instr} (h : decode w = .ok i) (s : State) : acceptWord w s = exec i s := by
  simp only [acceptWord, h]

/-- Settles O3: what a word that is accepted would have to hold excludes each of the reasons. -/
theorem illegalWordsRaiseIllegalCmd : Obligations.IllegalWordsRaiseIllegalCmd := by
  refine fun w s hf hbad => acceptWord_rejected (fun i h => ?_) hf
  obtain ⟨hi, hres, -⟩ := decode_eq_ok_iff.1 h
  have hop : w.extractLsb' 0 8 = i.opcode := (opcodeInstr_some hi).1
  have clear {f : Format} (hmem : i.opcode ∈ f.opcodes) : w &&& f.reserved = 0#32 :=
    Instr.format_eq_of_opcode hmem ▸ hres
  rw [hop] at hbad
  rcases hbad with hmap | ⟨hn, hbit⟩ | ⟨hb, hbit⟩ | ⟨hs, hbit | hsym⟩ | ⟨ht, hbit⟩
  · exact hmap i.opcode_assigned
  · exact hbit (clear (f := .n) hn)
  · exact hbit (clear (f := .b) hb)
  · exact hbit (clear (f := .s) hs)
  · exact Nat.not_lt.2 (symField_of_decode h (Instr.format_eq_of_opcode (f := .s) hs)) hsym
  · exact hbit (clear (f := .t) (List.mem_singleton.2 ht))

/-- Settles O5: the word is accepted, and an accepted word runs what it decodes to. -/
theorem stepRunsTheDecodedCommand : Obligations.StepRunsTheDecodedCommand :=
  fun _ _ _ _ hb hin hdec => (step_command hin hb).trans (acceptWord_decoded hdec _)

/-! ### Phases (R75, R76) -/

/-- R75: the fault of a command that is not legal in the phase. -/
theorem exec_illegal {i : Instr} {s : State} (hi : i ≠ .softReset) (hf : s.faulted = false) (hw : i.wf = true)
    (hp : s.phase ∉ legalPhases i) : exec i s = .next (s.enterFault (phaseCause i s) (encode i)) := by
  rw [exec_eq_perform hi]
  exact perform_illegal hf hw hp

theorem phaseCause_of_ne {i : Instr} (h : i ≠ .treeBuild) (s : State) : phaseCause i s = .seqError :=
  if_neg fun hi => h hi.1

/-- R75: SEQ_ERROR is the fault of a command other than TREE_BUILD. -/
theorem exec_seqError {i : Instr} {s : State} (hi : i ≠ .softReset ∧ i ≠ .treeBuild) (hf : s.faulted = false)
    (hw : i.wf = true) (hp : s.phase ∉ legalPhases i) : exec i s = .next (s.enterFault .seqError (encode i)) := by
  rw [exec_illegal hi.1 hf hw hp, phaseCause_of_ne hi.2]

theorem exec_treeBuild_illegal {s : State} (hf : s.faulted = false) (hp : s.phase ∉ legalPhases .treeBuild) :
    exec .treeBuild s = .next (s.enterFault (if s.numSyms = 0#9 then .emptyModel else .seqError) (encode .treeBuild)) := by
  rw [exec_illegal (i := .treeBuild) nofun hf rfl hp]
  simp [phaseCause]

/-- R74: SEQ_ERROR and EMPTY_MODEL come from the phase check alone; the operand check and a command's own rule have other
faults. -/
theorem not_legal_of_seqError {i : Instr} {s t : State} (hf : s.faulted = false) (h : exec i s = .next t)
    (ht : t.faulted = true) (hc : t.faultCause = .seqError ∨ t.faultCause = .emptyModel) :
    i ≠ .softReset ∧ s.phase ∉ legalPhases i := by
  have hi : i ≠ .softReset := by
    rintro rfl
    cases h
    cases ht
  rw [exec_eq_perform hi] at h
  rcases perform_cases h with ⟨hs, -⟩ | ⟨-, -, hn⟩ | ⟨-, -, hp, -⟩ | ⟨-, -, -, hr⟩
  · simp [hf] at hs
  · cases hn
    simp at hc
  · exact ⟨hi, hp⟩
  · rcases hr with ⟨u, hu, hn⟩ | ⟨c, hraise, hn⟩ | ⟨f, -, hn⟩
    · cases hn
      simp [ruleOf_done_faulted hi hu, hf] at ht
    · cases hn
      have hown := ruleOf_raise_own hraise
      rcases hc with rfl | rfl <;> simp at hown
    · cases hn

/-- Settles O48, cell by cell of R75. -/
theorem outOfPhaseCommandsFault : Obligations.OutOfPhaseCommandsFault := by
  intro s hf
  refine ⟨fun hp => ?_, fun hp b => ?_, fun h1 h2 => ?_, fun h1 h2 h3 sym hsym => ?_, fun hp => ?_, fun hp => ?_, fun hp => ?_,
    fun i t h ht hc => ?_⟩
  · have hp : s.phase ∉ [Phase.counting] := by simpa using hp
    exact ⟨fun b => exec_seqError ⟨nofun, nofun⟩ hf rfl hp, exec_seqError ⟨nofun, nofun⟩ hf rfl hp⟩
  · exact exec_seqError ⟨nofun, nofun⟩ hf rfl (by simpa [legalPhases] using hp)
  · have hp : s.phase ∉ [Phase.modelReady, .treeReady] := by simp [h1, h2]
    exact ⟨exec_seqError ⟨nofun, nofun⟩ hf rfl hp, exec_treeBuild_illegal hf hp⟩
  · exact exec_seqError ⟨nofun, nofun⟩ hf (by simpa [Instr.wf] using hsym) (by simp [legalPhases, h1, h2, h3])
  · have hp : s.phase ∉ [Phase.treeReady] := by simpa using hp
    exact ⟨exec_seqError ⟨nofun, nofun⟩ hf rfl hp, exec_seqError ⟨nofun, nofun⟩ hf rfl hp⟩
  · have hp : s.phase ∉ [Phase.encoding] := by simpa using hp
    exact ⟨fun b => exec_seqError ⟨nofun, nofun⟩ hf rfl hp, exec_seqError ⟨nofun, nofun⟩ hf rfl hp⟩
  · have hp : s.phase ∉ [Phase.decoding] := by simpa using hp
    exact ⟨fun b => exec_seqError ⟨nofun, nofun⟩ hf rfl hp, exec_seqError ⟨nofun, nofun⟩ hf rfl hp⟩
  · obtain ⟨hi, hp⟩ := not_legal_of_seqError hf h ht hc
    cases i
    case softReset => exact absurd rfl hi
    case nop | fmClear | fmQuery | hdrBegin => exact absurd (mem_allPhases _) hp
    all_goals simpa [legalPhases] using hp

end Sys2Proof.Machine
end

section
/-! PROOF. O56: in a state that meets the invariant no rule stops, so every command and every step has a next state. -/

namespace Sys2Proof.Machine

/-! ### Rules that stop (R46, R91, R119) -/

theorem processRecord_ne_stop {v c : Word} {j : Nat} {s : State} {f : Fault} : processRecord v c j s ≠ .stop f := by
  unfold processRecord
  split
  · exact nofun
  · dsimp only
    split_ifs <;> exact nofun

theorem hdrByteRule_ne_stop {b : Byte} {s : State} {f : Fault} : hdrByteRule b s ≠ .stop f := by
  simp only [hdrByteRule]
  split_ifs
  · exact nofun
  · exact nofun
  · exact processRecord_ne_stop
  · exact nofun

/-- R46, R91: only TREE_BUILD and DEC_BIT read an entry that may not be there. -/
theorem ruleOf_stop {i : Instr} {s : State} {f : Fault} (h : ruleOf i s = .stop f) : i = .treeBuild ∨ ∃ b, i = .decBit b := by
  cases i
  case treeBuild => exact .inl rfl
  case decBit b => exact .inr ⟨b, rfl⟩
  case hdrByte b => exact absurd h hdrByteRule_ne_stop
  case fmCount b =>
    simp only [ruleOf, fmCountRule] at h
    split at h <;> cases h
  case encSym b =>
    simp only [ruleOf, encSymRule] at h
    split at h <;> cases h
  case decEnd =>
    simp only [ruleOf, decEndRule] at h
    split at h <;> cases h
  all_goals cases h

section
variable {s : State}

/-- R91: where TREE_BUILD is legal, EOF is present, and the queue has an element to be the root. -/
theorem State.Inv.treeBuildRule_ne_stop (h : s.Inv) (hp : s.phase = .modelReady ∨ s.phase = .treeReady) (f : Fault) :
    treeBuildRule s ≠ .stop f := by
  have heof := h.model.closed (hp.imp_right fun hp => by simp [hp, Phase.treeValid])
  rw [treeBuildRule_done (presentSyms_ne_nil (by decide) heof)]
  exact nofun

/-- R46: every entry of a valid tree is an index of the arena. -/
theorem State.Inv.lt_maxNodes (h : s.Inv) (hv : s.phase.treeValid = true) {n : NodeIdx} (hn : n < s.nodeCount) :
    n.toNat < Config.maxNodes := by
  obtain ⟨u, hu, -, -, hcount⟩ := h.built hv
  have hle := hu.n_le
  rw [BitVec.lt_def] at hn
  omega

/-- R91: ROOT is an entry of a valid tree. -/
theorem State.Inv.root_lt (h : s.Inv) (hv : s.phase.treeValid = true) : s.root < s.nodeCount := by
  obtain ⟨u, hu, hroot, -, hcount⟩ := h.built hv
  have hlast := hu.root
  rw [BitVec.lt_def, hroot]
  omega

/-- R120: where the root is a leaf, every bit leads to it. -/
theorem decTarget_leaf {b : Bool} (hr : s.root.toNat < Config.maxNodes) (hk : (s.nodeAt s.root.toNat).kind = .leaf) :
    decTarget b s = .ok s.root := by
  simp only [decTarget, nodeChecked_ok hr, hk]

/-- R119, R120: a bit leads to an entry. -/
theorem State.Inv.decTarget_exists (h : s.Inv) (hp : s.phase = .decoding) (hd : s.dstate ≠ .done) (b : Bool) :
    ∃ n, decTarget b s = .ok n := by
  have hv : s.phase.treeValid = true := by rw [hp]; rfl
  have hr := h.lt_maxNodes hv (h.root_lt hv)
  cases hk : (s.nodeAt s.root.toNat).kind with
  | leaf => exact ⟨s.root, decTarget_leaf hr hk⟩
  | internal =>
    obtain ⟨hlt, -⟩ := h.decNode_internal hp hd hk
    exact ⟨_, decTarget_child hr hk (h.lt_maxNodes hv (BitVec.lt_def.2 hlt))⟩

/-- R46: DEC_BIT reads entries of the tree only. -/
theorem State.Inv.decBitRule_ne_stop (h : s.Inv) (hp : s.phase = .decoding) (b : Bool) (f : Fault) :
    decBitRule b s ≠ .stop f := by
  by_cases hd : s.dstate = .done
  · simp [decBitRule, hd]
  · obtain ⟨n, hn⟩ := h.decTarget_exists hp hd b
    have hlt := h.lt_maxNodes (by rw [hp]; rfl) (h.decTarget_lt hp hd hn).1
    simp [decBitRule, hd, hn, nodeChecked_ok hlt]

/-! ### Every command and every step -/

theorem State.Inv.exec_answers (h : s.Inv) (i : Instr) : ∃ t, exec i s = .next t := by
  cases he : exec i s with
  | next t => exact ⟨t, rfl⟩
  | refused r => exact absurd he (exec_not_refused i s r)
  | fault f =>
    obtain ⟨-, -, hp, hstop⟩ := exec_stop_cases he
    rcases ruleOf_stop hstop with rfl | ⟨b, rfl⟩
    · exact absurd hstop (h.treeBuildRule_ne_stop (by simpa [legalPhases] using hp) f)
    · exact absurd hstop (h.decBitRule_ne_stop (by simpa [legalPhases] using hp) b f)

theorem State.Inv.acceptWord_answers (h : s.Inv) (w : Word) : ∃ t, acceptWord w s = .next t := by
  cases hd : decode w with
  | ok i =>
    rw [acceptWord_decoded hd]
    exact h.exec_answers i
  | error e =>
    simp only [acceptWord, hd]
    split <;> exact ⟨_, rfl⟩

end

/-- Settles O56, by the host's next action: a word is the only one that runs a rule. -/
theorem everyStepAnswersNext : Obligations.EveryStepAnswersNext := by
  intro s h
  cases hin : s.hostIn with
  | nil => exact ⟨s, by simp only [step, nextEvent, hin]⟩
  | cons e rest =>
    rw [step_cons hin]
    cases e with
    | command w =>
      have h' : ({ s with hostIn := rest } : State).Inv := h.congr
      unfold hostStep
      dsimp only
      split
      · exact h'.acceptWord_answers w
      · exact ⟨s, rfl⟩
    | readReg a => exact ⟨_, rfl⟩
    | takeBit => exact ⟨_, rfl⟩
    | takeByte => exact ⟨_, rfl⟩
    | rst => exact ⟨_, rfl⟩

end Sys2Proof.Machine
end

section
/-! PROOF. O16 to O19: what each command of the frequency counter does, and the words of its operands. -/

namespace Sys2Proof.Machine

/-! ### Words (R65, R66) -/

/-- R65: the word of a command with a byte operand. -/
theorem word_of_byte (b op : Byte) : (b.setWidth 24 ++ op : Word) = 0#16 ++ b ++ op :=
  congrArg (· ++ op) (BitVec.setWidth_eq_append (by decide))

/-- R66: the word of a command with a symbol operand. -/
theorem word_of_sym (sym : SymId) (op : Byte) : (sym.setWidth 24 ++ op : Word) = 0#15 ++ sym ++ op :=
  congrArg (· ++ op) (BitVec.setWidth_eq_append (by decide))

theorem encode_fmCount (b : Byte) : encode (.fmCount b) = 0#16 ++ b ++ 0x02#8 := word_of_byte b _

theorem encode_fmQuery (sym : SymId) : encode (.fmQuery sym) = 0#15 ++ sym ++ 0x04#8 := word_of_sym sym _

/-! ### Opening the model (R81, R82) -/

/-- The state that FM_CLEAR leaves. -/
def State.openModel (s : State) : State := { s.modelReset with phase := .counting }

theorem exec_fmClear {s : State} (hf : s.faulted = false) : exec .fmClear s = .next s.openModel :=
  exec_done nofun hf rfl (mem_allPhases _) rfl

/-! ### Counting (R83, R84) -/

/-- R84: one FM_COUNT at the bound. -/
theorem exec_fmCount_overflow {s : State} (hf : s.faulted = false) (hp : s.phase = .counting)
    (ht : s.total = 0xFFFFFFFE#32) (b : Byte) :
    exec (.fmCount b) s = .next (s.enterFault .countOverflow (encode (.fmCount b))) :=
  exec_raise nofun hf rfl (by simp [legalPhases, hp]) (if_pos ht)

/-! ### Closing the model (R85) -/

/-- The state that FM_CLOSE leaves. -/
def State.closeModel (s : State) : State := { s.addSym Config.eofId 1#32 with phase := .modelReady }

theorem exec_fmClose {s : State} (hf : s.faulted = false) (hp : s.phase = .counting) :
    exec .fmClose s = .next s.closeModel :=
  exec_done nofun hf rfl (by simp [legalPhases, hp]) rfl

theorem State.closeModel_freqAt_eof {s : State} (hm : Memory.wf 0#32 Config.nSym s.freq = true) :
    s.closeModel.freqAt Config.eofId = 1#32 :=
  Memory.read_write_same hm

theorem State.closeModel_freqAt_of_ne {s : State} (hm : Memory.wf 0#32 Config.nSym s.freq = true) {j : Nat}
    (hj : j ≠ Config.eofId) : s.closeModel.freqAt j = s.freqAt j :=
  Memory.read_write_other hm hj.symm

/-! ### The statements -/

/-- Settles O16: FM_CLEAR is legal in every phase. -/
theorem fmClearStartsAModel : Obligations.FmClearStartsAModel :=
  ⟨rfl, fun _ hf => exec_fmClear hf⟩

/-- Settles O17: the phase check, then the bound on TOTAL, then one write of the canonical FREQ. -/
theorem fmCountCountsOneByte : Obligations.FmCountCountsOneByte := by
  refine ⟨encode_fmCount, fun b s hf hp => ?_, fun b s hf hp hm => ⟨fun ht => ?_, fun ht => ?_⟩⟩
  · rw [← encode_fmCount]
    exact exec_seqError ⟨nofun, nofun⟩ hf rfl (by simpa [legalPhases] using hp)
  · exact ⟨_, exec_fmCount hf hp ht, rfl, Memory.read_write_same hm, fun j hj => Memory.read_write_other hm hj.symm⟩
  · rw [exec_fmCount_overflow hf hp ht, encode_fmCount]
    rfl

/-- Settles O18: the phase check, then one write of the canonical FREQ. -/
theorem fmCloseAddsEof : Obligations.FmCloseAddsEof := by
  refine ⟨rfl, fun s hf hp => ?_, fun s hf hp hm => ?_⟩
  · exact exec_seqError (i := .fmClose) ⟨nofun, nofun⟩ hf rfl (by simpa [legalPhases] using hp)
  · exact ⟨_, exec_fmClose hf hp, rfl, State.closeModel_freqAt_eof hm, fun _ => State.closeModel_freqAt_of_ne hm⟩

/-- Settles O19: a word with a symbol above 256 names no command; FM_QUERY of any other is legal in every phase. -/
theorem fmQueryReadsACount : Obligations.FmQueryReadsACount := by
  refine ⟨encode_fmQuery, fun sym s hf hsym => ?_, fun sym s hf hsym => ?_⟩
  · rw [← encode_fmQuery]
    obtain ⟨hop, -, -⟩ := encodedFields (.fmQuery sym)
    have hfield : (encode (.fmQuery sym)).extractLsb' 8 9 = sym := extractLsb'_operand (by decide) sym _
    refine illegalWordsRaiseIllegalCmd _ s hf (.inr (.inr (.inr (.inl ⟨?_, .inr ?_⟩))))
    · rw [show (encode (.fmQuery sym)).extractLsb' 0 8 = 0x04#8 from hop]
      decide
    · rwa [hfield]
  · exact exec_done nofun hf (by simpa [Instr.wf] using hsym) (mem_allPhases _) rfl

end Sys2Proof.Machine
end

section
/-! PROOF. O20 and O21: the model that FM_CLEAR, one FM_COUNT per byte and FM_CLOSE leave is read off the counts of the bytes. -/

namespace Sys2Proof.Machine

section

variable {s t t' u : State} {bs cs : List Byte}

/-! ### Faulted runs (R147) -/

theorem exec_faulted {i : Instr} (hi : i ≠ .softReset) (hf : s.faulted = true) : exec i s = .next s := by
  rw [exec_eq_perform hi, perform_faulted hf]

theorem runCommands_faulted {is : List Instr} (hi : .softReset ∉ is) (hf : s.faulted = true) :
    runCommands is s = .next s := by
  induction is with
  | nil => rfl
  | cons i is ih =>
    rw [List.mem_cons, not_or] at hi
    rw [runCommands_cons (exec_faulted (Ne.symm hi.1) hf), ih hi.2]

/-! ### What a counted model holds (R20 to R22) -/

theorem Counted.faulted (h : Counted s t bs) : t.faulted = s.faulted := by
  obtain ⟨f, n, k, rfl⟩ := h.frame
  rfl

theorem Counted.phase (h : Counted s t bs) : t.phase = s.phase := by
  obtain ⟨f, n, k, rfl⟩ := h.frame
  rfl

/-- R68: an index below 256 is the literal of a byte. -/
theorem exists_byte {x : Nat} (h : x < 2 ^ 8) : ∃ v : Byte, v.toNat = x :=
  ⟨BitVec.ofNat 8 x, (BitVec.toNat_ofNat x 8).trans (Nat.mod_eq_of_lt h)⟩

/-- R20: a literal has a nonzero count when it is one of the bytes counted. -/
theorem Counted.freqAt_ne_zero (h : Counted s t bs) (v : Byte) : t.freqAt v.toNat ≠ 0#32 ↔ v ∈ bs := by
  rw [← List.count_pos_iff, ← h.count v, Nat.pos_iff_ne_zero, not_iff_not, BitVec.toNat_eq]
  rfl

/-- R21: the symbols present are the distinct bytes counted. -/
theorem Counted.presentSyms_perm (h : Counted s t bs) : (presentSyms t.freq).Perm (bs.dedup.map BitVec.toNat) := by
  have hinj : Function.Injective (BitVec.toNat : Byte → Nat) := fun _ _ => BitVec.eq_of_toNat_eq
  refine (List.perm_ext_iff_of_nodup (presentSyms_nodup _) ((List.nodup_dedup bs).map hinj)).2 fun x => ?_
  rw [mem_presentSyms]
  simp only [List.mem_map, List.mem_dedup]
  constructor
  · rintro ⟨-, hx⟩
    obtain ⟨v, rfl⟩ := exists_byte (not_le.1 fun hge => hx (h.other x hge))
    exact ⟨v, (h.freqAt_ne_zero v).1 hx, rfl⟩
  · rintro ⟨v, hv, rfl⟩
    exact ⟨byte_lt v, (h.freqAt_ne_zero v).2 hv⟩

theorem Counted.numSyms_eq (h : Counted s t bs) : t.numSyms.toNat = bs.dedup.length := by
  rw [h.numSyms, h.presentSyms_perm.length_eq, List.length_map]

/-- R88: what is counted does not depend on the order of the bytes. -/
theorem Counted.eq_of_perm (h : Counted s t bs) (h' : Counted s t' cs) (hp : bs.Perm cs) : t = t' := by
  have hfreq : t.freq = t'.freq := by
    refine Memory.ext h.wf h'.wf fun i => ?_
    by_cases hi : i < 2 ^ 8
    · obtain ⟨v, rfl⟩ := exists_byte hi
      exact BitVec.eq_of_toNat_eq ((h.count v).trans ((hp.count_eq v).trans (h'.count v).symm))
    · exact (h.other i (not_lt.1 hi)).trans (h'.other i (not_lt.1 hi)).symm
  have hnum : t.numSyms = t'.numSyms := BitVec.eq_of_toNat_eq (by rw [h.numSyms, h'.numSyms, hfreq])
  have htotal : t.total = t'.total := BitVec.eq_of_toNat_eq (by rw [h.total, h'.total, hp.length_eq])
  obtain ⟨f, n, k, rfl⟩ := h.frame
  obtain ⟨f', n', k', rfl⟩ := h'.frame
  cases hfreq
  cases hnum
  cases htotal
  rfl

/-! ### Building a model (R82, R83, R85, R87) -/

/-- An empty model holds the counts of no bytes. -/
theorem counted_openModel (s : State) : Counted s.openModel s.openModel [] where
  frame := ⟨_, _, _, rfl⟩
  wf := rfl
  count _ := rfl
  other _ _ := rfl
  numSyms := by rw [State.openModel, State.modelReset_freq, presentSyms_nil]; rfl
  total := rfl

/-- R87: at most 2^32 - 2 bytes are counted and the model is closed. -/
theorem runCommands_buildModel (hf : s.faulted = false) (hlen : bs.length ≤ 2 ^ 32 - 2) :
    ∃ u, Counted s.openModel u bs ∧ runCommands (buildModel bs) s = .next u.closeModel := by
  obtain ⟨u, hrun, hu⟩ := (counted_openModel s).run bs hf rfl (by simpa using hlen)
  refine ⟨u, hu, ?_⟩
  calc runCommands (buildModel bs) s
      = runCommands [.fmClose] u := runCommands_append ((runCommands_cons (exec_fmClear hf)).trans hrun)
    _ = .next u.closeModel := runCommands_cons (exec_fmClose (hu.faulted.trans hf) hu.phase)

/-- R84: counting more than 2^32 - 2 bytes ends in a fault. -/
theorem Counted.run_overflow {done : List Byte} (h : Counted s t done) (hf : s.faulted = false) (hp : s.phase = .counting)
    (hdone : done.length ≤ 2 ^ 32 - 2) (hlen : 2 ^ 32 - 2 < done.length + bs.length) :
    ∃ u, runCommands (fmBytes bs) t = .next u ∧ u.faulted = true := by
  induction bs generalizing t done with
  | nil => exact absurd hdone (not_le.2 hlen)
  | cons b bs ih =>
    by_cases hmax : done.length = 2 ^ 32 - 2
    · have htotal : t.total = 0xFFFFFFFE#32 := BitVec.eq_of_toNat_eq (h.total.trans hmax)
      have hexec := exec_fmCount_overflow (h.faulted.trans hf) (h.phase.trans hp) htotal b
      exact ⟨_, (runCommands_cons hexec).trans (runCommands_faulted (by simp) rfl), rfl⟩
    · obtain ⟨u, hu, hcu⟩ := h.step b hf hp (by omega)
      rw [List.length_cons] at hlen
      obtain ⟨v, hv, hvf⟩ := ih hcu (by rw [List.length_append, List.length_singleton]; omega)
        (by rw [List.length_append, List.length_singleton]; omega)
      exact ⟨v, (runCommands_cons hu).trans hv, hvf⟩

/-- R84, R147: a model that is built without fault is of at most 2^32 - 2 bytes, and was begun without fault. -/
theorem buildModel_unfaulted (hrun : runCommands (buildModel bs) s = .next t) (ht : t.faulted = false) :
    s.faulted = false ∧ bs.length ≤ 2 ^ 32 - 2 := by
  have ends_unfaulted {u : State} (hu : runCommands (buildModel bs) s = .next u) : u.faulted = false := by
    cases hrun.symm.trans hu
    exact ht
  have hs : s.faulted = false := by
    by_contra hs
    rw [Bool.not_eq_false] at hs
    exact absurd (ends_unfaulted (runCommands_faulted (by simp [buildModel, fmBytes]) hs)) (by simp [hs])
  refine ⟨hs, ?_⟩
  by_contra hlen
  obtain ⟨u, hu, hfu⟩ := (counted_openModel s).run_overflow (bs := bs) hs rfl (Nat.zero_le _) (by simpa using hlen)
  have hclose : runCommands (buildModel bs) s = .next u :=
    (runCommands_append ((runCommands_cons (exec_fmClear hs)).trans hu)).trans (runCommands_faulted (by simp) hfu)
  exact absurd (ends_unfaulted hclose) (by simp [hfu])

end

/-! ### The statements -/

/-- Settles O20: the model that was counted, closed with one EOF. -/
theorem modelHoldsTheCounts : Obligations.ModelHoldsTheCounts := by
  intro bs s hf hlen
  obtain ⟨u, hu, hrun⟩ := runCommands_buildModel hf hlen
  have hsyms : u.numSyms.toNat ≤ 257 := hu.numSyms ▸ presentSyms_length_le u.freq
  refine ⟨_, hrun, hu.faulted.trans hf, rfl, fun v => ?_, State.closeModel_freqAt_eof hu.wf, ?_, ?_⟩
  · rw [State.closeModel_freqAt_of_ne hu.wf (Nat.ne_of_lt v.isLt)]
    exact hu.count v
  · rw [← hu.numSyms_eq, Nat.add_comm]
    exact (BitVec.toNat_add u.numSyms 1#9).trans (Nat.mod_eq_of_lt (by simp; omega))
  · rw [← hu.total] at hlen ⊢
    exact (BitVec.toNat_add u.total 1#32).trans (Nat.mod_eq_of_lt (by simp; omega))

/-- Settles O21: two builds without fault count the same bytes, so they leave the same state. -/
theorem modelIgnoresByteOrder : Obligations.ModelIgnoresByteOrder := by
  intro bs cs s t hperm hrun ht
  obtain ⟨hf, hlen⟩ := buildModel_unfaulted hrun ht
  obtain ⟨u, hu, hbs⟩ := runCommands_buildModel hf hlen
  obtain ⟨v, hv, hcs⟩ := runCommands_buildModel hf (hperm.length_eq ▸ hlen)
  cases hu.eq_of_perm hv hperm
  exact hcs.trans (hbs.symm.trans hrun)

end Sys2Proof.Machine
end

section
/-! PROOF. O30 to O37, O58: what TREE_BUILD leaves, read off the tree that Built says it stands for. -/

namespace Sys2Proof.Machine

/-! ### The state TREE_BUILD leaves (R91) -/

/-- The state that TREE_BUILD leaves where a symbol is present. -/
def State.treeBuilt (s : State) : State :=
  { s with
    node := (buildTree s.freq).node
    root := builtRoot s.freq
    pq := []
    nodeCount := BitVec.ofNat 10 (buildTree s.freq).n
    rootWeight := weightOf (buildTree s.freq).node (builtRoot s.freq)
    travStack := []
    lut := (deriveLut (buildTree s.freq).node (builtRoot s.freq)).2
    phase := .treeReady }

section
variable {s t : State}

@[simp] theorem State.treeBuilt_node : s.treeBuilt.node = (buildTree s.freq).node := rfl

@[simp] theorem State.treeBuilt_root : s.treeBuilt.root = builtRoot s.freq := rfl

@[simp] theorem State.treeBuilt_nodeCount : s.treeBuilt.nodeCount = BitVec.ofNat 10 (buildTree s.freq).n := rfl

@[simp] theorem State.treeBuilt_rootWeight :
    s.treeBuilt.rootWeight = weightOf (buildTree s.freq).node (builtRoot s.freq) := rfl

@[simp] theorem State.treeBuilt_lut : s.treeBuilt.lut = (deriveLut (buildTree s.freq).node (builtRoot s.freq)).2 := rfl

@[simp] theorem State.treeBuilt_phase : s.treeBuilt.phase = .treeReady := rfl

@[simp] theorem State.treeBuilt_total : s.treeBuilt.total = s.total := rfl

@[simp] theorem State.treeBuilt_nodeAt (k : Nat) :
    s.treeBuilt.nodeAt k = Memory.read NodeEntry.zero (buildTree s.freq).node k := rfl

@[simp] theorem State.treeBuilt_lutAt (x : Nat) :
    s.treeBuilt.lutAt x = Memory.read LutEntry.zero (deriveLut (buildTree s.freq).node (builtRoot s.freq)).2 x := rfl

theorem exec_treeBuild (hf : s.faulted = false) (hp : s.phase = .modelReady ∨ s.phase = .treeReady)
    (hP : presentSyms s.freq ≠ []) : exec .treeBuild s = .next s.treeBuilt :=
  exec_done nofun hf rfl (by simpa [legalPhases] using hp) (treeBuildRule_done hP)

/-- R91: where TREE_BUILD completes a symbol is present, and this is the state it leaves. -/
theorem eq_treeBuilt_of_exec (hf : s.faulted = false) (hp : s.phase = .modelReady ∨ s.phase = .treeReady)
    (h : exec .treeBuild s = .next t) : t = s.treeBuilt := by
  by_cases hP : presentSyms s.freq = []
  · rw [exec_stop (i := .treeBuild) nofun hf rfl (by simpa [legalPhases] using hp) (treeBuildRule_stop hP)] at h
    cases h
  · rw [exec_treeBuild hf hp hP] at h
    exact (Host.Outcome.next.inj h).symm

theorem presentSyms_ne_nil_of_exists (h : ∃ i, i ≤ 256 ∧ s.freqAt i ≠ 0#32) : presentSyms s.freq ≠ [] := by
  obtain ⟨i, hi, h0⟩ := h
  exact presentSyms_ne_nil (Nat.lt_succ_of_le hi) h0

/-- R91 to R102: TREE_BUILD of a model with a present symbol completes, and the arena it leaves stands for a tree. -/
theorem exec_treeBuild_built (hf : s.faulted = false) (hp : s.phase = .modelReady ∨ s.phase = .treeReady)
    (h : ∃ i, i ≤ 256 ∧ s.freqAt i ≠ 0#32) : ∃ u, Built s.freq u ∧ exec .treeBuild s = .next s.treeBuilt := by
  have hP := presentSyms_ne_nil_of_exists h
  obtain ⟨u, hu⟩ := built s.freq hP
  exact ⟨u, hu, exec_treeBuild hf hp hP⟩

theorem State.treeBuilt_nodeCount_toNat {u : HTree} (hu : Built s.freq u) :
    s.treeBuilt.nodeCount.toNat = (buildTree s.freq).n :=
  idx_toNat (Nat.lt_of_le_of_lt hu.n_le (by decide))

end

/-! ### Which entries the queue holds (R93, R94, R96) -/

/-- At the end of TREE_BUILD the root alone waits. -/
theorem Merged.waiting_iff_root {freq : Memory Word} {u : HTree} (hu : Built freq u)
    (hm : Merged (presentSyms freq).length (buildTree freq)) (j : Nat) :
    Waiting (buildTree freq).node (presentSyms freq).length (buildTree freq).n j ↔ j = (builtRoot freq).toNat := by
  have hqueue (i : NodeIdx) : Waiting (buildTree freq).node (presentSyms freq).length (buildTree freq).n i.toNat
      ↔ i = builtRoot freq := by
    rw [← hm.queue, hu.pq, List.mem_singleton]
  constructor
  · intro hj
    have hidx : (BitVec.ofNat 10 j).toNat = j := idx_toNat (hj.1.trans (Nat.lt_of_le_of_lt hu.n_le (by decide)))
    rw [← (hqueue (BitVec.ofNat 10 j)).1 (hidx.symm ▸ hj), hidx]
  · rintro rfl
    exact (hqueue _).2 rfl

/-! ### Weights (R101, R108) -/

/-- An arena entry is the root of one tree only. -/
theorem Represents.unique {node : Memory NodeEntry} {n : Nat} {i : NodeIdx} {t t' : HTree} (h : Represents node n i t)
    (h' : Represents node n i t') : t = t' := by
  induction h generalizing t' with
  | leaf _ hk =>
    cases h' with
    | leaf => rfl
    | node _ hk' => exact absurd (hk.symm.trans hk') nofun
  | node _ hk _ _ ihl ihr =>
    cases h' with
    | leaf _ hk' => exact absurd (hk.symm.trans hk') nofun
    | node _ _ hl hr => rw [ihl hl, ihr hr]

/-- R22: the counts of some of the present symbols sum to at most the sum of all. -/
theorem HTree.weight_le_sumCounts {freq : Memory Word} {t : HTree} (hnd : t.leaves.Nodup)
    (hs : ∀ x ∈ t.leaves, x ∈ presentSyms freq) : t.weight freq ≤ sumCounts freq := by
  rw [HTree.weight_eq, ← sum_presentSyms]
  obtain ⟨l, hl, hsub⟩ := hnd.subperm hs
  rw [← (hl.map _).sum_eq]
  exact (hsub.map _).sum_le_sum (fun _ _ => Nat.zero_le _)

/-- An entry weighs what its tree weighs, where the sum of all counts fits a word. -/
theorem Forest.exists_tree_weight {freq : Memory Word} {b : TreeBuild} {ts : List (NodeIdx × HTree)} (h : Forest freq b ts)
    (hsum : sumCounts freq < 2 ^ 32) {i : NodeIdx} (hi : i.toNat < b.n) :
    ∃ t, Represents b.node b.n i t ∧ (weightOf b.node i).toNat = t.weight freq := by
  obtain ⟨t, ht, hnd, hs, hw⟩ := h.all i.toNat hi
  refine ⟨t, by simpa using ht, ?_⟩
  unfold weightOf
  rw [hw, BitVec.toNat_ofNat]
  exact Nat.mod_eq_of_lt ((HTree.weight_le_sumCounts hnd hs).trans_lt hsum)

/-- R101: the weights of a merge's two nodes add up without wrapping, where the sum of all counts fits a word. -/
theorem Forest.weight_internal {freq : Memory Word} {b : TreeBuild} {ts : List (NodeIdx × HTree)} (h : Forest freq b ts)
    (hsum : sumCounts freq < 2 ^ 32) {i : NodeIdx} (hi : i.toNat < b.n)
    (hk : (Memory.read NodeEntry.zero b.node i.toNat).kind = .internal) :
    (weightOf b.node i).toNat = (weightOf b.node (Memory.read NodeEntry.zero b.node i.toNat).l).toNat
      + (weightOf b.node (Memory.read NodeEntry.zero b.node i.toNat).r).toNat := by
  obtain ⟨t, ht, hw⟩ := h.exists_tree_weight hsum hi
  cases ht with
  | leaf _ hk' => exact absurd (hk'.symm.trans hk) nofun
  | node _ _ hl hr =>
    obtain ⟨tl, hl', hwl⟩ := h.exists_tree_weight hsum hl.lt
    obtain ⟨tr, hr', hwr⟩ := h.exists_tree_weight hsum hr.lt
    rw [hw, hwl, hwr, hl'.unique hl, hr'.unique hr]
    rfl

/-! ### Codes (R98, R99, R102, R103) -/

/-- R98: a tree of two or more leaves gives each its path as its code. -/
theorem HTree.code_eq_path {t : HTree} (h : 2 ≤ t.leaves.length) (x : Nat) : t.code x = t.path x := by
  cases t with
  | leaf s => exact absurd h (by simp [leaves])
  | node l r => rfl

/-- R102: a code has at most one bit less than there are leaves, or one bit. -/
theorem HTree.code_length_le (t : HTree) (x : Nat) : (t.code x).length ≤ max 1 (t.leaves.length - 1) := by
  cases t with
  | leaf s => exact le_max_left _ _
  | node l r =>
    have hpath := (HTree.node l r).path_length_le x
    have hheight := (HTree.node l r).height_lt
    exact le_max_of_le_right (hpath.trans (Nat.le_sub_one_of_lt hheight))

section
variable {freq : Memory Word} {u : HTree}

/-- R102, R28: the bound on the length of a LUT entry, whether its symbol is present or not. -/
theorem Built.len_le (h : Built freq u) (x : Nat) :
    (Memory.read LutEntry.zero (deriveLut (buildTree freq).node (builtRoot freq)).2 x).len.toNat
      ≤ max 1 ((presentSyms freq).length - 1) := by
  by_cases hx : x ∈ presentSyms freq
  · obtain ⟨hcode, hlen, -⟩ := h.code x hx
    rw [hlen, hcode, ← h.leaves.length_eq]
    exact u.code_length_le x
  · rw [h.absent x hx]
    exact Nat.zero_le _

/-- R28: the pattern of a LUT entry is 0 above its code, whether its symbol is present or not. -/
theorem Built.clear (h : Built freq u) (x : Nat) :
    Clear (Memory.read LutEntry.zero (deriveLut (buildTree freq).node (builtRoot freq)).2 x) := by
  by_cases hx : x ∈ presentSyms freq
  · exact (h.code x hx).2.2
  · rw [h.absent x hx]
    intro k _
    exact BitVec.getLsbD_zero

/-- R103: no code is the start of another. -/
theorem Built.code_prefix (h : Built freq u) {x y : Nat} (hx : x ∈ presentSyms freq) (hy : y ∈ presentSyms freq)
    (hpre : codeOf (deriveLut (buildTree freq).node (builtRoot freq)).2 x
      <+: codeOf (deriveLut (buildTree freq).node (builtRoot freq)).2 y) : x = y := by
  rw [(h.code x hx).1, (h.code y hy).1] at hpre
  exact u.code_prefix (h.leaves.mem_iff.2 hx) (h.leaves.mem_iff.2 hy) hpre

/-- R103: the codes of two or more symbols fill the code space. -/
theorem Built.kraft (h : Built freq u) (hL : 2 ≤ (presentSyms freq).length) :
    ((presentSyms freq).map fun x =>
      2 ^ (256 - (codeOf (deriveLut (buildTree freq).node (builtRoot freq)).2 x).length)).sum = 2 ^ 256 := by
  have hleaves := h.leaves.length_eq
  have hpath : ∀ x ∈ presentSyms freq,
      codeOf (deriveLut (buildTree freq).node (builtRoot freq)).2 x = u.path x := fun x hx =>
    (h.code x hx).1.trans (HTree.code_eq_path (hleaves ▸ hL) x)
  have hheight : u.height ≤ 256 := Nat.le_of_lt_succ
    (u.height_lt.trans_le (hleaves.trans_le (presentSyms_length_le freq)))
  calc ((presentSyms freq).map fun x =>
        2 ^ (256 - (codeOf (deriveLut (buildTree freq).node (builtRoot freq)).2 x).length)).sum
      = ((presentSyms freq).map fun x => 2 ^ (256 - (u.path x).length)).sum :=
        congrArg _ (List.map_congr_left fun x hx => by rw [hpath x hx])
    _ = (u.leaves.map fun x => 2 ^ (256 - (u.path x).length)).sum := (h.leaves.map _).sum_eq.symm
    _ = 2 ^ 256 := u.kraft (h.leaves.nodup_iff.2 (presentSyms_nodup freq)) hheight

end

/-! ### The model with EOF alone (R98, R99) -/

/-- R98: where EOF alone has a count, it is the one present symbol. -/
theorem presentSyms_eq_eof {freq : Memory Word} {c : Word} (hc : c ≠ 0#32)
    (h : ∀ i, i ≤ 256 → Memory.read 0#32 freq i = if i = 256 then c else 0#32) :
    presentSyms freq = [Config.eofId] := by
  have hfilter : presentSyms freq = (List.range Config.nSym).filter (fun i => decide (i = 256)) :=
    List.filter_congr fun i hi => by
      rw [h i (Nat.le_of_lt_succ (List.mem_range.1 hi))]
      by_cases he : i = 256 <;> simp [he, hc]
  rw [hfilter]
  decide

/-- R98: the arena is then the leaf of EOF, which is the root. -/
theorem Built.eof_alone {freq : Memory Word} {u : HTree} (h : Built freq u) (hs : presentSyms freq = [Config.eofId]) :
    (buildTree freq).n = 1 ∧ builtRoot freq = 0#10
      ∧ Memory.read NodeEntry.zero (buildTree freq).node (builtRoot freq).toNat = leafEntry freq Config.eofId := by
  have hcount := h.count
  have hlast := h.root
  have hleaf := h.leafAt 0
  simp only [hs, List.length_singleton, Nat.zero_lt_one, List.getElem_singleton, forall_const] at hcount hleaf
  have hroot : (builtRoot freq).toNat = 0 := by omega
  exact ⟨by omega, BitVec.eq_of_toNat_eq hroot, hroot ▸ hleaf⟩

/-- R99: DeriveLUT of a leaf gives its symbol the one bit 0. -/
theorem deriveLut_leaf {node : Memory NodeEntry} {root : NodeIdx}
    (h : (Memory.read NodeEntry.zero node root.toNat).kind = .leaf) :
    (deriveLut node root).2 = Memory.write LutEntry.zero []
      (Memory.read NodeEntry.zero node root.toNat).sym.toNat { len := 1#9, pat := 0#256 } := by
  simp only [deriveLut, h]

/-! ### The counts alone (R104) -/

theorem insertLeaves_congr {freq freq' : Memory Word}
    (h : ∀ i, i ≤ 256 → Memory.read 0#32 freq i = Memory.read 0#32 freq' i) : insertLeaves freq = insertLeaves freq' :=
  List.foldl_ext _ _ _ fun b i hi => by
    rw [insertLeaf, insertLeaf, h i (Nat.le_of_lt_succ (List.mem_range.1 hi))]

theorem buildTree_congr {freq freq' : Memory Word}
    (h : ∀ i, i ≤ 256 → Memory.read 0#32 freq i = Memory.read 0#32 freq' i) : buildTree freq = buildTree freq' :=
  congrArg (mergeAll _) (insertLeaves_congr h)

/-! ### The statements -/

/-- Settles O30: the state TREE_BUILD leaves, field by field. -/
theorem treeBuildCompletes : Obligations.TreeBuildCompletes :=
  fun _ hf hp h => ⟨_, exec_treeBuild hf hp (presentSyms_ne_nil_of_exists h), rfl, rfl⟩

/-- Settles O31: a tree of L leaves has 2L - 1 entries, the leaves first and the root last. -/
theorem treeHasTwiceTheLeavesLessOne : Obligations.TreeHasTwiceTheLeavesLessOne := by
  intro s hf hp h
  obtain ⟨u, hu, hexec⟩ := exec_treeBuild_built hf hp h
  have hn := State.treeBuilt_nodeCount_toNat hu
  have hcount := hu.count
  have hroot := hu.root
  refine ⟨_, hexec, ?_, ?_, fun k hk hkn => ?_, hu.leafAt⟩
  · omega
  · rw [State.treeBuilt_root]
    omega
  · exact (hu.internal k hk (hn ▸ hkn)).1

/-- Settles O32: an entry weighs what the leaves of its tree weigh, and these are different symbols, so no sum exceeds TOTAL. -/
theorem treeWeightsAddUp : Obligations.TreeWeightsAddUp := by
  intro s hf hp h htotal
  obtain ⟨u, hu, hexec⟩ := exec_treeBuild_built hf hp h
  obtain ⟨_, hF, -⟩ := buildTree_forest s.freq (presentSyms_ne_nil_of_exists h)
  have hsum : sumCounts s.freq < 2 ^ 32 := htotal ▸ s.total.isLt
  refine ⟨_, hexec, ?_, fun k hkn hk => ?_⟩
  · simp [hu.weight, ← htotal]
  · rw [State.treeBuilt_nodeCount_toNat hu] at hkn
    obtain ⟨hkind, hsym, hl, hr, hne, -⟩ := hF.internal k hk hkn
    have hidx : (BitVec.ofNat 10 k).toNat = k := idx_toNat (hkn.trans (Nat.lt_of_le_of_lt hu.n_le (by decide)))
    have hweight := hF.weight_internal (i := BitVec.ofNat 10 k) hsum (by rwa [hidx]) (by rwa [hidx])
    unfold weightOf at hweight
    rw [hidx] at hweight
    exact ⟨hkind, hsym, hl, hr, hne, hweight⟩

/-- Settles O33: leastKey is in the queue and before every other element of it. -/
theorem popMinTakesTheLeastKey : Obligations.PopMinTakesTheLeastKey := by
  intro node pq hne
  cases pq with
  | nil => exact absurd rfl hne
  | cons i pq =>
    have hmem := leastKey_mem node i pq
    exact ⟨leastKey node i pq, _, rfl, hmem, (List.perm_cons_erase hmem).symm,
      fun j hj hjm => (leastKey_before node i pq j hj).resolve_left hjm⟩

/-- Settles O34: one leaf makes one entry, and DeriveLUT of a leaf writes one code. -/
theorem degenerateTree : Obligations.DegenerateTree := by
  intro s c hf hp hc h
  have heof : s.freqAt 256 = c := h 256 le_rfl
  obtain ⟨u, hu, hexec⟩ := exec_treeBuild_built hf hp ⟨256, le_rfl, heof ▸ hc⟩
  obtain ⟨hn, hroot, hentry⟩ := hu.eof_alone (presentSyms_eq_eof hc h)
  have hleaf : leafEntry s.freq Config.eofId = { kind := .leaf, sym := 256#9, w := c, l := 0#10, r := 0#10 } := by
    rw [← heof]
    rfl
  rw [hleaf] at hentry
  refine ⟨_, hexec, hroot, ?_, ?_, ?_, fun i => ?_, ?_⟩
  · rw [State.treeBuilt_nodeCount, hn]
  · rw [State.treeBuilt_rootWeight, weightOf, hentry]
  · rw [← hentry, hroot]
    rfl
  · rw [State.treeBuilt_lutAt, deriveLut_leaf (by rw [hentry]), hentry, Memory.read_write (n := Config.nSym) Memory.wf_nil]
    exact if_congr eq_comm rfl rfl
  · simp [State.rootIsLeaf, Phase.treeValid, hentry]

/-- Settles O35: present symbols have their codes, and the entries of the others are zero. -/
theorem lutCoversThePresentSymbols : Obligations.LutCoversThePresentSymbols := by
  intro s hf hp h
  obtain ⟨u, hu, hexec⟩ := exec_treeBuild_built hf hp h
  refine ⟨_, hexec, fun sym hsym => ⟨?_, hu.len_le sym, hu.clear sym⟩⟩
  rw [State.treeBuilt_lutAt, hu.len_ne_zero, mem_presentSyms]
  exact and_iff_right (Nat.lt_succ_of_le hsym)

/-- Settles O36: codes are the paths to the leaves of one tree. -/
theorem codesArePrefixFree : Obligations.CodesArePrefixFree := by
  intro s hf hp h
  obtain ⟨u, hu, hexec⟩ := exec_treeBuild_built hf hp h
  refine ⟨_, hexec, fun x y hx hy hne hfx hfy hpre => hne (hu.code_prefix ?_ ?_ hpre), hu.kraft⟩
  · exact mem_presentSyms.2 ⟨Nat.lt_succ_of_le hx, hfx⟩
  · exact mem_presentSyms.2 ⟨Nat.lt_succ_of_le hy, hfy⟩

/-- Settles O37: leaf insertion reads the counts of the 257 symbols, and nothing after it reads FREQ. -/
theorem treeDependsOnCountsAlone : Obligations.TreeDependsOnCountsAlone := by
  intro s s' t t' hf hp hf' hp' hfreq h h'
  have htree := buildTree_congr hfreq
  rw [eq_treeBuilt_of_exec hf hp h, eq_treeBuilt_of_exec hf' hp' h']
  simp [builtRoot, htree]

/-- Settles O58: the queue holds the entries that wait, and each merge pops the least two of them. -/
theorem mergeTakesTheTwoLeast : Obligations.MergeTakesTheTwoLeast := by
  intro s hf hp h
  have hP := presentSyms_ne_nil_of_exists h
  obtain ⟨u, hu, hexec⟩ := exec_treeBuild_built hf hp h
  obtain ⟨_, hF, -⟩ := buildTree_forest s.freq hP
  have hm := buildTree_merged s.freq hP
  refine ⟨_, hexec, ?_⟩
  rw [State.treeBuilt_nodeCount_toNat hu]
  refine ⟨fun k hk hkn => ?_, hm.waiting_iff_root hu⟩
  obtain ⟨hkind, hsym, -, -, hne, hw⟩ := hF.internal k hk hkn
  exact ⟨hkind, hsym, hw, hm.left k hk hkn, hm.right k hk hkn, hne, fun j => hm.first k j hk hkn,
    fun j => hm.second k j hk hkn⟩

end Sys2Proof.Machine
end

section
/-! PROOF. O38: LUT_QUERY and its word. -/

namespace Sys2Proof.Machine

theorem encode_lutQuery (sym : SymId) : encode (.lutQuery sym) = 0#15 ++ sym ++ 0x11#8 := word_of_sym sym _

/-- R72: the word of a command whose operand is out of range raises ILLEGAL_CMD. -/
theorem acceptWord_encode_of_not_wf {i : Instr} {s : State} (hw : i.wf = false) (hf : s.faulted = false) :
    acceptWord (encode i) s = .next (s.enterFault .illegalCmd (encode i)) := by
  refine acceptWord_rejected (fun j hj => ?_) hf
  obtain ⟨hop, -, hwf⟩ := decode_eq_ok_iff.1 hj
  cases (opcodeInstr_encode i).symm.trans hop
  exact absurd hwf (by simp [hw])

/-- R32, R106: the eight registers, R7 first, hold the pattern. -/
theorem LutBits.ofPattern_append (pat : Pattern) :
    (ofPattern pat).r7 ++ (ofPattern pat).r6 ++ (ofPattern pat).r5 ++ (ofPattern pat).r4 ++ (ofPattern pat).r3
      ++ (ofPattern pat).r2 ++ (ofPattern pat).r1 ++ (ofPattern pat).r0 = pat := by
  dsimp only [ofPattern]
  iterate 7 rw [BitVec.extractLsb'_append_extractLsb'_eq_extractLsb' (by rfl)]
  exact BitVec.extractLsb'_eq_self

/-- Settles O38: a word with a symbol above 256 names no command; then the phase check, then two writes. -/
theorem lutQueryReadsACode : Obligations.LutQueryReadsACode := by
  refine ⟨encode_lutQuery, fun sym s hf hsym => ?_, fun sym s hf hsym h1 h2 h3 => ?_, fun sym s hf hsym hp => ?_⟩
  · rw [← encode_lutQuery]
    exact acceptWord_encode_of_not_wf (by simpa [Instr.wf] using hsym) hf
  · rw [← encode_lutQuery]
    exact exec_seqError ⟨nofun, nofun⟩ hf (by simpa [Instr.wf] using hsym) (by simp [legalPhases, h1, h2, h3])
  · exact ⟨_, exec_done nofun hf (by simpa [Instr.wf] using hsym) (by simpa [legalPhases] using hp) rfl, rfl,
      LutBits.ofPattern_append _⟩

end Sys2Proof.Machine
end

section
/-! PROOF. O39 to O42: what each command of the encoder does, the words of its operands, and the stream of one encode. -/

namespace Sys2Proof.Machine

theorem encode_encSym (b : Byte) : encode (.encSym b) = 0#16 ++ b ++ 0x19#8 := word_of_byte b _

/-! ### One command (R109 to R112) -/

theorem exec_encStart {s : State} (hf : s.faulted = false) (hp : s.phase = .treeReady) :
    exec .encStart s = .next { s with bitCount := 0#64, phase := .encoding } :=
  exec_done nofun hf rfl (by simp [legalPhases, hp]) rfl

/-- R110: a byte without a code. -/
theorem exec_encSym_mismatch {s : State} {b : Byte} (hf : s.faulted = false) (hp : s.phase = .encoding)
    (h : (s.lutAt b.toNat).len = 0#9) :
    exec (.encSym b) s = .next (s.enterFault .tableMismatch (encode (.encSym b))) := by
  refine exec_raise nofun hf rfl (by simp [legalPhases, hp]) ?_
  simp only [ruleOf, encSymRule, literalSym_toNat]
  rw [if_pos h]

/-- R112: with the shift register at rest, emitting a code changes BOUT and BITCOUNT alone. -/
theorem emitCode_of_rest {s : State} (hs : s.encShift = 0#256) (e : LutEntry) :
    emitCode e s = { s with
      bout := s.bout ++ codeBits e.len.toNat e.pat, bitCount := s.bitCount + e.len.setWidth 64 } := by
  rw [emitCode_eq, ← hs]

/-- R111: the code of ENC_END is the one of EOF. -/
theorem exec_encEnd {s : State} (hf : s.faulted = false) (hp : s.phase = .encoding) (hs : s.encShift = 0#256) :
    exec .encEnd s = .next { s with
      bout := s.bout ++ codeOf s.lut 256, bitCount := s.bitCount + BitVec.ofNat 64 (codeOf s.lut 256).length
      phase := .treeReady } := by
  refine (exec_done (i := .encEnd) nofun hf rfl (by simp [legalPhases, hp]) rfl).trans ?_
  rw [emitCode_of_rest hs, setWidth_len]
  rfl

/-! ### The statements -/

/-- Settles O39: the phase check, then two writes. -/
theorem encStartBeginsAnEncode : Obligations.EncStartBeginsAnEncode := by
  refine ⟨rfl, fun s hf hp => ?_, fun s hf hp => exec_encStart hf hp⟩
  exact exec_seqError (i := .encStart) ⟨nofun, nofun⟩ hf rfl (by simpa [legalPhases] using hp)

/-- Settles O40: the phase check, then the check that the byte has a code, then its bits. -/
theorem encSymEmitsTheCode : Obligations.EncSymEmitsTheCode := by
  refine ⟨encode_encSym, fun b s hf hp => ?_, fun b s hf hp hs => ⟨fun hlen => ?_, fun hlen => ?_⟩⟩
  · rw [← encode_encSym]
    exact exec_seqError ⟨nofun, nofun⟩ hf rfl (by simpa [legalPhases] using hp)
  · rw [exec_encSym hf hp hlen, emitCode_of_rest hs, codeBits_eq_map]
  · rw [exec_encSym_mismatch hf hp hlen, encode_encSym]
    rfl

/-- Settles O41: the phase check, then the bits of the EOF code. -/
theorem encEndEmitsTheEofCode : Obligations.EncEndEmitsTheEofCode := by
  refine ⟨rfl, fun s hf hp => ?_, fun s hf hp hs => ?_⟩
  · exact exec_seqError (i := .encEnd) ⟨nofun, nofun⟩ hf rfl (by simpa [legalPhases] using hp)
  · rw [exec_encEnd hf hp hs, codeOf, ← setWidth_len, codeBits_eq_map]
    rfl

/-- Settles O42: BITCOUNT starts at 0, the bytes append their codes one by one, and ENC_END appends the EOF code. -/
theorem encodedStreamIsTheCodes : Obligations.EncodedStreamIsTheCodes := by
  intro bs s hf hp hs hcodes
  have hbytes := runCommands_encSym bs (s := { s with bitCount := 0#64, phase := .encoding }) hf rfl hs hcodes
  rw [List.cons_append, runCommands_cons (exec_encStart hf hp), runCommands_append hbytes, runCommands_cons (exec_encEnd ..),
    runCommands_nil]
  · simp [BitVec.ofNat_add, hp]
  exacts [hf, rfl, hs]

end Sys2Proof.Machine
end

section
/-! PROOF. O43 to O45: what each command of the decoder does. -/

namespace Sys2Proof.Machine

section
variable {s : State} {n : NodeIdx} {b : Bool}

/-! ### One command (R118, R119, R121, R123) -/

/-- The state that DEC_START leaves. -/
def State.startDecode (s : State) : State :=
  { s with dstate := .atRoot, decNode := s.root, decCount := 0#64, phase := .decoding }

theorem exec_decStart (hf : s.faulted = false) (hp : s.phase = .treeReady) : exec .decStart s = .next s.startDecode :=
  exec_done nofun hf rfl (by simp [legalPhases, hp]) rfl

theorem exec_decEnd (hf : s.faulted = false) (hp : s.phase = .decoding) (hd : s.dstate = .done) :
    exec .decEnd s = .next { s with phase := .treeReady } :=
  exec_done nofun hf rfl (by simp [legalPhases, hp]) (if_neg (not_not_intro hd))

/-- R126: DEC_END before the EOF leaf was reached. -/
theorem exec_decEnd_malformed (hf : s.faulted = false) (hp : s.phase = .decoding) (hd : s.dstate ≠ .done) :
    exec .decEnd s = .next (s.enterFault .malformedStream 0x00000022#32) :=
  exec_raise nofun hf rfl (by simp [legalPhases, hp]) (if_pos hd)

/-- R121: a bit after the EOF leaf. -/
theorem exec_decBit_done (hf : s.faulted = false) (hp : s.phase = .decoding) (hd : s.dstate = .done) :
    exec (.decBit b) s = .next s :=
  exec_done nofun hf rfl (by simp [legalPhases, hp]) (if_pos hd)

/-- R119: a bit before the EOF leaf lands the decoder on the entry it leads to. -/
theorem exec_decBit (hf : s.faulted = false) (hp : s.phase = .decoding) (hd : s.dstate ≠ .done)
    (ht : decTarget b s = .ok n) (hn : n.toNat < Config.maxNodes) :
    exec (.decBit b) s = .next (decLand n (s.nodeAt n.toNat) s) := by
  refine exec_done nofun hf rfl (by simp [legalPhases, hp]) ?_
  simp only [ruleOf, decBitRule, if_neg hd, ht, nodeChecked_ok hn]

/-! ### Landing (R119) -/

section
variable {nd : NodeEntry}

theorem decLand_internal (hk : nd.kind = .internal) :
    decLand n nd s = { s with decNode := n, dstate := .descending } := by
  simp only [decLand, hk]

theorem decLand_eof (hk : nd.kind = .leaf) (hs : nd.sym.toNat = Config.eofId) :
    decLand n nd s = { s with decNode := n, dstate := .done } := by
  simp only [decLand, hk, if_pos hs]

theorem decLand_literal (hk : nd.kind = .leaf) (hs : nd.sym.toNat ≠ Config.eofId) :
    decLand n nd s = { s with
      yout := s.yout ++ [nd.sym.extractLsb' 0 8], decCount := s.decCount + 1#64, decNode := s.root
      dstate := .atRoot } := by
  simp only [decLand, hk, if_neg hs]
  rfl

end

end

/-! ### The statements -/

/-- Settles O43: the phase check, then four writes. -/
theorem decStartBeginsADecode : Obligations.DecStartBeginsADecode := by
  refine ⟨rfl, fun s hf hp => ?_, fun s hf hp => exec_decStart hf hp⟩
  exact exec_seqError (i := .decStart) ⟨nofun, nofun⟩ hf rfl (by simpa [legalPhases] using hp)

/-- Settles O44: the phase check, then the entry the bit leads to, then what that entry is. -/
theorem decBitWalksTheTree : Obligations.DecBitWalksTheTree := by
  refine ⟨rfl, rfl, fun t s hf hp => ?_, fun t s hf hp => ⟨fun hd => exec_decBit_done hf hp hd, ?_⟩⟩
  · exact exec_seqError ⟨nofun, nofun⟩ hf rfl (by simpa [legalPhases] using hp)
  · intro n hd hr hn hlt
    have htarget : decTarget t s = .ok n := by
      rcases hn with ⟨hk, rfl⟩ | ⟨hk, hdec, rfl⟩
      · exact decTarget_leaf hr hk
      · exact decTarget_child hr hk hdec
    rw [exec_decBit hf hp hd htarget hlt]
    refine ⟨fun hk => ?_, fun hk hs => ?_, fun hk hs => ?_⟩
    · rw [decLand_internal hk]
    · rw [decLand_eof hk (congrArg BitVec.toNat hs)]
    · rw [decLand_literal hk fun h => hs (BitVec.eq_of_toNat_eq h)]

/-- Settles O45: the phase check, then the check that the EOF leaf was reached. -/
theorem decEndChecksTheEnd : Obligations.DecEndChecksTheEnd := by
  refine ⟨rfl, fun s hf hp => ?_, fun s hf hp => ⟨exec_decEnd hf hp, exec_decEnd_malformed hf hp⟩⟩
  exact exec_seqError (i := .decEnd) ⟨nofun, nofun⟩ hf rfl (by simpa [legalPhases] using hp)

end Sys2Proof.Machine
end

section
/-! PROOF. O46: encoding bytes with the tree of their own model, and decoding the codes with that tree. -/

namespace Sys2Proof.Machine

/-! ### Runs -/

theorem runCommands_cons_congr {i : Instr} {is : List Instr} {s s' : State} (h : exec i s = exec i s') :
    runCommands (i :: is) s = runCommands (i :: is) s' := by
  rw [runCommands, runCommands, h]

theorem decBits_append (ts us : List Bool) : decBits (ts ++ us) = decBits ts ++ decBits us := List.map_append

/-! ### The codes of bytes as a body (R116, R124) -/

/-- The codes of the bytes and of EOF in a tree. -/
def HTree.body (t : HTree) (bs : List Byte) : List Bool := bs.flatMap (fun b => t.code b.toNat) ++ t.code Config.eofId

section
variable {s : State} {bs : List Byte}

/-! ### The shift register at the start of an encode (R112) -/

/-- R112: ENC_SYM loads its code over what the shift register holds. -/
theorem exec_encSym_encShift {b : Byte} (hf : s.faulted = false) (hp : s.phase = .encoding)
    (h : (s.lutAt b.toNat).len ≠ 0#9) (p : Pattern) : exec (.encSym b) { s with encShift := p } = exec (.encSym b) s :=
  (exec_encSym (s := { s with encShift := p }) hf hp h).trans (exec_encSym hf hp h).symm

/-- R112: and so does ENC_END. -/
theorem exec_encEnd_encShift (hf : s.faulted = false) (hp : s.phase = .encoding) (p : Pattern) :
    exec .encEnd { s with encShift := p } = exec .encEnd s := by
  have hrun : exec .encEnd s = .next { emitCode (s.lutAt Config.eofId) s with phase := .treeReady } :=
    exec_done nofun hf rfl (by simp [legalPhases, hp]) rfl
  rw [hrun]
  exact exec_done nofun hf rfl (by simp [legalPhases, hp]) rfl

/-- The first code of an encode is loaded over what the shift register holds, so nothing reads that. -/
theorem runCommands_encBytes_encShift (hf : s.faulted = false) (hp : s.phase = .encoding)
    (h : ∀ b ∈ bs, (s.lutAt b.toNat).len ≠ 0#9) (p : Pattern) :
    runCommands (encBytes bs ++ [.encEnd]) { s with encShift := p } = runCommands (encBytes bs ++ [.encEnd]) s := by
  cases bs with
  | nil => exact runCommands_cons_congr (exec_encEnd_encShift hf hp p)
  | cons b bs => exact runCommands_cons_congr (exec_encSym_encShift hf hp (h b List.mem_cons_self) p)

/-! ### Encoding a body (R116) -/

/-- R116: bytes that are all leaves of the tree that the LUT was derived from are encoded as their body. -/
theorem runCommands_encodeBytes {t : HTree} (hf : s.faulted = false) (hp : s.phase = .treeReady)
    (hlen : ∀ b ∈ bs, (s.lutAt b.toNat).len ≠ 0#9) (hcode : ∀ b ∈ bs, codeOf s.lut b.toNat = t.code b.toNat)
    (heof : codeOf s.lut Config.eofId = t.code Config.eofId) :
    runCommands (encodeBytes bs) s = .next { s with
      encShift := 0#256, bout := s.bout ++ t.body bs, bitCount := BitVec.ofNat 64 (t.body bs).length } := by
  have hbody : t.body bs = bs.flatMap (fun b => codeOf s.lut b.toNat) ++ codeOf s.lut Config.eofId := by
    rw [HTree.body, heof, List.flatMap_congr hcode]
  have hstart := exec_encStart (s := { s with encShift := 0#256 }) hf hp
  have hrest := runCommands_encBytes_encShift (s := { s with bitCount := 0#64, phase := .encoding }) hf rfl hlen 0#256
  have hstream := encodedStreamIsTheCodes bs { s with encShift := 0#256 } hf hp rfl hlen
  rw [hbody, ← List.append_assoc]
  calc runCommands (encodeBytes bs) s
      = runCommands (encBytes bs ++ [Instr.encEnd]) { s with bitCount := 0#64, phase := .encoding } :=
        runCommands_cons (exec_encStart hf hp)
    _ = runCommands (encodeBytes bs) { s with encShift := 0#256 } := hrest.symm.trans (runCommands_cons hstart).symm
    _ = _ := hstream

/-! ### Decoding a body (R119 to R124) -/

variable {n : Nat} {t : HTree}

/-- R121: the decoder at the root, fed the code of EOF, is done on a leaf. -/
theorem runCommands_decEof (hrep : Represents s.node n s.root t) (hn : n ≤ Config.maxNodes) (heof : Config.eofId ∈ t.leaves)
    (hf : s.faulted = false) (hp : s.phase = .decoding) (hd : s.dstate = .atRoot) (hi : s.decNode = s.root) :
    ∃ j, runCommands (decBits (t.code Config.eofId)) s = .next { s with decNode := j, dstate := .done } := by
  have hd' : s.dstate ≠ .done := hd ▸ nofun
  have hroot := hrep.lt.trans_le hn
  cases hrep with
  | leaf _ hk =>
    have hsym := (List.mem_singleton.1 heof).symm
    have hbit := exec_decBit (b := false) hf hp hd' (decTarget_leaf hroot hk) hroot
    exact ⟨s.root, (runCommands_cons hbit).trans (congrArg _ (decLand_eof hk hsym))⟩
  | node hlt hk hl hr =>
    obtain ⟨j, hkj, hsym, hrun⟩ := walk (.node hlt hk hl hr) hn heof hf hp hroot hk
      (by simp only [HTree.path]; split <;> simp) hi hd'
    exact ⟨j, hrun.trans (congrArg _ (decLand_eof hkj hsym))⟩

/-- R119: the decoder at the root, fed the codes of bytes of a tree that holds EOF, emits the bytes.  Where the root is a leaf there is
no byte to decode. -/
theorem runCommands_decBytes (hrep : Represents s.node n s.root t) (hn : n ≤ Config.maxNodes) (heof : Config.eofId ∈ t.leaves)
    (hbs : ∀ b ∈ bs, b.toNat ∈ t.leaves) (hf : s.faulted = false) (hp : s.phase = .decoding) (hd : s.dstate = .atRoot)
    (hi : s.decNode = s.root) :
    runCommands (decBits (bs.flatMap (fun b => t.code b.toNat))) s = .next { s with
      yout := s.yout ++ bs, decCount := s.decCount + BitVec.ofNat 64 bs.length } := by
  cases t with
  | leaf sym =>
    have hnil : bs = [] := List.eq_nil_iff_forall_not_mem.2 fun b hb => by
      have hsym := (List.mem_singleton.1 (hbs b hb)).trans (List.mem_singleton.1 heof).symm
      exact absurd hsym (Nat.ne_of_lt b.isLt)
    subst hnil
    simp [decBits]
  | node l r => exact runCommands_decCodes bs hrep hn hbs hf hp hd hi

/-- R119, R121: the decoder at the root, fed the body of bytes and any bits following it, emits the bytes and is done. -/
theorem runCommands_decBody (hrep : Represents s.node n s.root t) (hn : n ≤ Config.maxNodes) (heof : Config.eofId ∈ t.leaves)
    (hbs : ∀ b ∈ bs, b.toNat ∈ t.leaves) (hf : s.faulted = false) (hp : s.phase = .decoding) (hd : s.dstate = .atRoot)
    (hi : s.decNode = s.root) (pad : List Bool) :
    ∃ j, runCommands (decBits (t.body bs ++ pad)) s = .next { s with
      yout := s.yout ++ bs, decCount := s.decCount + BitVec.ofNat 64 bs.length, decNode := j, dstate := .done } := by
  have hbytes := runCommands_decBytes hrep hn heof hbs hf hp hd hi
  obtain ⟨j, hend⟩ := runCommands_decEof
    (s := { s with yout := s.yout ++ bs, decCount := s.decCount + BitVec.ofNat 64 bs.length }) hrep hn heof hf hp hd hi
  refine ⟨j, ?_⟩
  rw [HTree.body, decBits_append, decBits_append, List.append_assoc, runCommands_append hbytes, runCommands_append hend]
  exact runCommands_decBit_done pad hf hp rfl

/-- R124: the commands that decode the body of bytes, any bits following it, emit the bytes and complete. -/
theorem runCommands_decodeBits (hrep : Represents s.node n s.root t) (hn : n ≤ Config.maxNodes) (heof : Config.eofId ∈ t.leaves)
    (hbs : ∀ b ∈ bs, b.toNat ∈ t.leaves) (hf : s.faulted = false) (hp : s.phase = .treeReady) (pad : List Bool) :
    ∃ j, runCommands (decodeBits (t.body bs ++ pad)) s = .next { s with
      yout := s.yout ++ bs, decCount := BitVec.ofNat 64 bs.length, decNode := j, dstate := .done } := by
  obtain ⟨j, hbody⟩ := runCommands_decBody (s := s.startDecode) hrep hn heof hbs hf rfl rfl rfl pad
  refine ⟨j, (runCommands_cons (exec_decStart hf hp)).trans ((runCommands_append hbody).trans ?_)⟩
  refine Eq.trans (runCommands_cons (exec_decEnd hf rfl rfl)) ?_
  simp [State.startDecode, hp]

end

/-! ### The model of bytes (R87) -/

/-- R85: a closed model holds EOF. -/
theorem Counted.eof_mem_presentSyms {s u : State} {bs : List Byte} (h : Counted s u bs) :
    Config.eofId ∈ presentSyms u.closeModel.freq := by
  have hone := State.closeModel_freqAt_eof h.wf
  refine mem_presentSyms.2 ⟨by decide, fun h0 => ?_⟩
  cases hone.symm.trans h0

/-- R87: a closed model holds the bytes that were counted. -/
theorem Counted.byte_mem_presentSyms {s u : State} {bs : List Byte} (h : Counted s u bs) {b : Byte} (hb : b ∈ bs) :
    b.toNat ∈ presentSyms u.closeModel.freq := by
  have hkeep := State.closeModel_freqAt_of_ne h.wf (Nat.ne_of_lt b.isLt : b.toNat ≠ Config.eofId)
  exact mem_presentSyms.2 ⟨byte_lt b, fun h0 => (h.freqAt_ne_zero b).2 hb (hkeep.symm.trans h0)⟩

/-! ### The statement -/

/-- Settles O46: the LUT and the arena that TREE_BUILD leaves stand for one tree, which holds the bytes and EOF; the codes are its
paths, and the decoder that is fed them walks it. -/
theorem encodeThenDecodeGivesBack : Obligations.EncodeThenDecodeGivesBack := by
  intro bs s hf hlen
  obtain ⟨m, hm, hmodel⟩ := runCommands_buildModel hf hlen
  have hfm : m.closeModel.faulted = false := hm.faulted.trans hf
  have heof := hm.eof_mem_presentSyms
  obtain ⟨t, ht⟩ := built m.closeModel.freq (List.ne_nil_of_mem heof)
  have hbytes : ∀ b ∈ bs, b.toNat ∈ presentSyms m.closeModel.freq := fun b hb => hm.byte_mem_presentSyms hb
  have htree := exec_treeBuild hfm (.inl rfl) (List.ne_nil_of_mem heof)
  have hencode := runCommands_encodeBytes (s := m.closeModel.treeBuilt) (t := t) hfm rfl
    (fun b hb => (ht.len_ne_zero _).2 (hbytes b hb)) (fun b hb => (ht.code _ (hbytes b hb)).1) (ht.code _ heof).1
  refine ⟨_, _, t.body bs, (runCommands_append hmodel).trans (runCommands_cons htree), hfm, hencode, hfm, rfl, fun pad => ?_⟩
  obtain ⟨j, hdecode⟩ := runCommands_decodeBits
    (s := { m.closeModel.treeBuilt with
      encShift := 0#256, bout := m.closeModel.treeBuilt.bout ++ t.body bs
      bitCount := BitVec.ofNat 64 (t.body bs).length })
    (bs := bs) ht.rep ht.n_le (ht.leaves.mem_iff.2 heof) (fun b hb => ht.leaves.mem_iff.2 (hbytes b hb)) hfm rfl pad
  exact ⟨_, hdecode, hfm, rfl, rfl⟩

end Sys2Proof.Machine
end

section
/-! PROOF. O22 to O26: HDR_BEGIN, and what HDR_BYTE does with each byte of a header. -/

namespace Sys2Proof.Machine

theorem encode_hdrByte (b : Byte) : encode (.hdrByte b) = 0#16 ++ b ++ 0x09#8 := word_of_byte b _

/-! ### Opening a header (R131) -/

/-- The state that HDR_BEGIN leaves. -/
def State.openHeader (s : State) : State := { s.modelReset with phase := .hdrLoading }

theorem exec_hdrBegin {s : State} (hf : s.faulted = false) : exec .hdrBegin s = .next s.openHeader :=
  exec_done nofun hf rfl (mem_allPhases _) rfl

section
variable {s : State} {b : Byte}

/-! ### One HDR_BYTE (R132) -/

theorem exec_hdrByte_done {t : State} (hf : s.faulted = false) (hp : s.phase = .hdrLoading)
    (hr : hdrByteRule b s = .done t) : exec (.hdrByte b) s = .next t :=
  exec_done nofun hf rfl (by simp [legalPhases, hp]) hr

theorem exec_hdrByte_raise {k : Cause} (hf : s.faulted = false) (hp : s.phase = .hdrLoading)
    (hr : hdrByteRule b s = .raise k) : exec (.hdrByte b) s = .next (s.enterFault k (0#16 ++ b ++ 0x09#8)) := by
  rw [← encode_hdrByte]
  exact exec_raise nofun hf rfl (by simp [legalPhases, hp]) hr

/-- HP_N with one more header byte shifted in (R132). -/
def State.nextCount (s : State) (b : Byte) : BitVec 16 := s.hpN.extractLsb' 0 8 ++ b

/-- R132: a byte of the count field, which as the second must leave a count of 1 to 257. -/
theorem hdrByteRule_count (hlt : s.hpBytes.toNat < 2)
    (hn : s.hpBytes.toNat = 1 → 1 ≤ (s.nextCount b).toNat ∧ (s.nextCount b).toNat ≤ Config.nSym) :
    hdrByteRule b s = .done { s with hpN := s.nextCount b, hpBytes := s.hpBytes + 1#12 } := by
  refine (if_pos hlt).trans (if_neg ?_)
  rintro ⟨h1, hbad⟩
  obtain ⟨hpos, hle⟩ := hn h1
  rcases hbad with h0 | hgt
  · exact absurd (congrArg BitVec.toNat h0) (Nat.ne_of_gt hpos)
  · exact absurd hle (Nat.not_le.2 hgt)

theorem hdrByteRule_count_malformed (h1 : s.hpBytes = 1#12)
    (hbad : (s.nextCount b).toNat = 0 ∨ Config.nSym < (s.nextCount b).toNat) : hdrByteRule b s = .raise .hdrMalformed := by
  have h1 : s.hpBytes.toNat = 1 := by rw [h1]; rfl
  exact (if_pos (by omega)).trans (if_pos ⟨h1, hbad.imp_left fun h0 => BitVec.eq_of_toNat_eq h0⟩)

/-! ### The checks on a record (R133 to R136) -/

theorem recordSym_eq_some {p : Config.Params} {v : Word} {sym : Nat}
    (h : v = p.hdrEofSym ∧ sym = 256 ∨ v ≠ p.hdrEofSym ∧ v.toNat ≤ 255 ∧ sym = v.toNat) : recordSym p v = some sym := by
  rcases h with ⟨hv, rfl⟩ | ⟨hv, hle, rfl⟩
  · exact if_pos hv
  · rw [recordSym, if_neg hv, if_pos hle]

theorem recordSym_eq_none {p : Config.Params} {v : Word} (hv : v ≠ p.hdrEofSym) (hlt : 255 < v.toNat) :
    recordSym p v = none := by
  rw [recordSym, if_neg hv, if_neg (Nat.not_le.2 hlt)]

/-- R47: what a symbol that enters the model makes of the counts. -/
theorem State.addSym_freqAt (hm : Memory.wf 0#32 Config.nSym s.freq = true) (i : Nat) (c : Word) (j : Nat) :
    (s.addSym i c).freqAt j = if i = j then c else s.freqAt j :=
  Memory.read_write hm

section
variable {v c : Word} {j sym : Nat}

theorem processRecord_unnamed (h : recordSym s.params v = none) : processRecord v c j s = .raise .hdrMalformed := by
  simp only [processRecord, h]

theorem processRecord_no_entry (hv : recordSym s.params v = some sym) (h : c = 0#32 ∨ s.freqAt sym ≠ 0#32) :
    processRecord v c j s = .raise .hdrMalformed := by
  by_cases hc : c = 0#32
  · simp only [processRecord, hv, if_pos hc]
  · simp only [processRecord, hv, if_neg hc, if_pos (h.resolve_left hc)]

theorem processRecord_overflow (hv : recordSym s.params v = some sym) (hc : c ≠ 0#32) (h0 : s.freqAt sym = 0#32)
    (h : Config.totalMax < s.total.toNat + c.toNat) : processRecord v c j s = .raise .countOverflow := by
  simp only [processRecord, hv, if_neg hc, if_neg (not_not_intro h0), if_pos h]

/-- R134, R135: a record that passes the checks enters the model, and the last one must leave EOF in it. -/
theorem processRecord_new (hv : recordSym s.params v = some sym) (h : s.NewRecord sym c) :
    processRecord v c j s =
      if j + 1 = s.hpN.toNat then
        if (s.addSym sym c).freqAt Config.eofId = 0#32 then .raise .hdrMalformed
        else .done { s.addSym sym c with phase := .modelReady }
      else .done (s.addSym sym c) := by
  simp only [processRecord, hv, if_neg h.count, if_neg (not_not_intro h.absent), if_neg (Nat.not_lt.2 h.room)]
  rfl

end

/-! ### The eighth byte of a record (R132) -/

/-- The parser with one more header byte shifted into its record (R132). -/
def State.shiftRecord (s : State) (b : Byte) : State :=
  { s with hpBuf := shiftIn s.hpBuf b, hpBytes := s.hpBytes + 1#12 }

/-- Byte b is the eighth of its record, and completes the fields v and c. -/
structure State.EndsRecord (s : State) (b : Byte) (v c : Word) : Prop where
  past : 2 ≤ s.hpBytes.toNat
  eighth : (s.hpBytes.toNat - 2) % 8 = 7
  fields : v ++ c = shiftIn s.hpBuf b

theorem State.EndsRecord.hdrByteRule_eq {v c : Word} (h : s.EndsRecord b v c) :
    hdrByteRule b s = processRecord v c ((s.hpBytes.toNat - 2) / 8) (s.shiftRecord b) := by
  obtain ⟨hv, hc⟩ := record_fields v c
  rw [h.fields] at hv hc
  calc hdrByteRule b s
      = processRecord ((shiftIn s.hpBuf b).extractLsb' 32 32) ((shiftIn s.hpBuf b).extractLsb' 0 32)
          ((s.hpBytes.toNat - 2) / 8) (s.shiftRecord b) := (if_neg (Nat.not_lt.2 h.past)).trans (if_pos h.eighth)
    _ = _ := by rw [hv, hc]

end

/-! ### The statements -/

/-- Settles O22: HDR_BEGIN is legal in every phase. -/
theorem hdrBeginStartsAHeader : Obligations.HdrBeginStartsAHeader :=
  ⟨rfl, fun _ hf => exec_hdrBegin hf⟩

/-- Settles O23: the check on the count field, which only its second byte is put to. -/
theorem hdrByteTakesTheRecordCount : Obligations.HdrByteTakesTheRecordCount := by
  intro b s hf hp
  refine ⟨fun h0 => ?_, fun h1 hpos hle => ?_, fun h1 hbad => ?_⟩
  · have hdone := exec_hdrByte_done hf hp (hdrByteRule_count (b := b) (by simp [h0]) (by simp [h0]))
    rw [h0] at hdone
    exact hdone
  · have hdone := exec_hdrByte_done hf hp (hdrByteRule_count (b := b) (by simp [h1]) fun _ => ⟨hpos, hle⟩)
    rw [h1] at hdone
    exact hdone
  · exact exec_hdrByte_raise hf hp (hdrByteRule_count_malformed h1 hbad)

/-- Settles O24: the byte is past the count field and not the eighth of its record. -/
theorem hdrByteShiftsARecordByte : Obligations.HdrByteShiftsARecordByte :=
  fun _ _ hf hp h2 h7 => exec_hdrByte_inside hf hp h2 h7

/-- Settles O25: every check is passed, and FREQ takes one write of its canonical form. -/
theorem hdrByteAcceptsARecord : Obligations.HdrByteAcceptsARecord := by
  intro b s v c sym hf hp hm h2 h7 hbuf hsym hc h0 hroom heof
  have hend : s.EndsRecord b v c := ⟨h2, h7, hbuf⟩
  have hv : recordSym (s.shiftRecord b).params v = some sym := recordSym_eq_some hsym
  have hrule := hend.hdrByteRule_eq.trans (processRecord_new hv ⟨⟨v, hv⟩, hc, h0, hroom⟩)
  have hfreq := State.addSym_freqAt (s := s.shiftRecord b) hm sym c
  have hsame := (hfreq sym).trans (if_pos rfl)
  have hother (j : Nat) (hj : j ≠ sym) := (hfreq j).trans (if_neg hj.symm)
  by_cases hlast : (s.hpBytes.toNat - 2) / 8 + 1 = s.hpN.toNat
  · have hclosed : ((s.shiftRecord b).addSym sym c).freqAt Config.eofId ≠ 0#32 := by
      rw [hfreq]
      split
      · exact hc
      · next hne => exact (heof hlast).resolve_left hne
    refine ⟨_, exec_hdrByte_done hf hp (hrule.trans ((if_pos hlast).trans (if_neg hclosed))), ?_, hsame, hother⟩
    rw [if_pos hlast]
    rfl
  · refine ⟨_, exec_hdrByte_done hf hp (hrule.trans (if_neg hlast)), ?_, hsame, hother⟩
    rw [if_neg hlast, ← hp]
    rfl

/-- Settles O26: the checks of a record one after another, each where those before it are passed. -/
theorem hdrByteReportsTheFirstFault : Obligations.HdrByteReportsTheFirstFault := by
  intro b s v c hf hp h2 h7 hbuf
  have hend : s.EndsRecord b v c := ⟨h2, h7, hbuf⟩
  have raise {k : Cause} (h : processRecord v c ((s.hpBytes.toNat - 2) / 8) (s.shiftRecord b) = .raise k) :=
    exec_hdrByte_raise hf hp (hend.hdrByteRule_eq.trans h)
  refine ⟨fun hne hlt => raise (processRecord_unnamed (recordSym_eq_none hne hlt)), fun sym hsym => ?_⟩
  have hv : recordSym (s.shiftRecord b).params v = some sym := recordSym_eq_some hsym
  refine ⟨fun h => raise (processRecord_no_entry hv h), fun hc h0 h => raise (processRecord_overflow hv hc h0 h), ?_⟩
  intro hc h0 hroom hlast hne heof hm
  have hopen := (State.addSym_freqAt (s := s.shiftRecord b) hm sym c Config.eofId).trans ((if_neg hne).trans heof)
  exact raise ((processRecord_new hv ⟨⟨v, hv⟩, hc, h0, hroom⟩).trans ((if_pos hlast).trans (if_pos hopen)))

end Sys2Proof.Machine
end

section
/-! PROOF. O27 and O28: the header that HDR_EMIT appends, and how long it is. -/

namespace Sys2Proof.Machine

/-! ### The records of a header (R129, R130) -/

/-- R130: an absent symbol has no record. -/
theorem recordBytes_absent {p : Config.Params} {freq : Memory Word} {x : Nat} (h : Memory.read 0#32 freq x = 0#32) :
    recordBytes p freq x = [] :=
  if_pos h

theorem recordBytes_present {p : Config.Params} {freq : Memory Word} {x : Nat} (h : Memory.read 0#32 freq x ≠ 0#32) :
    recordBytes p freq x = be32 (headerSym p x) ++ be32 (Memory.read 0#32 freq x) :=
  if_neg h

/-- R129: the header is the count field and the records of the present symbols, in ascending id. -/
theorem headerBytes_eq (p : Config.Params) (numSyms : BitVec 9) (freq : Memory Word) :
    headerBytes p numSyms freq = be16 (numSyms.setWidth 16) ++ (presentSyms freq).flatMap (recordBytes p freq) := by
  unfold headerBytes presentSyms
  refine congrArg _ ?_
  induction List.range Config.nSym with
  | nil => rfl
  | cons x xs ih =>
    by_cases h : Memory.read 0#32 freq x = 0#32
    · simp [h, recordBytes_absent, ih]
    · simp [h, ih]

/-- R138, R127: two bytes, and eight for each present symbol. -/
theorem headerBytes_length (p : Config.Params) (numSyms : BitVec 9) (freq : Memory Word) :
    (headerBytes p numSyms freq).length = 2 + 8 * (presentSyms freq).length := by
  have hrecord : ∀ x ∈ presentSyms freq, (recordBytes p freq x).length = 8 := fun x hx => by
    rw [recordBytes_present (mem_presentSyms.1 hx).2]
    rfl
  rw [headerBytes_eq, List.length_append, List.length_flatMap, List.map_congr_left hrecord, List.map_const', List.sum_replicate,
    smul_eq_mul, Nat.mul_comm]
  rfl

/-! ### HDR_EMIT (R130) -/

theorem exec_hdrEmit {s : State} (hf : s.faulted = false) (hp : s.phase = .modelReady ∨ s.phase = .treeReady) :
    exec .hdrEmit s = .next (s.emitBytes (headerBytes s.params s.numSyms s.freq)) :=
  exec_done nofun hf rfl (by simpa [legalPhases] using hp) rfl

/-- Settles O27: the phase check, then the count field and one record per present symbol, byte by byte. -/
theorem hdrEmitSerializesTheModel : Obligations.HdrEmitSerializesTheModel := by
  refine ⟨rfl, fun s hf h1 h2 => ?_, fun s hf hp => ?_⟩
  · exact exec_seqError (i := .hdrEmit) ⟨nofun, nofun⟩ hf rfl (by simp [legalPhases, h1, h2])
  · rw [exec_hdrEmit hf hp, State.emitBytes, headerBytes, ← List.append_assoc]
    rfl

/-- Settles O28: NUM_SYMS counts the present symbols, and each has a record of eight bytes. -/
theorem headerLength : Obligations.HeaderLength := by
  intro s hf hp hm
  refine ⟨_, exec_hdrEmit hf hp, ?_⟩
  rw [State.emitBytes_yout, List.length_append, headerBytes_length, hm.numSyms, Nat.add_assoc]

end Sys2Proof.Machine
end

section
/-! PROOF. O29: a header fed back byte by byte gives the model it was written from. -/

namespace Sys2Proof.Machine

section
variable {s u : State} {n : BitVec 16}

/-! ### The count field (R127, R132) -/

/-- R127: the two bytes of a count, shifted in, are the count. -/
theorem shiftIn_count (n m : BitVec 16) :
    ((m.extractLsb' 0 8 ++ n.extractLsb' 8 8 : BitVec 16).extractLsb' 0 8 ++ n.extractLsb' 0 8 : BitVec 16) = n := by
  rw [BitVec.extractLsb'_append_eq_right]
  exact BitVec.extractLsb'_append_extractLsb'

/-- The parser once it has taken the count field. -/
def State.headerCounted (u : State) (n : BitVec 16) : State := { u.openHeader with hpN := n, hpBytes := 2#12 }

/-- R132: HDR_BEGIN and the two bytes of a count of 1 to 257. -/
theorem runCommands_headerCount (hf : u.faulted = false) (hpos : 1 ≤ n.toNat) (hle : n.toNat ≤ 257) :
    runCommands (.hdrBegin :: (be16 n).map .hdrByte) u = .next (u.headerCounted n) := by
  obtain ⟨hfirst, -, -⟩ := hdrByteTakesTheRecordCount (n.extractLsb' 8 8) u.openHeader hf rfl
  have hshift := shiftIn_count n u.openHeader.hpN
  obtain ⟨-, hsecond, -⟩ := hdrByteTakesTheRecordCount (n.extractLsb' 0 8)
    { u.openHeader with hpN := u.openHeader.hpN.extractLsb' 0 8 ++ n.extractLsb' 8 8, hpBytes := 1#12 } hf rfl
  dsimp only at hsecond
  rw [hshift] at hsecond
  exact (runCommands_cons (exec_hdrBegin hf)).trans ((runCommands_cons (hfirst rfl)).trans
    (runCommands_cons (hsecond rfl hpos hle)))

/-! ### The records (R133 to R135) -/

/-- The parser has received no record yet. -/
theorem received_headerCounted (u : State) (n : BitVec 16) (freq : Memory Word) :
    Received (u.headerCounted n) (u.headerCounted n) freq [] where
  frame := ⟨_, _, _, _, _, rfl⟩
  wf := rfl
  read _ := rfl
  numSyms := rfl
  total := rfl
  hpBytes := rfl

/-- The parser has received the records of all present symbols: its model is the one they were written from. -/
theorem Received.model_eq {t : State} (h : Received u t s.freq (presentSyms s.freq)) (hs : s.ModelOk)
    (hm : Memory.wf 0#32 Config.nSym s.freq = true) :
    t.freq = s.freq ∧ t.numSyms = s.numSyms ∧ t.total = s.total := by
  refine ⟨Memory.ext h.wf hm fun j => (h.read j).trans ?_, BitVec.eq_of_toNat_eq (h.numSyms.trans hs.numSyms.symm),
    BitVec.eq_of_toNat_eq (h.total.trans ((sum_presentSyms _).trans hs.total.symm))⟩
  split
  · rfl
  · next hj =>
    by_contra h0
    have hlt : j < Config.nSym := Nat.lt_of_not_le fun hge => h0 (Memory.read_above hm hge).symm
    exact hj (mem_presentSyms.2 ⟨hlt, Ne.symm h0⟩)

/-- R137: the header of a closed model, fed to a block with the same HDR_EOF_SYM, gives the model. -/
theorem runCommands_headerBytes (hs : s.Inv) (heof : s.freqAt Config.eofId ≠ 0#32) (hf : u.faulted = false)
    (hp : u.params = s.params) :
    ∃ v, runCommands (.hdrBegin :: (headerBytes s.params s.numSyms s.freq).map .hdrByte) u = .next v
      ∧ v.faulted = false ∧ v.phase = .modelReady ∧ v.freq = s.freq ∧ v.numSyms = s.numSyms ∧ v.total = s.total := by
  have hmem : 256 ∈ presentSyms s.freq := mem_presentSyms.2 ⟨by decide, heof⟩
  have hn : (s.numSyms.setWidth 16).toNat = (presentSyms s.freq).length := by
    rw [← hs.model.numSyms, BitVec.toNat_setWidth]
    exact Nat.mod_eq_of_lt (s.numSyms.isLt.trans (by decide))
  have hpos : 0 < (presentSyms s.freq).length := List.length_pos_of_mem hmem
  have hle := presentSyms_length_le s.freq
  have hsum : ((presentSyms s.freq).map (fun i => (Memory.read 0#32 s.freq i).toNat)).sum ≤ Config.totalMax := by
    rw [sum_presentSyms, ← hs.model.total]
    exact Nat.le_sub_one_of_lt s.total.isLt
  have hcount := runCommands_headerCount (n := s.numSyms.setWidth 16) hf (hn ▸ hpos) (hn ▸ hle)
  obtain ⟨t, hrun, ht⟩ := (received_headerCounted u (s.numSyms.setWidth 16) s.freq).run (presentSyms s.freq)
    (List.ne_nil_of_mem hmem) (presentSyms_nodup s.freq) (fun x hx => mem_presentSyms.1 hx) hf rfl (hp ▸ hs.params)
    (hn.trans (Nat.zero_add _).symm) (hn ▸ hle) hsum hmem heof
  obtain ⟨hfreq, hnum, htotal⟩ := ht.model_eq hs.model hs.memory.freq
  have hft : t.faulted = false := by
    obtain ⟨_, _, _, _, _, rfl⟩ := ht.frame
    exact hf
  refine ⟨{ t with phase := .modelReady }, ?_, hft, rfl, hfreq, hnum, htotal⟩
  rw [headerBytes_eq, List.map_append, ← List.cons_append, runCommands_append hcount, ← hp]
  exact hrun

end

/-- Settles O29: the header is the count of the present symbols and a record of each, and TREE_BUILD reads FREQ alone. -/
theorem headerRoundTrip : Obligations.HeaderRoundTrip := by
  intro s t u h hs hfs hps hemit hyout hfu hparams
  have hh : h = headerBytes s.params s.numSyms s.freq := by
    rw [exec_hdrEmit hfs hps] at hemit
    cases hemit
    exact (List.append_cancel_left hyout).symm
  have heof : s.freqAt Config.eofId ≠ 0#32 :=
    hs.model.closed (hps.imp_right fun hp => by simp [hp, Phase.treeValid])
  obtain ⟨v, hrun, hfv, hpv, hfreq, hnum, htotal⟩ := runCommands_headerBytes hs heof hfu hparams
  refine ⟨v, hh ▸ hrun, hfv, hpv, hfreq, hnum, htotal, fun s' v' hs' hv' => ?_⟩
  rw [eq_treeBuilt_of_exec hfs hps hs', eq_treeBuilt_of_exec hfv (.inl hpv) hv']
  simp [hfreq]

end Sys2Proof.Machine
end

section
/-! PROOF. O14, O15: the control commands, and the words with their opcodes that are no command. -/

namespace Sys2Proof.Machine

/-! ### Words with a reserved bit set (R64, R71) -/

/-- R69: the opcode of an N-format command names the command, whatever the bits above it. -/
theorem opcodeInstr_of_opcode {w : Word} {i : Instr} (hn : i.format = .n) (hop : opcField w = i.opcode) :
    opcodeInstr w = some i := by
  unfold opcodeInstr
  rw [hop]
  cases i <;> cases hn <;> rfl

/-- R71: of the words with the opcode of an N-format command, the decoder accepts the command's own word alone. -/
theorem decode_ne_ok_of_ne_encode {w : Word} {i : Instr} (hn : i.format = .n) (hop : opcField w = i.opcode)
    (hw : w ≠ encode i) (j : Instr) : decode w ≠ .ok j := by
  intro h
  obtain ⟨hj, -, -⟩ := decode_eq_ok_iff.1 h
  obtain rfl : i = j := Option.some.inj ((opcodeInstr_of_opcode hn hop).symm.trans hj)
  exact hw (encode_of_decode h).symm

/-- R147: while FAULTED = 1 a word that names no command is ignored. -/
theorem acceptWord_rejected_faulted {w : Word} {s : State} (h : ∀ i, decode w ≠ .ok i) (hf : s.faulted = true) :
    acceptWord w s = .next s := by
  unfold acceptWord
  split
  next i hi => exact absurd hi (h i)
  next => exact if_pos hf

/-! ### What the commands do (R139, R140, R165) -/

/-- R139: NOP is ignored while FAULTED = 1, and is done at once in every phase otherwise. -/
theorem exec_nop (s : State) : exec .nop s = .next s := by
  cases hf : s.faulted with
  | true => exact exec_faulted nofun hf
  | false => exact exec_done nofun hf rfl (mem_allPhases _) rfl

theorem State.applyReset_atReset (s : State) : s.applyReset.AtReset := by
  constructor <;> intros <;> rfl

/-- R39: the STATUS fields at their reset values are all zero. -/
theorem State.applyReset_status (s : State) : s.applyReset.status = 0#32 :=
  show State.reset.status = 0#32 by decide

/-- R165: after a reset the read port shows zero in every slot but that of ID. -/
theorem State.applyReset_portRead (s : State) (a : Byte) :
    s.applyReset.portRead a = if a.toNat / 4 = 15 then Config.idValue else 0#32 := by
  rw [State.portRead_of_idle s.applyReset_busy]
  unfold State.regRead
  split
  case h_25 => exact (if_neg ‹¬a.toNat / 4 = 15›).symm
  all_goals
    next hslot => simp [hslot, State.applyReset_status, State.hdrPos, LutBits.zero]

/-- Settles O14: the decoder accepts the word 0 alone of those with opcode 0, and NOP has nothing to write. -/
theorem nopChangesNothing : Obligations.NopChangesNothing :=
  ⟨rfl, fun _ _ hop hw hf => acceptWord_rejected (decode_ne_ok_of_ne_encode (i := .nop) rfl hop hw) hf, exec_nop⟩

/-- Settles O15: SOFT_RESET has no dispatch before it, so the reset of R164 is made in every state. -/
theorem softResetResetsEverything : Obligations.SoftResetResetsEverything := by
  refine ⟨rfl, fun w s hop hw => ?_, fun s => ⟨s.applyReset, exec_softReset s, s.applyReset_atReset, s.applyReset_portRead⟩⟩
  have hbad := decode_ne_ok_of_ne_encode (i := .softReset) rfl hop hw
  exact ⟨acceptWord_rejected hbad, acceptWord_rejected_faulted hbad⟩

end Sys2Proof.Machine
end

section
/-! PROOF. O6, O7, O49, O50: how a fault is entered and left, and what the machine does while it is faulted or idle. -/

namespace Sys2Proof.Machine

/-! ### Steps that accept nothing (R77, R161) -/

theorem step_nil {s : State} (h : s.hostIn = []) : step s = .next s := by
  simp only [step, nextEvent, h]

/-- R77: a word presented while BUSY = 1 stays with the host. -/
theorem step_command_busy {s : State} {w : Word} {rest : List HostEvent} (h : s.hostIn = .command w :: rest)
    (hb : s.busy = true) : step s = .next s := by
  rw [step_cons h]
  exact if_neg (by simp [State.cmdReady_command h, hb])

/-! ### Entering a fault (R145, R146) -/

/-- R145: a command that faults does nothing but enter the fault, for a rule that is done raises none. -/
theorem eq_enterFault_of_exec {i : Instr} {s t : State} (hf : s.faulted = false) (h : exec i s = .next t)
    (ht : t.faulted = true) : ∃ c, c ≠ .none ∧ t = s.enterFault c (encode i) := by
  rcases exec_next_cases h with ⟨-, rfl⟩ | ⟨-, hs, -⟩ | ⟨-, -, hfault⟩ | ⟨hi, -, -, -, hdone⟩
  · simp at ht
  · simp [hf] at hs
  · exact hfault
  · simp [ruleOf_done_faulted hi hdone, hf] at ht

/-- R145, R146: the same for an accepted word, command or not; FAULT_CMD takes the word itself. -/
theorem eq_enterFault_of_acceptWord {w : Word} {s t : State} (hf : s.faulted = false) (h : acceptWord w s = .next t)
    (ht : t.faulted = true) : ∃ c, c ≠ .none ∧ t = s.enterFault c w := by
  rcases acceptWord_next_cases h with ⟨i, hdec, he⟩ | ⟨-, ⟨hs, -⟩ | ⟨-, hfault⟩⟩
  · exact encode_of_decode hdec ▸ eq_enterFault_of_exec hf he ht
  · simp [hf] at hs
  · exact ⟨.illegalCmd, by decide, hfault⟩

/-! ### While faulted (R147) -/

/-- R147: the word of SOFT_RESET is the only one with an effect while FAULTED = 1. -/
theorem acceptWord_faulted {w : Word} {s : State} (hw : w ≠ encode .softReset) (hf : s.faulted = true) :
    acceptWord w s = .next s := by
  cases hdec : decode w with
  | ok i =>
    have hi : i ≠ .softReset := by
      rintro rfl
      exact hw (encode_of_decode hdec).symm
    rw [acceptWord_decoded hdec, exec_faulted hi hf]
  | error e => exact acceptWord_rejected_faulted (by simp [hdec]) hf

theorem acceptWord_softReset (s : State) : acceptWord (encode .softReset) s = .next s.applyReset :=
  acceptWord_decoded (decode_encode rfl) s

/-- R148: the fault record and PHASE of t are those of the faulted state s. -/
def State.KeepsFault (s t : State) : Prop :=
  t.faulted = true ∧ t.faultCause = s.faultCause ∧ t.faultCmd = s.faultCmd ∧ t.irq = true ∧ t.phase = s.phase

/-- The fault record and PHASE are among the fields of invPart, which the host's reads and takes leave alone. -/
theorem State.KeepsFault.of_invPart {s t : State} (hf : s.faulted = true) (h : t.invPart = s.invPart := by rfl) :
    s.KeepsFault t :=
  have keep {α : Type} (field : State → α) : field t.invPart = field s.invPart := congrArg field h
  have ht : t.faulted = true := (keep State.faulted).trans hf
  ⟨ht, keep State.faultCause, keep State.faultCmd, ht, keep State.phase⟩

/-- Settles O7: there is no event to handle, or cmd_ready = 0. -/
theorem nothingAcceptedHoldsTheState : Obligations.NothingAcceptedHoldsTheState :=
  fun _ => ⟨step_nil, fun _ _ hb h => step_command_busy h hb⟩

/-- Settles O49: a command or word that leaves FAULTED = 1 has entered a fault and done nothing else. -/
theorem faultsArePrecise : Obligations.FaultsArePrecise := by
  refine ⟨fun i s t hf h ht => ?_, fun w s t hf h ht => ?_⟩
  · obtain ⟨c, hc, rfl⟩ := eq_enterFault_of_exec hf h ht
    exact ⟨hc, rfl, rfl⟩
  · obtain ⟨c, hc, rfl⟩ := eq_enterFault_of_acceptWord hf h ht
    exact ⟨hc, rfl, rfl⟩

/-- Settles O50, by the cases of a step: rst and the word of SOFT_RESET reset, every other word is ignored, and the host's other
actions leave the fault record alone. -/
theorem faultIsStickyUntilReset : Obligations.FaultIsStickyUntilReset := by
  intro s t hf h
  rcases step_next_cases h with ⟨-, rfl⟩ | ⟨w, rest, -, -, rfl⟩ | ⟨w, rest, hin, -, ha⟩ | ⟨a, rest, -, rfl⟩
    | ⟨rest, -, rfl⟩ | ⟨rest, -, rfl⟩ | ⟨rest, hin, rfl⟩
  · exact .inl (State.KeepsFault.of_invPart hf)
  · exact .inl (State.KeepsFault.of_invPart hf)
  · by_cases hw : w = encode .softReset
    · subst hw
      cases (acceptWord_softReset _).symm.trans ha
      exact .inr ⟨⟨rest, .inr hin⟩, State.applyReset_atReset _⟩
    · cases (acceptWord_faulted (s := { s with hostIn := rest }) hw hf).symm.trans ha
      exact .inl (State.KeepsFault.of_invPart hf)
  · exact .inl (State.KeepsFault.of_invPart hf)
  · exact .inl (State.KeepsFault.of_invPart hf (takeBit_invPart _))
  · exact .inl (State.KeepsFault.of_invPart hf (takeByte_invPart _))
  · exact .inr ⟨⟨rest, .inl hin⟩, State.applyReset_atReset _⟩

/-- Settles O6: the words are ignored, the port clauses are those of O8, and O50 names the two ways out. -/
theorem faultedStateIgnoresCommands : Obligations.FaultedStateIgnoresCommands := by
  intro s e rest hb hf hin
  obtain ⟨htakeBit, htakeByte, hread, -⟩ := hostActionsTouchNothingElse s rest
  refine ⟨fun w he hw => ?_, fun a he => ?_, fun b bs he => htakeBit b bs (he ▸ hin),
    fun b bs he => htakeByte b bs (he ▸ hin), fun t h ht => ?_⟩
  · exact (step_command (he ▸ hin) hb).trans (acceptWord_faulted hw hf)
  · rw [← s.portRead_of_idle hb]
    exact hread a (he ▸ hin) hb
  · rcases faultIsStickyUntilReset s t hf h with ⟨hkeep, -⟩ | ⟨⟨rest', hrst | hword⟩, -⟩
    · simp [ht] at hkeep
    · exact .inl (List.cons.inj (hin.symm.trans hrst)).1
    · exact .inr (List.cons.inj (hin.symm.trans hword)).1

end Sys2Proof.Machine
end

section
/-! PROOF. O9: the rst input. -/

namespace Sys2Proof.Machine

/-- Settles O9: the outputs are those of O12, and the step makes the reset that SOFT_RESET makes. -/
theorem rstInputResets : Obligations.RstInputResets := by
  intro s rest h
  obtain ⟨-, -, hlow, -⟩ := statusShowsBusy s
  obtain ⟨hcmd, hbout, hyout⟩ := hlow ⟨rest, h⟩
  have hid := (State.applyReset_portRead { s with hostIn := rest } 0x3C#8).trans (if_pos (by decide))
  exact ⟨hcmd, hbout, hyout, _, step_rst h, State.applyReset_atReset _, hid, exec_softReset _⟩

end Sys2Proof.Machine
end

section
/-! PROOF. O47: compressing bytes on one block and decompressing the header and the body on another. -/

namespace Sys2Proof.Machine

/-! ### What every command of a run keeps (R58) -/

section
variable {s t : State} {is : List Instr}

theorem runCommands_cons_next {i : Instr} (h : runCommands (i :: is) s = .next t) :
    ∃ u, exec i s = .next u ∧ runCommands is u = .next t := by
  rw [runCommands] at h
  split at h
  next u hu => exact ⟨u, hu, h⟩
  all_goals cases h

/-- A property that every command of a list keeps holds after their run. -/
theorem runCommands_keeps {P : State → Prop} (hstep : ∀ i ∈ is, ∀ ⦃s t⦄, exec i s = .next t → P s → P t)
    (hrun : runCommands is s = .next t) (hs : P s) : P t := by
  induction is generalizing s with
  | nil =>
    cases hrun
    exact hs
  | cons i is ih =>
    obtain ⟨u, hexec, hrest⟩ := runCommands_cons_next hrun
    exact ih (fun j hj => hstep j (List.mem_cons_of_mem _ hj)) hrest (hstep i List.mem_cons_self hexec hs)

theorem State.Inv.after_run (h : s.Inv) (hrun : runCommands is s = .next t) : t.Inv :=
  runCommands_keeps (fun _ _ _ _ he hs => hs.after_exec he) hrun h

/-- R35: the commands that receive a header emit no byte. -/
theorem yout_eq_of_receiveHeader {header : List Byte} (hrun : runCommands (.hdrBegin :: hdrBytes header) s = .next t) :
    t.yout = s.yout := by
  refine runCommands_keeps (P := fun r => r.yout = s.yout) (fun i hi r r' he hr => ?_) hrun rfl
  have hi' : i = .hdrBegin ∨ ∃ b, i = .hdrByte b := by
    rcases List.mem_cons.1 hi with rfl | hmem
    · exact .inl rfl
    · obtain ⟨b, -, rfl⟩ := List.mem_map.1 hmem
      exact .inr ⟨b, rfl⟩
  obtain ⟨-, bytes, hbytes, hsource⟩ := streamsAreAppendOnly i r r' he (by rcases hi' with rfl | ⟨b, rfl⟩ <;> nofun)
  have hnil : bytes = [] := by
    by_contra hne
    rcases hsource hne with ⟨b, rfl⟩ | rfl <;> simp at hi'
  rw [hbytes, hnil, List.append_nil, hr]

end

/-! ### The header of a counted model (R87, R137) -/

section
variable {s u m : State} {bs : List Byte}

/-- The header of the model that s holds. -/
def State.header (s : State) : List Byte := headerBytes s.params s.numSyms s.freq

/-- R130: HDR_EMIT emits the header. -/
theorem exec_hdrEmit_header (hf : s.faulted = false) (hp : s.phase = .modelReady ∨ s.phase = .treeReady) :
    exec .hdrEmit s = .next (s.emitBytes s.header) :=
  exec_hdrEmit hf hp

theorem Counted.bout (h : Counted s m bs) : m.bout = s.bout := by
  obtain ⟨f, n, k, rfl⟩ := h.frame
  rfl

theorem Counted.yout (h : Counted s m bs) : m.yout = s.yout := by
  obtain ⟨f, n, k, rfl⟩ := h.frame
  rfl

theorem Counted.params (h : Counted s m bs) : m.params = s.params := by
  obtain ⟨f, n, k, rfl⟩ := h.frame
  rfl

/-- A block that was reset and holds the model of s, still open. -/
def State.modelAfterReset (s : State) : State :=
  { s.applyReset.openModel with freq := s.freq, numSyms := s.numSyms, total := s.total }

/-- R87: what is counted does not depend on what the block held before FM_CLEAR. -/
theorem Counted.modelAfterReset (h : Counted s m bs) : Counted m.applyReset.openModel m.modelAfterReset bs :=
  ⟨⟨_, _, _, rfl⟩, h.wf, h.count, h.other, h.numSyms, h.total⟩

/-- Counted and closed on a block that was reset, a model meets the invariant: FM_CLEAR to FM_CLOSE keep it. -/
theorem Counted.inv_closeModel_modelAfterReset (h : Counted s m bs) (hlegal : m.params.legal)
    (hlen : bs.length ≤ 2 ^ 32 - 2) : m.modelAfterReset.closeModel.Inv := by
  obtain ⟨n, hn, hrun⟩ := runCommands_buildModel (s := m.applyReset) rfl hlen
  rw [h.modelAfterReset.eq_of_perm hn (.refl bs)]
  exact (State.inv_applyReset hlegal).after_run hrun

/-- R137: the header of a counted model, fed to a block with the same HDR_EOF_SYM, gives the model and emits nothing.  The header and
the model are read off the same fields after a reset, where the invariant holds. -/
theorem Counted.runCommands_receiveHeader (h : Counted s m bs) (hlegal : m.params.legal) (hlen : bs.length ≤ 2 ^ 32 - 2)
    (hf : u.faulted = false) (hp : u.params = m.params) :
    ∃ v, runCommands (.hdrBegin :: hdrBytes m.closeModel.header) u = .next v
      ∧ v.faulted = false ∧ v.phase = .modelReady ∧ v.freq = m.closeModel.freq ∧ v.yout = u.yout := by
  have heof : m.modelAfterReset.closeModel.freqAt Config.eofId ≠ 0#32 := (mem_presentSyms.1 h.eof_mem_presentSyms).2
  obtain ⟨v, hrun, hfv, hpv, hfreq, -, -⟩ :=
    runCommands_headerBytes (h.inv_closeModel_modelAfterReset hlegal hlen) heof hf hp
  exact ⟨v, hrun, hfv, hpv, hfreq, yout_eq_of_receiveHeader hrun⟩

end

/-! ### Building the tree and using it (R91, R116, R124) -/

section
variable {s : State} {tree : HTree} {bs : List Byte}

/-- R116: with the tree of a model, bytes of the model are encoded as their body. -/
theorem Built.runCommands_encode (h : Built s.freq tree) (hf : s.faulted = false)
    (hp : s.phase = .modelReady ∨ s.phase = .treeReady) (heof : Config.eofId ∈ presentSyms s.freq)
    (hbs : ∀ b ∈ bs, b.toNat ∈ presentSyms s.freq) :
    runCommands (.treeBuild :: encodeBytes bs) s = .next { s.treeBuilt with
      encShift := 0#256, bout := s.bout ++ tree.body bs, bitCount := BitVec.ofNat 64 (tree.body bs).length } :=
  (runCommands_cons (exec_treeBuild hf hp (List.ne_nil_of_mem heof))).trans
    (runCommands_encodeBytes (s := s.treeBuilt) hf rfl (fun b hb => (h.len_ne_zero _).2 (hbs b hb))
      (fun b hb => (h.code _ (hbs b hb)).1) (h.code _ heof).1)

/-- R124: with the tree of a model, the body of bytes of the model is decoded to the bytes. -/
theorem Built.runCommands_decode (h : Built s.freq tree) (hf : s.faulted = false)
    (hp : s.phase = .modelReady ∨ s.phase = .treeReady) (heof : Config.eofId ∈ presentSyms s.freq)
    (hbs : ∀ b ∈ bs, b.toNat ∈ presentSyms s.freq) (pad : List Bool) :
    ∃ j, runCommands (.treeBuild :: decodeBits (tree.body bs ++ pad)) s = .next { s.treeBuilt with
      yout := s.yout ++ bs, decCount := BitVec.ofNat 64 bs.length, decNode := j, dstate := .done } := by
  obtain ⟨j, hrun⟩ := runCommands_decodeBits (s := s.treeBuilt) h.rep h.n_le (h.leaves.mem_iff.2 heof)
    (fun b hb => h.leaves.mem_iff.2 (hbs b hb)) hf rfl pad
  exact ⟨j, (runCommands_cons (exec_treeBuild hf hp (List.ne_nil_of_mem heof))).trans hrun⟩

end

/-! ### The statement -/

/-- Settles O47: both blocks hold the same counts, the one from the bytes and the other from the header, so both build one tree, which
the body was encoded with. -/
theorem compressThenDecompressGivesBack : Obligations.CompressThenDecompressGivesBack := by
  intro bs s u hf hlegal hlen hfu hparams
  obtain ⟨m, hm, hmodel⟩ := runCommands_buildModel hf hlen
  have hfm : m.closeModel.faulted = false := hm.faulted.trans hf
  have heof := hm.eof_mem_presentSyms
  have hbytes : ∀ b ∈ bs, b.toNat ∈ presentSyms m.closeModel.freq := fun b hb => hm.byte_mem_presentSyms hb
  obtain ⟨tree, htree⟩ := built m.closeModel.freq (List.ne_nil_of_mem heof)
  have hencode := Built.runCommands_encode (s := m.closeModel.emitBytes m.closeModel.header) htree hfm (.inl rfl) heof hbytes
  have hcompress := calc
    runCommands (compressSequence bs) s
      = runCommands (.hdrEmit :: .treeBuild :: encodeBytes bs) m.closeModel := by
        rw [compressSequence, List.append_assoc, runCommands_append hmodel]
        rfl
    _ = runCommands (.treeBuild :: encodeBytes bs) (m.closeModel.emitBytes m.closeModel.header) :=
        runCommands_cons (exec_hdrEmit_header hfm (.inl rfl))
    _ = _ := hencode
  refine ⟨_, _, _, hcompress, hfm, congrArg (· ++ m.closeModel.header) hm.yout, congrArg (· ++ tree.body bs) hm.bout,
    fun pad => ?_⟩
  obtain ⟨v, hreceive, hfv, hpv, hfreq, hyout⟩ :=
    hm.runCommands_receiveHeader (hm.params.symm ▸ hlegal) hlen hfu (hparams.trans hm.params.symm)
  rw [← hfreq] at htree heof hbytes
  obtain ⟨j, hdecode⟩ := htree.runCommands_decode hfv (.inl hpv) heof hbytes pad
  have hdecompress := calc
    runCommands (decompressSequence m.closeModel.header (tree.body bs ++ pad)) u
      = runCommands (.treeBuild :: decodeBits (tree.body bs ++ pad)) v := by
        rw [decompressSequence, List.append_assoc, runCommands_append hreceive]
        rfl
    _ = _ := hdecode
  exact ⟨_, hdecompress, hfv, congrArg (· ++ bs) hyout, rfl⟩

end Sys2Proof.Machine
end
